-- ==== Sys2Proof/Word.lean ====
section
/-! DEFINITION. The two word types of the engine (spec/00_scope.md R8) and the size of an address space (R15). -/

namespace Sys2Proof

/-- A `u16`: a register cell, a register address, a quantity, a hook argument or a hook result (R8). -/
abbrev Word := BitVec 16

/-- A `u8`: a function code (R60) or an exception code (R151). -/
abbrev Byte := BitVec 8

/-- How many addresses a space has (R15, R40). -/
abbrev spaceSize : Nat := 65536

end Sys2Proof
end

