-- ==== Sys2Proof/Config.lean ====
section
/-! DEFINITION. The configuration surface of the engine (spec/00_scope.md R9 to R14, spec/10_state.md R20 to R23):
what is fixed at construction and never changes afterwards, and the one configuration `State.reset` is built with. -/

namespace Sys2Proof

/-- The two address spaces: `H` and `I` of the spec (R16, R40). -/
inductive Space where
  | holding
  | input
deriving DecidableEq, Repr

/-- A range descriptor `R[s][k]` (R21). A field `hasRd` or `hasWr` says that a hook of that kind is attached;
what the hook computes is no part of the descriptor (R13). -/
structure Range where
  base : Word
  count : Word
  default : Word
  hasRd : Bool
  hasWr : Bool
deriving DecidableEq, Repr

/-- A range as the configuration surface writes it, with the optional `default` and `number` (R9). -/
structure RangeDecl where
  startAddress : Word
  default : Option Word
  number : Option Word
  onRead : Bool
  onWrite : Bool
deriving DecidableEq, Repr

/-- `WRITE_FAIL_POLICY` (R12): `atomic` is ATOMIC, `prefixed` is PREFIX. -/
inductive FailPolicy where
  | atomic
  | prefixed
deriving DecidableEq, Repr

/-- Every constant fixed at construction: the ordered range lists of the two spaces (R23), the station address
(R22) and the named parameters (R11, R12, R14) with the spec's default values. -/
structure Configuration where
  holding : List Range
  input : List Range
  station : Word
  qmaxRead : Nat := 125
  qmaxWrite : Nat := 123
  failPolicy : FailPolicy := .atomic
  nPorts : Nat := 1
deriving DecidableEq, Repr

/-- The construction errors (R157). -/
inductive ConfigError where
  | zeroCount
  | addressOverflow
  | overlappingRange
deriving DecidableEq, Repr

/-- The configuration of `State.reset`. DESIGN CHOICE (log 2): the spec leaves the ranges to the integrator, so this is
the spec's own sample configuration CFG-A (spec/95_test_vectors.md 2.1). Unsafe for a claim about `State.reset` alone;
no statement of the package rests on it. -/
def Config.configuration : Configuration where
  holding :=
    [ { base := 0, count := 10, default := 0, hasRd := false, hasWr := false },
      { base := 10, count := 10, default := 0x1111, hasRd := false, hasWr := false },
      { base := 30, count := 10, default := 0xFFFF, hasRd := false, hasWr := false },
      { base := 65534, count := 2, default := 0xABCD, hasRd := false, hasWr := false },
      { base := 50, count := 3, default := 0, hasRd := false, hasWr := true } ]
  input :=
    [ { base := 0, count := 4, default := 7, hasRd := false, hasWr := false },
      { base := 200, count := 2, default := 0, hasRd := true, hasWr := false } ]
  station := 1

end Sys2Proof
end

