-- ==== Sys2Proof/Syntax.lean ====
section
/-! DEFINITION. The instruction set: the request kinds of the engine (spec/00_scope.md R3, spec/opcode_table.json), one
constructor per row of the table. The request syntax of spec/30_encoding.md R72 is the constructors' own:
`ReadHolding a, q` is `.readHolding a q`, and `Raw` with a code of the table is that code's constructor with any
quantity. `TakeReply` is no request: it is the host's event `take` (Machine/State.lean). -/

namespace Sys2Proof

/-- A decoded request: its kind and its operands, all unsigned and used as they stand (R62). The quantity of a
WriteHolding is kept, since a header with `qty ≠ 1` is encodable and has a meaning of its own (R65). -/
inductive Instr where
  /-- `fc = 0x03` (R111). -/
  | readHolding (addr qty : Word)
  /-- `fc = 0x04` (R112). -/
  | readInput (addr qty : Word)
  /-- `fc = 0x06` with its one data word (R131). -/
  | writeHolding (addr qty value : Word)
  /-- `fc = 0x10` with its `qty` data words (R132). -/
  | writeMultipleHolding (addr qty : Word) (values : List Word)
  /-- Every other function code (R100); address and quantity are carried and ignored. -/
  | unsupported (fc : Byte) (addr qty : Word)
deriving DecidableEq, Repr

end Sys2Proof
end

