-- ==== Sys2Proof/WellFormed.lean ====
section
/-! DEFINITION. Which terms of `Instr` are requests: the conditions spec/30_encoding.md R63 to R65 and
spec/40_dispatch.md R93 put on a descriptor beyond the widths of its fields. -/

namespace Sys2Proof

/-- The function codes of the four supported kinds (R63). PRESUMED (log 10): the numbers are the Modbus standard's. -/
def supportedCodes : List Byte := [0x03, 0x04, 0x06, 0x10]

/-- A WriteMultipleHolding carries `qty` data words (R64); an unsupported request has a code outside the table (R65).
The other kinds have no condition: their data words are arguments of the constructor. -/
def Instr.wellFormed : Instr → Bool
  | .readHolding _ _ => true
  | .readInput _ _ => true
  | .writeHolding _ _ _ => true
  | .writeMultipleHolding _ qty values => values.length == qty.toNat
  | .unsupported fc _ _ => !supportedCodes.contains fc

/-- `i` is a well-formed request. -/
abbrev Instr.WellFormed (i : Instr) : Prop := i.wellFormed = true

end Sys2Proof
end

