-- ==== Sys2Proof/Decode.lean ====
section
/-! DEFINITION. The request descriptor `REQ` (spec/30_encoding.md R60 to R65), its decoder and its encoder, and the
packed form of a range descriptor (spec/10_state.md R21). -/

namespace Sys2Proof

/-- Request descriptor format `REQ`: a 40-bit header and the data words that follow it (R60). -/
structure Descriptor where
  header : BitVec 40
  words : List Word
deriving DecidableEq, Repr

/-- Header bits 39:32 (R60). -/
def headerFc (h : BitVec 40) : Byte := h.extractLsb' 32 8

/-- Header bits 31:16 (R60). -/
def headerAddr (h : BitVec 40) : Word := h.extractLsb' 16 16

/-- Header bits 15:0 (R60). -/
def headerQty (h : BitVec 40) : Word := h.extractLsb' 0 16

/-- The header `{fc, addr, qty}` (R60). -/
def mkHeader (fc : Byte) (addr qty : Word) : BitVec 40 := (fc ++ addr) ++ qty

/-- The request kinds (R63). -/
inductive Kind where
  | readHolding
  | readInput
  | writeHolding
  | writeMultipleHolding
  | unsupported
deriving DecidableEq, Repr

/-- The function-code map (R63): `fc` alone selects the kind. PRESUMED (log 10) for the four numbers. -/
def kindOf (fc : Byte) : Kind :=
  if fc = 0x03 then .readHolding
  else if fc = 0x04 then .readInput
  else if fc = 0x06 then .writeHolding
  else if fc = 0x10 then .writeMultipleHolding
  else .unsupported

/-- `n`, how many data words a request has: decided by the kind and, for WriteMultipleHolding, by `qty` (R64). -/
def dataWords (k : Kind) (qty : Word) : Nat :=
  match k with
  | .readHolding => 0
  | .readInput => 0
  | .writeHolding => 1
  | .writeMultipleHolding => qty.toNat
  | .unsupported => 0

/-- Why a descriptor is refused. -/
inductive DecodeError where
  /-- The number of data words is not the number the header calls for (R64, R93). -/
  | wrongWordCount (expected actual : Nat)
deriving DecidableEq, Repr

/-- The decoder: total on descriptors. The header's function code selects the row of the table, no other header bit
takes part, and any data words of an unsupported code are ignored (R63, R100); a supported code whose words do not fit its
kind is refused by name (R93). -/
def decode (d : Descriptor) : Except DecodeError Instr :=
  let fc := headerFc d.header
  let addr := headerAddr d.header
  let qty := headerQty d.header
  match kindOf fc, d.words with
  | .readHolding, [] => .ok (.readHolding addr qty)
  | .readHolding, w :: ws => .error (.wrongWordCount 0 (w :: ws).length)
  | .readInput, [] => .ok (.readInput addr qty)
  | .readInput, w :: ws => .error (.wrongWordCount 0 (w :: ws).length)
  | .writeHolding, [v] => .ok (.writeHolding addr qty v)
  | .writeHolding, ws => .error (.wrongWordCount 1 ws.length)
  | .writeMultipleHolding, ws =>
    if ws.length = qty.toNat then .ok (.writeMultipleHolding addr qty ws)
    else .error (.wrongWordCount qty.toNat ws.length)
  | .unsupported, _ => .ok (.unsupported fc addr qty)

/-- How many data words the header calls for (R64). -/
def Descriptor.calledFor (d : Descriptor) : Nat := dataWords (kindOf (headerFc d.header)) (headerQty d.header)

/-- The descriptor has as many data words as its header calls for, none for an unsupported code (R93). -/
abbrev Descriptor.WellFormed (d : Descriptor) : Prop := d.words.length = d.calledFor

/-- What the request port makes of a descriptor: the decoded request of a well-formed one, a refusal by name of an
ill-formed one, whatever its function code (R93; log 27). -/
def portDecode (d : Descriptor) : Except DecodeError Instr :=
  if d.WellFormed then decode d else .error (.wrongWordCount d.calledFor d.words.length)

/-- The descriptor of a request (R60, R63, R72). -/
def encode (i : Instr) : Descriptor :=
  match i with
  | .readHolding addr qty => { header := mkHeader 0x03 addr qty, words := [] }
  | .readInput addr qty => { header := mkHeader 0x04 addr qty, words := [] }
  | .writeHolding addr qty value => { header := mkHeader 0x06 addr qty, words := [value] }
  | .writeMultipleHolding addr qty values => { header := mkHeader 0x10 addr qty, words := values }
  | .unsupported fc addr qty => { header := mkHeader fc addr qty, words := [] }

/-- `n` words read from a number, the first from its 16 least significant bits. -/
def wordsOfBits : Nat → Nat → List Word
  | _, 0 => []
  | bits, n + 1 => BitVec.ofNat 16 bits :: wordsOfBits (bits / 65536) n

/-- The descriptor whose bits are `w`, numbered as the opcode table numbers them: the header is bits 39:0 and the data
words its kind calls for follow from bit 40 on. Bits at and above `nbits` are zero. -/
def descriptorOfBits (nbits w : Nat) : Descriptor :=
  let bits := w % 2 ^ nbits
  let header := BitVec.ofNat 40 bits
  { header := header
    words := wordsOfBits (bits / 2 ^ 40) (dataWords (kindOf (headerFc header)) (headerQty header)) }

/-- The instruction the decoder reads from the bits `w`. -/
def decodeTableWord (nbits w : Nat) : Option Instr :=
  (decode (descriptorOfBits nbits w)).toOption

/-- The packed 50-bit form of a range descriptor (R21): `base` 15:0, `count` 31:16, `default` 47:32, `has_rd` 48,
`has_wr` 49. -/
def packRange (r : Range) : BitVec 50 :=
  (((BitVec.ofBool r.hasWr ++ BitVec.ofBool r.hasRd) ++ r.default) ++ r.count) ++ r.base

/-- The descriptor a packed 50-bit form stands for (R21). -/
def unpackRange (v : BitVec 50) : Range where
  base := v.extractLsb' 0 16
  count := v.extractLsb' 16 16
  default := v.extractLsb' 32 16
  hasRd := v.getLsbD 48
  hasWr := v.getLsbD 49

end Sys2Proof
end

