-- ==== Sys2Proof/Machine/Construct.lean ====
section
/-! DEFINITION. Construction (spec/70_reset_and_hazards.md R171 to R173): from the configuration surface to range
descriptors, and the checks that decide whether the engine starts. All arithmetic is on unbounded integers (R16). -/

namespace Sys2Proof

/-- The ordered range list of a space (R23). -/
def Configuration.ranges (cfg : Configuration) : Space → List Range
  | .holding => cfg.holding
  | .input => cfg.input

/-- The end of the interval `[base, base + count)`, an integer (R21, R50). -/
abbrev Range.limit (r : Range) : Nat := r.base.toNat + r.count.toNat

/-- The address `a` lies in the range's interval (R46). -/
def Range.covers (r : Range) (a : Nat) : Bool := decide (r.base.toNat ≤ a) && decide (a < r.limit)

/-- The intervals `[lo, hi)` and that of the range have an address in common. -/
def Range.meets (r : Range) (lo hi : Nat) : Bool := decide (max lo r.base.toNat < min hi r.limit)

namespace Machine

/-- A descriptor from its declaration: an absent `default` is 0 and an absent `number` is 1 (R9). -/
def rangeOfDecl (d : RangeDecl) : Range where
  base := d.startAddress
  count := d.number.getD 1
  default := d.default.getD 0
  hasRd := d.onRead
  hasWr := d.onWrite

/-- The configuration a list of declarations for each space, in registration order, and a station address give; the
parameters have the spec's default values (R9 to R12, R14). -/
def configure (holding input : List RangeDecl) (station : Word) : Configuration where
  holding := holding.map rangeOfDecl
  input := input.map rangeOfDecl
  station := station

/-- The descriptor check (R172). The address ceiling is 65536 (spec/90_conflicts.md C4). -/
def rangeCheck (r : Range) : Option ConfigError :=
  if r.count = 0 then some .zeroCount
  else if r.limit > spaceSize then some .addressOverflow
  else none

/-- The registration check `register_range` against the ranges registered earlier in the same space (R173). -/
def registerCheck (earlier : List Range) (r : Range) : Option ConfigError :=
  if earlier.any (fun q => q.meets r.base.toNat r.limit) then some .overlappingRange else none

/-- The checks of one space, descriptor by descriptor in registration order; `earlier` are the ranges registered so
far. The first failing check is the answer (R171). -/
def spaceError : List Range → List Range → Option ConfigError
  | _, [] => none
  | earlier, r :: rs =>
    match rangeCheck r with
    | some e => some e
    | none =>
      match registerCheck earlier r with
      | some e => some e
      | none => spaceError (earlier ++ [r]) rs

/-- The construction's verdict: the holding space first, then the input space; the first failing check (R171, R173). -/
def constructionError (cfg : Configuration) : Option ConfigError :=
  match spaceError [] cfg.holding with
  | some e => some e
  | none => spaceError [] cfg.input

end Machine
end Sys2Proof
end

