-- ==== Sys2Proof/Machine/State.lean ====
section
/-! DEFINITION. The engine's state (spec/10_state.md), the reasons a step can stop, and the state after reset. -/

namespace Sys2Proof.Machine

/-- The cells of one space, sparse: pairs of a register address and a 16-bit word, addresses strictly rising, no entry
equal to what its address reads as when it is not listed (the covering range's default, R26). The smallest addressable
unit is the 16-bit register (R40), so an entry is a word, not a byte (log 7). -/
abbrev Memory := List (Nat × Word)

/-- `d.stage` (R31). -/
inductive Stage where
  | validate
  | access (i : Nat)
  | hookWait (i : Nat)
  | commit
deriving DecidableEq, Repr

/-- The dispatch record `d` of the request in flight (R31). `tgt` is `none` until validation sets it. -/
structure Dispatch where
  fc : Byte
  addr : Word
  qty : Word
  vals : List Word
  stage : Stage
  tgt : Option (Space × Nat)
  acc : List Word
deriving DecidableEq, Repr

/-- The exception kinds (R151). -/
inductive ExceptionKind where
  | illegalFunction
  | illegalDataAddress
  | illegalDataValue
  | serverDeviceFailure
deriving DecidableEq, Repr

/-- The reply register `r` (R32). `readOk` carries the request's function code, which R66 makes a field of its
descriptor. DEDUCED (log 9). -/
inductive Reply where
  | readOk (fc : Byte) (vals : List Word)
  | writeSingleOk (addr value : Word)
  | writeMultipleOk (addr qty : Word)
  | exception (fc : Byte) (code : ExceptionKind)
deriving DecidableEq, Repr

/-- The phase register (R30). -/
inductive Phase where
  | halted (e : ConfigError)
  | idle
  | dispatching (d : Dispatch)
  | replying (r : Reply)
deriving DecidableEq, Repr

/-- A hook unit's answer to a call: `Ok(v)` with any `v`, or `Fail` (R91). A unit that never answers is an agenda in
which no answer stands. -/
inductive HookAnswer where
  | ok (v : Word)
  | fail
deriving DecidableEq, Repr

/-- When a reset comes, since it may come in any phase (R170): before the engine's next step, or once the engine waits
for another agent (log 3). -/
inductive Moment where
  | atOnce
  | atWait
deriving DecidableEq, Repr

/-- A move of an agent other than the engine (R17, R183): the host's T1 and T7, a hook unit's answer (T5) to a call
made after `restarts` restarts, and reset (R170). -/
inductive Event where
  | submit (d : Descriptor)
  | answer (restarts : Nat) (a : HookAnswer)
  | take
  | reset (moment : Moment)
deriving DecidableEq, Repr

/-- Read hook or write hook (R70). -/
inductive HookKind where
  | read
  | write
deriving DecidableEq, Repr

/-- A call on the hook port (R70): the unit's routing `(space, range, kind)`, the absolute address and the value. -/
structure HookCall where
  space : Space
  range : Nat
  kind : HookKind
  addr : Word
  value : Word
deriving DecidableEq, Repr

/-- Why the machine stops. Each is raised by the engine's step on a state no run reaches, and each is safe: the spec
gives no behaviour there, and R47 asks for a fault for the first of them. -/
inductive Fault where
  /-- Raised by the access and commit steps on a cell offset outside its range (R47, U1). Safe. -/
  | cellOutOfRange
  /-- Raised by the access and commit steps on a record whose target validation did not set, or set to a range or
  space the request kind cannot have (R94). Safe. -/
  | noTarget
  /-- Raised by the engine's turn on a record whose data words are not those its header calls for (R93). Safe. -/
  | missingWord
  /-- Raised by the engine's step on a stage past the span, on an access or commit stage of an unsupported kind, and
  on an answer outside `HookWait` (R90). Safe. -/
  | stageOverrun
deriving DecidableEq, Repr

/-- Why the machine gives no meaning. -/
inductive Refusal where
  /-- Answered by an arm of `exec` whose instruction has no meaning yet. Safe. -/
  | notModelled (mnemonic : String)
  /-- Answered by the request port to a descriptor whose word count disagrees with its header, which "a model refuses
  at the port rather than giving it a meaning" (R93, U14). Safe. -/
  | illFormedRequest (why : DecodeError)
deriving DecidableEq, Repr

/-- Everything the spec gives the machine: the configuration constants (R20 to R23; held here because a step has no
other parameter, log 1), the two register files (R24, R29) and the phase with what it latches (R30 to R32). `agenda`
and `restarts` are the model's own fields: the moves of the host, the hook units and reset that are still to come
(log 3), and how often reset has come, which tells a late answer to an abandoned call from one to the call outstanding
(log 25). -/
structure State where
  cfg : Configuration
  holding : Memory
  input : Memory
  phase : Phase
  agenda : List Event
  restarts : Nat
deriving DecidableEq, Repr

/-- The phase construction ends in (R171, R175). -/
def initialPhase (cfg : Configuration) : Phase :=
  match constructionError cfg with
  | some e => .halted e
  | none => .idle

/-- The state after construction from a configuration (R36, R171 to R175): nothing listed in either file, so every
cell reads as its range's default. -/
def State.construct (cfg : Configuration) (agenda : List Event) : State where
  cfg := cfg
  holding := []
  input := []
  phase := initialPhase cfg
  agenda := agenda
  restarts := 0

/-- The machine right after reset (R36). DESIGN CHOICE: the configuration is CFG-A (log 2), the agenda is empty
(log 3), no restart has been counted (log 25). -/
def State.reset : State := State.construct Config.configuration []

end Sys2Proof.Machine
end

