-- ==== Sys2Proof/Machine/Ops.lean ====
section
/-! DEFINITION. The named operations over state: field updates, the address decoder (spec/20_memory.md R46 to R50), the
cells (R24 to R29, R47), taking an exception and returning from one (spec/60_exceptions.md R150 to R156), and restart
(spec/70_reset_and_hazards.md R170). -/

namespace Sys2Proof.Machine

/-- The outcome of an engine operation on this state. -/
abbrev Result := Host.Outcome State Fault Refusal

/-- `s` with another phase. -/
def State.setPhase (s : State) (p : Phase) : State := { s with phase := p }

/-- `s` with other holding cells. -/
def State.setHolding (s : State) (m : Memory) : State := { s with holding := m }

/-- `s` with another agenda. -/
def State.setAgenda (s : State) (es : List Event) : State := { s with agenda := es }

/-- The file of cells of a space (R29). -/
def State.file (s : State) : Space → Memory
  | .holding => s.holding
  | .input => s.input

/-- `AddressError` (R49). Its kind is not observable on the reply port. -/
inductive AddressError where
  | unmapped
  | spanCrossesBoundary
deriving DecidableEq, Repr

/-- `resolve(s, a)` over a space's ranges (R46): the covering range's registration index and the offset in it. -/
def resolve : List Range → Nat → Option (Nat × Nat)
  | [], _ => none
  | r :: rs, a =>
    if r.covers a then some (0, a - r.base.toNat)
    else (resolve rs a).map (fun ko => (ko.1 + 1, ko.2))

/-- Some address of `[a, min(a + q, 65536))` is mapped (R48): the interval meets a range's. -/
def spanTouches (rs : List Range) (a q : Nat) : Bool :=
  rs.any (fun r => r.meets a (min (a + q) spaceSize))

/-- `resolve_span(s, a, q)` (R48, R49). -/
def resolveSpan (rs : List Range) (a q : Nat) : Except AddressError (Nat × Nat) :=
  match resolve rs a with
  | some (k, o) =>
    match rs[k]? with
    | some r => if a + q ≤ r.limit then .ok (k, o) else .error .spanCrossesBoundary
    | none => .error .unmapped
  | none => if spanTouches rs a q then .error .spanCrossesBoundary else .error .unmapped

/-- What an unlisted address reads as: the default of the range that covers it, or nothing where it is unmapped
(R26, R41). -/
def unlisted (rs : List Range) (a : Nat) : Option Word :=
  match resolve rs a with
  | some (k, _) => (rs[k]?).map Range.default
  | none => none

/-- The listed value at an address. -/
def Memory.lookup : Memory → Nat → Option Word
  | [], _ => none
  | (b, v) :: m, a => if a = b then some v else Memory.lookup m a

/-- The list without its entry at an address. -/
def Memory.remove : Memory → Nat → Memory
  | [], _ => []
  | (b, v) :: m, a => if a = b then m else (b, v) :: Memory.remove m a

/-- The list with an entry at an address, in address order. -/
def Memory.insert : Memory → Nat → Word → Memory
  | [], a, v => [(a, v)]
  | (b, w) :: m, a, v =>
    if a < b then (a, v) :: (b, w) :: m
    else if a = b then (a, v) :: m
    else (b, w) :: Memory.insert m a v

/-- The cell at an address: its listed value, else its range's default; nothing where the address is unmapped
(R26, R41). -/
def Memory.read (rs : List Range) (m : Memory) (a : Nat) : Option Word :=
  (unlisted rs a).map (fun dflt => (Memory.lookup m a).getD dflt)

/-- Store one word at an address, keeping the canonical form: writing what the address reads as when it is unlisted
removes its entry. -/
def Memory.write (rs : List Range) (m : Memory) (a : Nat) (v : Word) : Memory :=
  if unlisted rs a = some v then Memory.remove m a else Memory.insert m a v

/-- The addresses of a list are strictly rising, each above `lo`. -/
def Memory.rising : Nat → Memory → Bool
  | _, [] => true
  | lo, (a, _) :: m => decide (lo ≤ a) && Memory.rising (a + 1) m

/-- The canonical form: addresses strictly rising, every one mapped, no entry equal to its range's default. -/
def Memory.wf (rs : List Range) (m : Memory) : Bool :=
  Memory.rising 0 m &&
    m.all (fun e => (unlisted rs e.1).isSome && !decide (unlisted rs e.1 = some e.2))

/-- `cells[s][k][o]` (R16, R24): nothing where there is no range `k` or the offset is outside it (R47). -/
def readCell (s : State) (sp : Space) (k o : Nat) : Option Word :=
  match (s.cfg.ranges sp)[k]? with
  | none => none
  | some r =>
    if o < r.count.toNat then Memory.read (s.cfg.ranges sp) (s.file sp) (r.base.toNat + o) else none

/-- `cells[H][k][o] <- v` (R16): nothing where there is no range `k` or the offset is outside it (R47). No request
writes space `I` (R42, R138), so the store is to the holding file alone. -/
def writeCell (s : State) (k o : Nat) (v : Word) : Option State :=
  match s.cfg.holding[k]? with
  | none => none
  | some r =>
    if o < r.count.toNat then
      some (s.setHolding (Memory.write s.cfg.holding s.holding (r.base.toNat + o) v))
    else none

/-- Store a list of words in consecutive holding cells from offset `o` on, ascending (R135). -/
def writeCells (s : State) (k o : Nat) : List Word → Option State
  | [] => some s
  | v :: vs =>
    match writeCell s k o v with
    | none => none
    | some s' => writeCells s' k (o + 1) vs

/-- Taking an exception, `raise Exc(c)` (R150, R155): the request ends with the exception reply, which carries its
function code unchanged (R67, R152); nothing is saved, no cell is written, no hook is called. -/
def raiseException (fc : Byte) (c : ExceptionKind) (s : State) : State :=
  s.setPhase (.replying (.exception fc c))

/-- Returning from a reply or an exception (T7; R99, R156): the host takes it and the engine is `Idle`. -/
def takeReply (s : State) : State := s.setPhase .idle

/-- Reset (R170): the request in flight, the pending reply and the outstanding hook call are abandoned and the engine
is constructed anew from the same configuration (R36); what the other agents still have to do stays theirs. An answer to
a call made before is late from now on. -/
def restart (s : State) : State := { State.construct s.cfg s.agenda with restarts := s.restarts + 1 }

/-- The target of the request in flight with its descriptor and the offset of the span's start, `o = addr - base`, an
integer: nothing where validation set no target or the start is below the range (R110, R130). -/
def target (s : State) (d : Dispatch) : Option (Space × Nat × Range × Nat) :=
  match d.tgt with
  | none => none
  | some (sp, k) =>
    match (s.cfg.ranges sp)[k]? with
    | none => none
    | some r => if r.base ≤ d.addr then some (sp, k, r, d.addr.toNat - r.base.toNat) else none

end Sys2Proof.Machine
end

