-- ==== Sys2Proof/Machine/Operands.lean ====
section
/-! DEFINITION. The operand forms of a request and their validation (spec/40_dispatch.md R94): the space a kind
addresses, the quantities it takes, and the span `[addr, addr + qty)`. -/

namespace Sys2Proof.Machine

/-- The space a request kind reaches (R42); an unsupported code reaches none. -/
def kindSpace (k : Kind) : Option Space :=
  match k with
  | .readHolding => some .holding
  | .readInput => some .input
  | .writeHolding => some .holding
  | .writeMultipleHolding => some .holding
  | .unsupported => none

/-- The quantities a request kind takes (R53, R94). -/
def quantityLegal (cfg : Configuration) (k : Kind) (q : Nat) : Bool :=
  match k with
  | .readHolding => decide (1 ≤ q ∧ q ≤ cfg.qmaxRead)
  | .readInput => decide (1 ≤ q ∧ q ≤ cfg.qmaxRead)
  | .writeHolding => decide (q = 1)
  | .writeMultipleHolding => decide (1 ≤ q ∧ q ≤ cfg.qmaxWrite)
  | .unsupported => true

/-- Validation (T2, R94): function code, then quantity, then address; the first check that fails decides (R154). It
reads no cell and calls no hook. -/
def validate (cfg : Configuration) (d : Dispatch) : Except ExceptionKind (Space × Nat) :=
  match kindSpace (kindOf d.fc) with
  | none => .error .illegalFunction
  | some sp =>
    if quantityLegal cfg (kindOf d.fc) d.qty.toNat then
      match resolveSpan (cfg.ranges sp) d.addr.toNat d.qty.toNat with
      | .error _ => .error .illegalDataAddress
      | .ok (k, _) => .ok (sp, k)
    else .error .illegalDataValue

/-- The hook a request kind calls (R92): a read its range's read hook, a write its range's write hook. -/
def kindHook (k : Kind) : Option HookKind :=
  match k with
  | .readHolding => some .read
  | .readInput => some .read
  | .writeHolding => some .write
  | .writeMultipleHolding => some .write
  | .unsupported => none

/-- The range has a hook of that kind (R21). -/
def rangeHasHook (r : Range) (h : HookKind) : Bool :=
  match h with
  | .read => r.hasRd
  | .write => r.hasWr

/-- The address `d.addr + i` of the span's element `i` (R92), as the port's 16 bits. -/
def spanAddr (d : Dispatch) (i : Nat) : Word := BitVec.ofNat 16 (d.addr.toNat + i)

end Sys2Proof.Machine
end

