-- ==== Sys2Proof/Machine/Flags.lean ====
section
/-! DEFINITION. The engine has no flags or condition codes (spec/10_state.md R34). What an agent sees of its status is
on its three ports, and each signal is a function of the state: the request port's ready (spec/30_encoding.md R68), the
reply port's descriptor `RSP` (R66, R69) and the hook port's call (R70). The exception codes (spec/60_exceptions.md
R151) stand here too. -/

namespace Sys2Proof.Machine

/-- The request port is ready exactly when the phase is `Idle` (R68, R93). -/
def requestReady (s : State) : Bool :=
  match s.phase with
  | .halted _ => false
  | .idle => true
  | .dispatching _ => false
  | .replying _ => false

/-- The reply the engine offers, exactly when the phase is `Replying` (R69). -/
def replyOffered (s : State) : Option Reply :=
  match s.phase with
  | .halted _ => none
  | .idle => none
  | .dispatching _ => none
  | .replying r => some r

/-- The numeric exception code (R151). PRESUMED (log 10): the numbers are the Modbus standard's. -/
def exceptionCode (c : ExceptionKind) : Byte :=
  match c with
  | .illegalFunction => 0x01
  | .illegalDataAddress => 0x02
  | .illegalDataValue => 0x03
  | .serverDeviceFailure => 0x04

/-- The exception kind of a numeric code; the engine raises no other (R151). -/
def exceptionOfCode (b : Byte) : Option ExceptionKind :=
  if b = 0x01 then some .illegalFunction
  else if b = 0x02 then some .illegalDataAddress
  else if b = 0x03 then some .illegalDataValue
  else if b = 0x04 then some .serverDeviceFailure
  else none

/-- Reply descriptor format `RSP` (R66, R69): the tag, the function code, the field `a` (`cnt`, `addr` or `code` by
kind), the field `b` (`value` or `qty`; absent for the kinds that have none) and the data words. -/
structure Rsp where
  kind : BitVec 2
  fc : Byte
  a : Word
  b : Option Word
  data : List Word
deriving DecidableEq, Repr

/-- The descriptor of a reply (R66). -/
def encodeReply (r : Reply) : Rsp :=
  match r with
  | .readOk fc vals => { kind := 0, fc := fc, a := BitVec.ofNat 16 vals.length, b := none, data := vals }
  | .writeSingleOk addr value => { kind := 1, fc := 0x06, a := addr, b := some value, data := [] }
  | .writeMultipleOk addr qty => { kind := 2, fc := 0x10, a := addr, b := some qty, data := [] }
  | .exception fc code =>
    { kind := 3, fc := fc, a := (exceptionCode code).setWidth 16, b := none, data := [] }

/-- The reply a descriptor stands for; nothing where the fields are not those of its kind (R66). -/
def decodeReply (p : Rsp) : Option Reply :=
  if p.kind = 0 then
    if p.b = none ∧ p.a = BitVec.ofNat 16 p.data.length then some (.readOk p.fc p.data) else none
  else if p.kind = 1 then
    match p.b with
    | some value => if p.fc = 0x06 ∧ p.data = [] then some (.writeSingleOk p.a value) else none
    | none => none
  else if p.kind = 2 then
    match p.b with
    | some qty => if p.fc = 0x10 ∧ p.data = [] then some (.writeMultipleOk p.a qty) else none
    | none => none
  else if p.b = none ∧ p.data = [] ∧ p.a.toNat < 256 then
    (exceptionOfCode (p.a.setWidth 8)).map (fun c => .exception p.fc c)
  else none

/-- The value a hook call carries (R70): the raw cell for a read hook (R113), the incoming value for a write hook
(R133). -/
def hookValue (s : State) (d : Dispatch) (h : HookKind) (sp : Space) (k o i : Nat) : Option Word :=
  match h with
  | .read => readCell s sp k (o + i)
  | .write => d.vals[i]?

/-- The call outstanding on the hook port: there is one exactly in stage `HookWait(i)` of a request in flight (R92),
for the address `d.addr + i`, to the unit of the target range and of the request's kind (R113, R133). -/
def State.hookCall (s : State) : Option HookCall :=
  match s.phase with
  | .halted _ => none
  | .idle => none
  | .replying _ => none
  | .dispatching d =>
    match d.stage with
    | .validate => none
    | .access _ => none
    | .commit => none
    | .hookWait i =>
      match kindHook (kindOf d.fc), target s d with
      | some h, some (sp, k, _, o) =>
        (hookValue s d h sp k o i).map
          (fun v => { space := sp, range := k, kind := h, addr := spanAddr d i, value := v })
      | _, _ => none

end Sys2Proof.Machine
end

