-- ==== Sys2Proof/Machine/ReadPath.lean ====
section
/-! DEFINITION. The steps of the read path (spec/41_read.md R113 to R117), shared by both read kinds. No step here
writes a cell (R27, R117). -/

namespace Sys2Proof.Machine

/-- Access step of a read (T3, R114), `i < d.qty`: the raw cell joins the gathered values, or the range's read hook is
called with the absolute address and the raw value (R113; the call is `State.hookCall` of the state reached). -/
def accessRead (s : State) (d : Dispatch) (i : Nat) : Result :=
  match target s d with
  | none => .fault .noTarget
  | some (sp, k, r, o) =>
    match readCell s sp k (o + i) with
    | none => .fault .cellOutOfRange
    | some raw =>
      if r.hasRd then .next (s.setPhase (.dispatching { d with stage := .hookWait i }))
      else .next (s.setPhase (.dispatching { d with acc := d.acc ++ [raw], stage := .access (i + 1) }))

/-- Answer `Ok(v)` of a read hook (T5, R115): `v` is the value reported for the address; the cell keeps its raw value
(R117). -/
def answerRead (s : State) (d : Dispatch) (i : Nat) (v : Word) : Result :=
  .next (s.setPhase (.dispatching { d with acc := d.acc ++ [v], stage := .access (i + 1) }))

/-- Commit step of a read (T6, R116). -/
def commitRead (s : State) (d : Dispatch) : Result :=
  .next (s.setPhase (.replying (.readOk d.fc d.acc)))

end Sys2Proof.Machine
end

