-- ==== Sys2Proof/Machine/WritePath.lean ====
section
/-! DEFINITION. The steps of the write path (spec/42_write.md R133 to R139), shared by both write kinds. -/

namespace Sys2Proof.Machine

/-- The target of a write: validation gives it space `H` (R130, R133). -/
def writeTarget (s : State) (d : Dispatch) : Option (Nat × Range × Nat) :=
  match target s d with
  | some (.holding, k, r, o) => some (k, r, o)
  | some (.input, _, _, _) => none
  | none => none

/-- A value for element `i` of the span is settled (R133, R134): it joins the values to store and, under PREFIX, is
stored in its cell at once (R136). -/
def settleValue (s : State) (d : Dispatch) (k o i : Nat) (v : Word) : Result :=
  match s.cfg.failPolicy with
  | .atomic => .next (s.setPhase (.dispatching { d with acc := d.acc ++ [v], stage := .access (i + 1) }))
  | .prefixed =>
    match writeCell s k (o + i) v with
    | none => .fault .cellOutOfRange
    | some s' => .next (s'.setPhase (.dispatching { d with acc := d.acc ++ [v], stage := .access (i + 1) }))

/-- Access step of a write (T3, R133), `i < d.qty`: the incoming value is settled, or the range's write hook is called
with the absolute address and the incoming value, never the cell's (R140). -/
def accessWrite (s : State) (d : Dispatch) (i : Nat) : Result :=
  match writeTarget s d with
  | none => .fault .noTarget
  | some (k, r, o) =>
    match d.vals[i]? with
    | none => .fault .missingWord
    | some v =>
      if r.hasWr then .next (s.setPhase (.dispatching { d with stage := .hookWait i }))
      else settleValue s d k o i v

/-- Answer `Ok(v)` of a write hook (T5, R134): `v` is the value to store, as it stands (R140). -/
def answerWrite (s : State) (d : Dispatch) (i : Nat) (v : Word) : Result :=
  match writeTarget s d with
  | none => .fault .noTarget
  | some (k, _, o) => settleValue s d k o i v

/-- The echo reply of a write (R139): the request's own fields, whatever a hook stored. -/
def echoReply (d : Dispatch) : Option Reply :=
  match kindOf d.fc with
  | .writeHolding => (d.vals.head?).map (fun v => .writeSingleOk d.addr v)
  | .writeMultipleHolding => some (.writeMultipleOk d.addr d.qty)
  | .readHolding => none
  | .readInput => none
  | .unsupported => none

/-- The cells a commit leaves (R135): under ATOMIC the gathered values are stored in order; under PREFIX they already
are (R136). -/
def commitCells (s : State) (d : Dispatch) (k o : Nat) : Option State :=
  match s.cfg.failPolicy with
  | .atomic => writeCells s k o d.acc
  | .prefixed => some s

/-- Commit step of a write (T6, R135). -/
def commitWrite (s : State) (d : Dispatch) : Result :=
  match writeTarget s d with
  | none => .fault .noTarget
  | some (k, _, o) =>
    match echoReply d with
    | none => .fault .missingWord
    | some r =>
      match commitCells s d k o with
      | none => .fault .cellOutOfRange
      | some s' => .next (s'.setPhase (.replying r))

end Sys2Proof.Machine
end

