-- ==== Sys2Proof/Machine/Engine.lean ====
section
/-! DEFINITION. The request state machine (spec/40_dispatch.md R90): accepting a request (T1), the engine's own steps
(T2, T3, T4, T6) one at a time, their merging up to the next wait (R101), and the hook unit's answer (T5). Only engine
steps are merged: T1, T5 and T7 are steps of their own. -/

namespace Sys2Proof.Machine

/-- Validation as a step (T2, R94). -/
def validateStep (s : State) (d : Dispatch) : Result :=
  match validate s.cfg d with
  | .error c => .next (raiseException d.fc c s)
  | .ok (sp, k) => .next (s.setPhase (.dispatching { d with tgt := some (sp, k), stage := .access 0 }))

/-- The access step of a request kind (T3). -/
def accessStep (s : State) (d : Dispatch) (i : Nat) : Result :=
  match kindOf d.fc with
  | .readHolding => accessRead s d i
  | .readInput => accessRead s d i
  | .writeHolding => accessWrite s d i
  | .writeMultipleHolding => accessWrite s d i
  | .unsupported => .fault .stageOverrun

/-- The commit step of a request kind (T6). -/
def commitStep (s : State) (d : Dispatch) : Result :=
  match kindOf d.fc with
  | .readHolding => commitRead s d
  | .readInput => commitRead s d
  | .writeHolding => commitWrite s d
  | .writeMultipleHolding => commitWrite s d
  | .unsupported => .fault .stageOverrun

/-- One step of the engine on the request in flight (R90): T2 in `Validate`, T3 in `Access(i)` with `i < d.qty`, T4 in
`Access(d.qty)` (R96), T6 in `Commit`. In `HookWait` the engine has no step of its own. A stage past the span is in
no transition of R90 and faults. -/
def engineStep (s : State) (d : Dispatch) : Result :=
  match d.stage with
  | .validate => validateStep s d
  | .access i =>
    if i < d.qty.toNat then accessStep s d i
    else if i = d.qty.toNat then .next (s.setPhase (.dispatching { d with stage := .commit }))
    else .fault .stageOverrun
  | .hookWait _ => .next s
  | .commit => commitStep s d

/-- The request in flight, in a stage where the engine itself moves. -/
def engineTurn (p : Phase) : Option Dispatch :=
  match p with
  | .halted _ => none
  | .idle => none
  | .replying _ => none
  | .dispatching d =>
    match d.stage with
    | .validate => some d
    | .access _ => some d
    | .commit => some d
    | .hookWait _ => none

/-- The engine's steps one after the other until it waits for another agent (R101). `fuel` bounds their number. -/
def settle (fuel : Nat) (s : State) : Result :=
  match fuel with
  | 0 => .next s
  | n + 1 =>
    match engineTurn s.phase with
    | none => .next s
    | some d =>
      match engineStep s d with
      | .next s' => settle n s'
      | .fault f => .fault f
      | .refused r => .refused r

/-- As many engine steps as a request of this quantity can take: T2, one T3 for each address, T4 and T6 (R96). -/
def settleFuel (qty : Word) : Nat := qty.toNat + 3

/-- The engine's steps from a state with a request in flight, up to the next wait. -/
def runEngine (s : State) : Result :=
  match s.phase with
  | .halted _ => .next s
  | .idle => .next s
  | .replying _ => .next s
  | .dispatching d => settle (settleFuel d.qty) s

/-- The dispatch record of an accepted request (T1, R93). -/
def newDispatch (fc : Byte) (addr qty : Word) (vals : List Word) : Dispatch where
  fc := fc
  addr := addr
  qty := qty
  vals := vals
  stage := .validate
  tgt := none
  acc := []

/-- The dispatch record of a request, from the fields of its descriptor (R93). -/
def dispatchOf (i : Instr) : Dispatch :=
  newDispatch (headerFc (encode i).header) (headerAddr (encode i).header) (headerQty (encode i).header) (encode i).words

/-- The host's request is accepted (T1, R93). -/
def acceptRequest (i : Instr) (s : State) : State := s.setPhase (.dispatching (dispatchOf i))

/-- Serving an accepted request, which is in stage `Validate`, up to its reply or its first hook call: the engine's
steps T2, T3, T4 and T6 (R101). In any other phase no request waits to be served, and nothing happens (log 23). -/
def serve (fc : Byte) (addr qty : Word) (vals : List Word) (s : State) : Result :=
  match s.phase with
  | .halted _ => .next s
  | .idle => .next s
  | .replying _ => .next s
  | .dispatching d =>
    match d.stage with
    | .validate => runEngine (s.setPhase (.dispatching (newDispatch fc addr qty vals)))
    | .access _ => .next s
    | .hookWait _ => .next s
    | .commit => .next s

/-- What an answer `Ok(v)` does to the request in flight, by its kind (T5, R115, R134). -/
def acceptAnswer (s : State) (d : Dispatch) (i : Nat) (v : Word) : Result :=
  match kindOf d.fc with
  | .readHolding => answerRead s d i v
  | .readInput => answerRead s d i v
  | .writeHolding => answerWrite s d i v
  | .writeMultipleHolding => answerWrite s d i v
  | .unsupported => .fault .stageOverrun

/-- The called hook unit answers (T5): `Fail` ends the request with ServerDeviceFailure and calls no further hook
(R97, R137); after `Ok` the engine is to go on with the next address. -/
def answerHook (a : HookAnswer) (s : State) : Result :=
  match s.phase with
  | .halted _ => .fault .stageOverrun
  | .idle => .fault .stageOverrun
  | .replying _ => .fault .stageOverrun
  | .dispatching d =>
    match d.stage with
    | .validate => .fault .stageOverrun
    | .access _ => .fault .stageOverrun
    | .commit => .fault .stageOverrun
    | .hookWait i =>
      match a with
      | .fail => .next (raiseException d.fc .serverDeviceFailure s)
      | .ok v => acceptAnswer s d i v

end Sys2Proof.Machine
end

