-- ==== Sys2Proof/Machine/Agents.lean ====
section
/-! DEFINITION. Which agent moves next (spec/40_dispatch.md R90, spec/70_reset_and_hazards.md R170, R183). The agenda
holds the moves the host, the hook units and reset still make; the first one the present phase enables happens next, so
an agent that must wait does not hold up another (log 3). -/

namespace Sys2Proof.Machine

/-- A call is outstanding: the stage is `HookWait` (R92). -/
def callOutstanding (p : Phase) : Bool :=
  match p with
  | .halted _ => false
  | .idle => false
  | .replying _ => false
  | .dispatching d =>
    match d.stage with
    | .validate => false
    | .access _ => false
    | .commit => false
    | .hookWait _ => true

/-- The event can happen while the engine waits. A request is accepted in `Idle` alone (R93), a reply is taken in
`Replying` alone (R99), reset happens in any phase (R170). An answer to a call of this construction ends a `HookWait`
(T5); one to a call that a reset has abandoned can come at any time and is discarded (R170). In `Halted` no agent moves
but reset (R30). -/
def eventEnabled (s : State) (e : Event) : Bool :=
  match e, s.phase with
  | .reset _, _ => true
  | .submit _, .idle => true
  | .submit _, .halted _ => false
  | .submit _, .dispatching _ => false
  | .submit _, .replying _ => false
  | .take, .replying _ => true
  | .take, .halted _ => false
  | .take, .idle => false
  | .take, .dispatching _ => false
  | .answer _ _, .halted _ => false
  | .answer n _, p => decide (n < s.restarts) || (decide (n = s.restarts) && callOutstanding p)

/-- The first event of an agenda that is enabled, with the rest of the agenda in its order. -/
def nextEvent (s : State) : List Event → Option (Event × List Event)
  | [] => none
  | e :: es =>
    if eventEnabled s e then some (e, es)
    else (nextEvent s es).map (fun x => (x.1, e :: x.2))

/-- The transition that happens next: one of R90's, reset, or none. -/
inductive Turn where
  /-- No agent moves: the engine waits, for ever if nothing comes (R98, R157, R177). -/
  | wait
  /-- The engine's own steps (T2, T3, T4, T6). -/
  | engine
  /-- T1: the host's request is transferred. -/
  | accept (d : Descriptor) (rest : List Event)
  /-- T5: the called hook unit answers. -/
  | answer (a : HookAnswer) (rest : List Event)
  /-- T7: the host takes the reply. -/
  | take (rest : List Event)
  /-- Reset (R170). -/
  | restart (rest : List Event)
  /-- A late answer to an abandoned call is discarded (R170). -/
  | discard (rest : List Event)
deriving DecidableEq, Repr

/-- The turn an enabled event is. -/
def eventTurn (s : State) (e : Event) (rest : List Event) : Turn :=
  match e with
  | .submit d => .accept d rest
  | .take => .take rest
  | .reset _ => .restart rest
  | .answer n a => if n = s.restarts then .answer a rest else .discard rest

/-- The rest of an agenda on which a reset before the engine's next step stands first. -/
def resetAtOnce : List Event → Option (List Event)
  | [] => none
  | .submit _ :: _ => none
  | .answer _ _ :: _ => none
  | .take :: _ => none
  | .reset .atWait :: _ => none
  | .reset .atOnce :: rest => some rest

/-- Whose turn it is. In a stage where the engine itself moves it does, unless a reset comes before (R170, R182). -/
def turnOf (s : State) : Turn :=
  match engineTurn s.phase with
  | some _ =>
    match resetAtOnce s.agenda with
    | some rest => .restart rest
    | none => .engine
  | none =>
    match nextEvent s s.agenda with
    | none => .wait
    | some (e, rest) => eventTurn s e rest

/-- An agenda without the resets that stand first on it. -/
def dropResets : List Event → List Event
  | [] => []
  | .reset _ :: es => dropResets es
  | .submit d :: es => .submit d :: es
  | .answer n a :: es => .answer n a :: es
  | .take :: es => .take :: es

/-- The state in which `i` is the request just accepted and the engine moves next. A halted engine accepts none (R30). -/
def loadRequest (i : Instr) (s : State) : State :=
  match s.phase with
  | .halted _ => s
  | .idle => acceptRequest i (s.setAgenda (dropResets s.agenda))
  | .dispatching _ => acceptRequest i (s.setAgenda (dropResets s.agenda))
  | .replying _ => acceptRequest i (s.setAgenda (dropResets s.agenda))

end Sys2Proof.Machine
end

