-- ==== Sys2Proof/Machine/Read.lean ====
section
/-! DEFINITION. The meanings of the two read requests (spec/41_read.md R111, R112). -/

namespace Sys2Proof.Machine

/-- ReadHolding (R111): validation against the holding space, then the read path over `[addr, addr + qty)`. -/
def execReadHolding (addr qty : Word) (s : State) : Result := serve 0x03 addr qty [] s

/-- ReadInput (R112): the same against the input space. -/
def execReadInput (addr qty : Word) (s : State) : Result := serve 0x04 addr qty [] s

end Sys2Proof.Machine
end

