-- ==== Sys2Proof/Machine/Unsupported.lean ====
section
/-! DEFINITION. The meaning of a request with an unsupported function code (spec/40_dispatch.md R100). -/

namespace Sys2Proof.Machine

/-- Unsupported (R100): validation answers IllegalFunction before any other check; address and quantity are ignored. -/
def execUnsupported (fc : Byte) (addr qty : Word) (s : State) : Result := serve fc addr qty [] s

end Sys2Proof.Machine
end

