-- ==== Sys2Proof/Machine/Write.lean ====
section
/-! DEFINITION. The meanings of the two write requests (spec/42_write.md R131, R132). -/

namespace Sys2Proof.Machine

/-- WriteHolding (R131): the quantity must be 1; the write path over `[addr, addr + 1)`; the echo is the request's
address and incoming value. -/
def execWriteHolding (addr qty value : Word) (s : State) : Result := serve 0x06 addr qty [value] s

/-- WriteMultipleHolding (R132): the write path over `[addr, addr + qty)`; the echo is the request's address and
quantity. -/
def execWriteMultipleHolding (addr qty : Word) (values : List Word) (s : State) : Result :=
  serve 0x10 addr qty values s

end Sys2Proof.Machine
end

