-- ==== Sys2Proof/Machine/Dispatch.lean ====
section
/-! DEFINITION. The dispatch of a request to its meaning: one arm per row of spec/opcode_table.json. -/

namespace Sys2Proof.Machine

def exec (i : Instr) (s : State) : Host.Outcome State Fault Refusal :=
  match i with
  | .readHolding addr qty => Sys2Proof.Machine.execReadHolding addr qty s
  | .readInput addr qty => Sys2Proof.Machine.execReadInput addr qty s
  | .writeHolding addr qty value => Sys2Proof.Machine.execWriteHolding addr qty value s
  | .writeMultipleHolding addr qty values => Sys2Proof.Machine.execWriteMultipleHolding addr qty values s
  | .unsupported fc addr qty => Sys2Proof.Machine.execUnsupported fc addr qty s

end Sys2Proof.Machine
end

