-- ==== Sys2Proof/Machine/Turns.lean ====
section
/-! DEFINITION. The engine's turn (spec/40_dispatch.md R90): an accepted request is decoded and run, a request in a later
stage goes on. -/

namespace Sys2Proof.Machine

/-- The descriptor of the request a dispatch record holds (R31, R60). -/
def requestOf (d : Dispatch) : Descriptor := { header := mkHeader d.fc d.addr d.qty, words := d.vals }

/-- The engine's merged steps (R101). In stage `Validate` they are those of the decoded request; a record that holds no
request faults, since none is accepted (R93). -/
def engineMove (s : State) : Result :=
  match s.phase with
  | .halted _ => .next s
  | .idle => .next s
  | .replying _ => .next s
  | .dispatching d =>
    match d.stage with
    | .validate =>
      match decode (requestOf d) with
      | .ok i => exec i s
      | .error _ => .fault .missingWord
    | .access _ => runEngine s
    | .hookWait _ => .next s
    | .commit => runEngine s

end Sys2Proof.Machine
end

