-- ==== Sys2Proof/Machine/Step.lean ====
section
/-! DEFINITION. One step of the machine: the transition whose turn it is (spec/40_dispatch.md R90). -/

namespace Sys2Proof.Machine

/-- One step. A well-formed request at the port is accepted (T1), an ill-formed one is refused (R93). -/
def step (s : State) : Host.Outcome State Fault Refusal :=
  match turnOf s with
  | .wait => .next s
  | .engine => engineMove s
  | .accept d rest =>
    match portDecode d with
    | .ok i => .next (acceptRequest i (s.setAgenda rest))
    | .error e => .refused (.illFormedRequest e)
  | .answer a rest => answerHook a (s.setAgenda rest)
  | .take rest => .next (takeReply (s.setAgenda rest))
  | .restart rest => .next (restart (s.setAgenda rest))
  | .discard rest => .next (s.setAgenda rest)

/-- `s` with the request of the bits `w` accepted, so that the next step decodes and runs it (log 16). -/
def State.withFetchWord (s : State) (nbits w : Nat) : State :=
  match decodeTableWord nbits w with
  | none => s
  | some i => loadRequest i s

end Sys2Proof.Machine
end

