-- ==== Sys2Proof/Machine/Wire.lean ====
section
/-! DEFINITION. The external frame parser and reply encoder (spec/30_encoding.md R80 to R84, informative): the Modbus PDU
layouts of the four supported requests, of their replies and of an exception reply. They stand beside the engine; no
definition of the machine uses them. PRESUMED (log 20): every byte layout here is general knowledge, not the source's. -/

namespace Sys2Proof.Machine

/-- The more significant byte of a word (R84). -/
def highByte (w : Word) : Byte := w.extractLsb' 8 8

/-- The less significant byte of a word (R84). -/
def lowByte (w : Word) : Byte := w.extractLsb' 0 8

/-- A word from its two bytes, the more significant first (R84). -/
def wordOf (h l : Byte) : Word := h ++ l

/-- A word as it is sent (R84). -/
def wordBytes (w : Word) : List Byte := [highByte w, lowByte w]

/-- Words as they are sent, in order. -/
def wordsBytes : List Word → List Byte
  | [] => []
  | w :: ws => highByte w :: lowByte w :: wordsBytes ws

/-- Words read from bytes; nothing where a byte is left over. -/
def wordsOfBytes : List Byte → Option (List Word)
  | [] => some []
  | [_] => none
  | h :: l :: bs => (wordsOfBytes bs).map (fun ws => wordOf h l :: ws)

/-- The byte count `BC = 2·Q` (R80, R83). -/
def byteCount (n : Nat) : Byte := BitVec.ofNat 8 (2 * n)

/-- The request PDU of a descriptor with one of the four supported codes (R80 to R83); the layout of any other is not
given. -/
def requestPdu (i : Instr) : Option (List Byte) :=
  match i with
  | .readHolding addr qty => some (0x03 :: (wordBytes addr ++ wordBytes qty))
  | .readInput addr qty => some (0x04 :: (wordBytes addr ++ wordBytes qty))
  | .writeHolding addr _ value => some (0x06 :: (wordBytes addr ++ wordBytes value))
  | .writeMultipleHolding addr qty values =>
    some (0x10 :: (wordBytes addr ++ wordBytes qty ++ byteCount qty.toNat :: wordsBytes values))
  | .unsupported _ _ _ => none

/-- The frame parser's part of a WriteMultipleHolding after its quantity (R83): a byte count that disagrees with `Q`
is rejected here, not in the engine. -/
def parseValues (addr qty : Word) (bc : Byte) (bs : List Byte) : Option Descriptor :=
  if bc.toNat = 2 * qty.toNat then
    match wordsOfBytes bs with
    | none => none
    | some ws => if ws.length = qty.toNat then some { header := mkHeader 0x10 addr qty, words := ws } else none
  else none

/-- The descriptor the frame parser delivers for a request PDU of a supported code (R80 to R83). -/
def parsePdu (bs : List Byte) : Option Descriptor :=
  match bs with
  | fc :: ah :: al :: xh :: xl :: rest =>
    match kindOf fc, rest with
    | .readHolding, [] => some { header := mkHeader 0x03 (wordOf ah al) (wordOf xh xl), words := [] }
    | .readInput, [] => some { header := mkHeader 0x04 (wordOf ah al) (wordOf xh xl), words := [] }
    | .writeHolding, [] => some { header := mkHeader 0x06 (wordOf ah al) 1, words := [wordOf xh xl] }
    | .writeMultipleHolding, bc :: bs => parseValues (wordOf ah al) (wordOf xh xl) bc bs
    | _, _ => none
  | _ => none

/-- The reply PDU the reply encoder sends (R80 to R84); bit 7 of the function code marks an exception. -/
def replyPdu (r : Reply) : List Byte :=
  match r with
  | .readOk fc vals => fc :: byteCount vals.length :: wordsBytes vals
  | .writeSingleOk addr value => 0x06 :: (wordBytes addr ++ wordBytes value)
  | .writeMultipleOk addr qty => 0x10 :: (wordBytes addr ++ wordBytes qty)
  | .exception fc code => [fc ||| 0x80, exceptionCode code]

end Sys2Proof.Machine
end

