-- ==== Sys2Proof/Safety.lean ====
section
/-! DEFINITION. What the statements speak about: legal ranges (spec/20_memory.md R44, R45), the invariant of every
reachable state, the read and write paths as one function over the hook answers (spec/41_read.md R119,
spec/42_write.md R142), and the observation of a run (spec/70_reset_and_hazards.md R184). -/

namespace Sys2Proof.Machine

/-- The interval invariant of a range (R45). -/
def RangeLegal (r : Range) : Prop := 1 ≤ r.count.toNat ∧ r.base.toNat + r.count.toNat ≤ 65536

/-- No address belongs to both ranges (R44). -/
def Apart (r q : Range) : Prop := ∀ a, ¬ (r.covers a = true ∧ q.covers a = true)

/-- The ranges of a space satisfy R44 and R45. -/
def RangesLegal (rs : List Range) : Prop := (∀ r ∈ rs, RangeLegal r) ∧ rs.Pairwise Apart

/-- Both spaces of the configuration satisfy R44 and R45. -/
def ConfigLegal (cfg : Configuration) : Prop := RangesLegal cfg.holding ∧ RangesLegal cfg.input

/-- What validation establishes for a request in flight (R94): its kind, its quantity, and a target range of the
kind's space that holds the whole span. -/
structure Located (cfg : Configuration) (d : Dispatch) (k : Nat) (r : Range) (sp : Space) : Prop where
  space : kindSpace (kindOf d.fc) = some sp
  quantity : quantityLegal cfg (kindOf d.fc) d.qty.toNat = true
  tgt : d.tgt = some (sp, k)
  range : (cfg.ranges sp)[k]? = some r
  base : r.base.toNat ≤ d.addr.toNat
  limit : d.addr.toNat + d.qty.toNat ≤ r.limit

/-- The stage of a request in flight agrees with what it has gathered (R31, R92, R96). -/
def StageOk (cfg : Configuration) (d : Dispatch) : Prop :=
  match d.stage with
  | .validate => d.tgt = none ∧ d.acc = []
  | .access i => (∃ k r sp, Located cfg d k r sp) ∧ i ≤ d.qty.toNat ∧ d.acc.length = i
  | .hookWait i =>
    (∃ k r sp h, Located cfg d k r sp ∧ kindHook (kindOf d.fc) = some h ∧ rangeHasHook r h = true) ∧
      i < d.qty.toNat ∧ d.acc.length = i
  | .commit => (∃ k r sp, Located cfg d k r sp) ∧ d.acc.length = d.qty.toNat

/-- The request in flight is one the port accepts and its record is as the engine's steps make it. -/
def DispatchOk (cfg : Configuration) (d : Dispatch) : Prop :=
  d.vals.length = dataWords (kindOf d.fc) d.qty ∧ StageOk cfg d

/-- The phase agrees with the configuration: halted with the failing check, or past construction (R30, R36). -/
def PhaseOk (cfg : Configuration) : Phase → Prop
  | .halted e => constructionError cfg = some e
  | .idle => constructionError cfg = none
  | .dispatching d => constructionError cfg = none ∧ DispatchOk cfg d
  | .replying _ => constructionError cfg = none

/-- The invariant of every reachable state. -/
structure Inv (s : State) : Prop where
  /-- The holding file is in canonical form: every entry is a mapped cell that differs from its default. -/
  holding : Memory.wf s.cfg.holding s.holding = true
  /-- Input cells hold their default (R28). -/
  input : s.input = []
  phase : PhaseOk s.cfg s.phase

/-- The value of one element of a span after its access: the hook's answer where the range has the hook, else the
plain value. The answers are drawn in order; `none` where the next draw is missing (the unit never answers). -/
inductive Draw where
  | value (v : Word) (rest : List HookAnswer)
  | failed (rest : List HookAnswer)
  | silent
deriving DecidableEq, Repr

/-- One draw for an element (R91, R114, R133). -/
def draw (hooked : Bool) (plain : Word) (answers : List HookAnswer) : Draw :=
  match hooked, answers with
  | false, as => .value plain as
  | true, [] => .silent
  | true, .ok v :: as => .value v as
  | true, .fail :: as => .failed as

/-- How a path over a span ends: with all its values, with the values before the failing one, or never, with the values
before the one that does not come. -/
inductive PathEnd where
  | done (acc : List Word) (rest : List HookAnswer)
  | failed (acc : List Word) (rest : List HookAnswer)
  | hangs (acc : List Word)
deriving DecidableEq, Repr

/-- The loop `for i in 0 .. d.qty-1` of R119 and R142 over the plain values of the span, ascending. -/
def pathLoop (hooked : Bool) (acc : List Word) : List Word → List HookAnswer → PathEnd
  | [], as => .done acc as
  | p :: ps, as =>
    match draw hooked p as with
    | .value v rest => pathLoop hooked (acc ++ [v]) ps rest
    | .failed rest => .failed acc rest
    | .silent => .hangs acc

/-- The raw cells of a span of `n` cells from offset `o` (R119): nothing where one is out of range. -/
def rawCells (s : State) (sp : Space) (k o : Nat) : Nat → Option (List Word)
  | 0 => some []
  | n + 1 =>
    match readCell s sp k o, rawCells s sp k (o + 1) n with
    | some v, some vs => some (v :: vs)
    | _, _ => none

/-- The span `[addr, addr + qty)` lies in range `k` of a space whose ranges are legal (R48). -/
structure SpanInRange (cfg : Configuration) (sp : Space) (addr qty : Word) (k : Nat) (r : Range) : Prop where
  legal : RangesLegal (cfg.ranges sp)
  range : (cfg.ranges sp)[k]? = some r
  base : r.base.toNat ≤ addr.toNat
  limit : addr.toNat + qty.toNat ≤ r.base.toNat + r.count.toNat

/-- The read request of a space (R111, R112). -/
def readRequest (sp : Space) (addr qty : Word) : Instr :=
  match sp with
  | .holding => .readHolding addr qty
  | .input => .readInput addr qty

/-- The function code of the read request of a space (R63). -/
def readCode (sp : Space) : Byte :=
  match sp with
  | .holding => 0x03
  | .input => 0x04

/-- A write request with a legal quantity: its function code, its data words and the echo of its success (R131, R132,
R139). -/
inductive WriteRequest (cfg : Configuration) : Instr → Byte → Word → Word → List Word → Reply → Prop where
  | single (addr value : Word) :
    WriteRequest cfg (.writeHolding addr 1 value) 0x06 addr 1 [value] (.writeSingleOk addr value)
  | multiple (addr qty : Word) (values : List Word) (len : values.length = qty.toNat) (low : 1 ≤ qty.toNat)
      (high : qty.toNat ≤ cfg.qmaxWrite) :
    WriteRequest cfg (.writeMultipleHolding addr qty values) 0x10 addr qty values (.writeMultipleOk addr qty)

/-- A state some run reaches: any number of steps after construction from any configuration, whatever the host, the
hook units and reset do (R17, R91). -/
def Reachable (t : State) : Prop :=
  ∃ cfg agenda n, Host.Core.run Sys2Proof.core n (State.construct cfg agenda) = .next t

/-- `s` under another write-fail policy (R12). -/
def withPolicy (s : State) (p : FailPolicy) : State := { s with cfg := { s.cfg with failPolicy := p } }

/-- The request `i` has been accepted and not yet served: its record is as T1 leaves it (R93). -/
def Accepted (s : State) (i : Instr) : Prop := s.phase = .dispatching (dispatchOf i)

/-- The requests accepted in the first `n` steps of a run, in order. -/
def requestsAccepted : Nat → State → List Descriptor
  | 0, _ => []
  | n + 1, s =>
    let now := match turnOf s with
      | .accept d _ => [d]
      | _ => []
    match step s with
    | .next s' => now ++ requestsAccepted n s'
    | .fault _ => now
    | .refused _ => now

/-- The request whose reply is still to come after a turn, where `p` was that request before it (R90, R170): the one just
accepted, none once its reply is taken or a reset has abandoned it. -/
def pendingAfter (x : Turn) (p : Option Descriptor) : Option Descriptor :=
  match x with
  | .accept d _ => some d
  | .take _ => none
  | .restart _ => none
  | .wait => p
  | .engine => p
  | .answer _ _ => p
  | .discard _ => p

/-- The requests of the first `n` steps of a run whose reply the host has taken in them, each with its reply, in order.
`p` is the request in flight or awaiting its reply that counts as one of the run's; a reply to an older request, and one
that reset abandons, is none of the run's. -/
def transactions : Nat → State → Option Descriptor → List (Descriptor × Reply)
  | 0, _, _ => []
  | n + 1, s, p =>
    let now := match turnOf s, p, replyOffered s with
      | .take _, some d, some r => [(d, r)]
      | _, _, _ => []
    match step s with
    | .next s' => now ++ transactions n s' (pendingAfter (turnOf s) p)
    | .fault _ => now
    | .refused _ => now

/-- The hook calls answered in the first `n` steps of a run, in order (R92). -/
def callsAnswered : Nat → State → List HookCall
  | 0, _ => []
  | n + 1, s =>
    let now := match turnOf s, s.hookCall with
      | .answer _ _, some c => [c]
      | _, _ => []
    match step s with
    | .next s' => now ++ callsAnswered n s'
    | .fault _ => now
    | .refused _ => now

/-- After `n` steps from `s` the requests accepted are `qs`, the host has taken the reply of each of them, and the engine
is `Idle` in the state `t`. -/
def Served (qs : List Descriptor) (s : State) (n : Nat) (t : State) : Prop :=
  Host.Core.run Sys2Proof.core n s = .next t ∧ t.phase = .idle ∧ requestsAccepted n s = qs ∧
    (transactions n s none).map Prod.fst = qs

/-- The run of the request sequence `qs` from `s` ends after `n` steps, in `t`: the first state in which the host has
taken the reply of the last request and the engine is `Idle` (R184). -/
def EndOfRun (qs : List Descriptor) (s : State) (n : Nat) (t : State) : Prop :=
  Served qs s n t ∧ ∀ m < n, ∀ u, ¬ Served qs s m u

/-- Every cell of a space, range by range in registration order (R24). -/
def spaceCells (s : State) (sp : Space) : List (List (Option Word)) :=
  (s.cfg.ranges sp).mapIdx (fun k r => (List.range r.count.toNat).map (readCell s sp k))

/-- What a run shows: the replies of its requests in order and the final cells (R184). -/
structure Observation where
  replies : List Reply
  holding : List (List (Option Word))
  input : List (List (Option Word))
deriving DecidableEq, Repr

/-- The observation of a run from `s` that ends after `n` steps in `t` (R184). -/
def observation (s : State) (n : Nat) (t : State) : Observation where
  replies := (transactions n s none).map Prod.snd
  holding := spaceCells t .holding
  input := spaceCells t .input

end Sys2Proof.Machine
end

