-- ==== Sys2Proof/Certificates/Slice0/Obligations.lean ====
section
/-! DEFINITION. The statements about the register engine. Each docstring names the rules of spec/ it formalises. In a
state `s`, the host, the hook units and reset act by the events of `s.agenda`; a statement holds for every agenda its
hypotheses leave open. -/

open Sys2Proof Sys2Proof.Machine

/-! ### Encoding -/

/-- R60, R63, R64: decoding the descriptor of a well-formed request gives it back. -/
def Obligations.DecodeOfEncodeIsIdentity : Prop :=
  ∀ i : Instr, i.WellFormed → decode (encode i) = .ok i

/-- R60, R63, R64, R93: what the decoder accepts is the descriptor of a well-formed request, but for the data words of an
unsupported code, which it ignores; what the port accepts is exactly the descriptor of its request. -/
def Obligations.EncodeOfDecodeIsIdentity : Prop :=
  (∀ (d : Descriptor) (i : Instr), decode d = .ok i →
    i.WellFormed ∧ (encode i).header = d.header ∧
      (encode i).words = if headerFc d.header ∈ supportedCodes then d.words else []) ∧
  ∀ (d : Descriptor) (i : Instr), portDecode d = .ok i ↔ i.WellFormed ∧ encode i = d

/-- R60: the header as a number is `fc·2^32 + addr·2^16 + qty`, for the fields of any header and for the header made
of any fields. -/
def Obligations.HeaderIsTheNumberOfItsFields : Prop :=
  (∀ h : BitVec 40,
    h.toNat = (headerFc h).toNat * 2 ^ 32 + (headerAddr h).toNat * 2 ^ 16 + (headerQty h).toNat) ∧
  ∀ (fc : Byte) (addr qty : Word),
    (mkHeader fc addr qty).toNat = fc.toNat * 2 ^ 32 + addr.toNat * 2 ^ 16 + qty.toNat

/-- R63, R64, R93 (log 10: the four numbers are general knowledge; logs 6 and 27: what is refused, and by which of decoder
and port, is inferred): the length of a request is decided by its function code and, for `0x10`, by its quantity. The
decoder ignores the words of an unsupported code and refuses a supported one of another length; the port accepts exactly
the well-formed descriptors. -/
def Obligations.RequestLengthDecidesDecoding : Prop :=
  (∀ qty : Word, dataWords (kindOf 0x03) qty = 0 ∧ dataWords (kindOf 0x04) qty = 0 ∧
    dataWords (kindOf 0x06) qty = 1 ∧ dataWords (kindOf 0x10) qty = qty.toNat) ∧
  (∀ (fc : Byte) (qty : Word), fc ∉ supportedCodes → dataWords (kindOf fc) qty = 0) ∧
  (∀ d : Descriptor, headerFc d.header ∈ supportedCodes → ((∃ i, decode d = .ok i) ↔
    d.words.length = dataWords (kindOf (headerFc d.header)) (headerQty d.header))) ∧
  (∀ d : Descriptor, headerFc d.header ∉ supportedCodes →
    decode d = .ok (.unsupported (headerFc d.header) (headerAddr d.header) (headerQty d.header))) ∧
  ∀ d : Descriptor, (∃ i, portDecode d = .ok i) ↔
    d.words.length = dataWords (kindOf (headerFc d.header)) (headerQty d.header)

/-- spec/95_test_vectors.md 2.3 to 2.5 and R72: words written out from the encoding decode to their requests. -/
def Obligations.SampleWordsDecode : Prop :=
  decode { header := 0x0300640002, words := [] } = .ok (.readHolding 100 2) ∧
  decode { header := 0x0400C80002, words := [] } = .ok (.readInput 200 2) ∧
  decode { header := 0x0600030001, words := [0x1234] } = .ok (.writeHolding 3 1 0x1234) ∧
  decode { header := 0x1000080002, words := [5, 6] } = .ok (.writeMultipleHolding 8 2 [5, 6]) ∧
  decode { header := 0x8300000001, words := [] } = .ok (.unsupported 0x83 0 1)

/-- R21: the packed 50-bit descriptor has its fields at the bits the table gives, and packing loses nothing. -/
def Obligations.RangeDescriptorBits : Prop :=
  (∀ r : Range, (packRange r).extractLsb' 0 16 = r.base ∧ (packRange r).extractLsb' 16 16 = r.count ∧
    (packRange r).extractLsb' 32 16 = r.default ∧ (packRange r).getLsbD 48 = r.hasRd ∧
    (packRange r).getLsbD 49 = r.hasWr) ∧
  (∀ r : Range, unpackRange (packRange r) = r) ∧ ∀ v : BitVec 50, packRange (unpackRange v) = v

/-- R66, R67 (log 9: that a read reply holds its function code is inferred; log 21: where R66 gives no field `b` the
model has none): each reply's descriptor has its kind's tag, function code, fields and data words; an exception carries
the request's function code unmodified; the descriptor gives the reply back. -/
def Obligations.ReplyDescriptorRoundTrip : Prop :=
  (∀ (fc : Byte) (vals : List Word), (encodeReply (.readOk fc vals)).kind.toNat = 0 ∧
    (encodeReply (.readOk fc vals)).fc = fc ∧
    (vals.length < 65536 → (encodeReply (.readOk fc vals)).a.toNat = vals.length) ∧
    (encodeReply (.readOk fc vals)).b = none ∧ (encodeReply (.readOk fc vals)).data = vals) ∧
  (∀ addr value : Word, encodeReply (.writeSingleOk addr value) =
    { kind := 1, fc := 0x06, a := addr, b := some value, data := [] }) ∧
  (∀ addr qty : Word, encodeReply (.writeMultipleOk addr qty) =
    { kind := 2, fc := 0x10, a := addr, b := some qty, data := [] }) ∧
  (∀ (fc : Byte) (c : ExceptionKind), (encodeReply (.exception fc c)).kind.toNat = 3 ∧
    (encodeReply (.exception fc c)).fc = fc ∧
    (encodeReply (.exception fc c)).a.toNat = (exceptionCode c).toNat ∧ (encodeReply (.exception fc c)).b = none ∧
    (encodeReply (.exception fc c)).data = []) ∧
  (∀ r : Reply, decodeReply (encodeReply r) = some r) ∧
  ∀ (p : Rsp) (r : Reply), decodeReply p = some r → encodeReply r = p

/-- R80 to R83 (log 20: the layouts are general knowledge): the frame parser delivers, for the request PDU of a
supported request that fits one, that request's descriptor. -/
def Obligations.WireRequestRoundTrip : Prop :=
  ∀ i : Instr, i.WellFormed →
    (match i with
      | .readHolding _ _ => True
      | .readInput _ _ => True
      | .writeHolding _ qty _ => qty = 1
      | .writeMultipleHolding _ qty _ => qty.toNat ≤ 123
      | .unsupported _ _ _ => False) →
    ∃ bs, requestPdu i = some bs ∧ parsePdu bs = some (encode i)

/-- R80, R83 (log 20: the layouts are general knowledge): the byte count of a normal read reply is twice its number of
registers and its values follow in order, more significant byte first. -/
def Obligations.WireReadReplyLayout : Prop :=
  ∀ (fc : Byte) (vals : List Word), vals.length ≤ 125 →
    ∃ bc bs, replyPdu (.readOk fc vals) = fc :: bc :: bs ∧ bc.toNat = 2 * vals.length ∧
      bs.length = 2 * vals.length ∧ wordsOfBytes bs = some vals ∧
      ∀ i < vals.length, (bs[2 * i]?).map BitVec.toNat = (vals[i]?).map (fun v => v.toNat / 256)

/-! ### Construction and reset -/

/-- R172: the descriptor check. That the ceiling is 65536 is the spec's own reading of a source that leaves it undefined
(R172, C4, D4; log 14). -/
def Obligations.DescriptorCheckVerdict : Prop :=
  ∀ r : Range,
    (r.count.toNat = 0 → rangeCheck r = some .zeroCount) ∧
    (r.count.toNat ≠ 0 → r.base.toNat + r.count.toNat > 65536 → rangeCheck r = some .addressOverflow) ∧
    (r.count.toNat ≠ 0 → r.base.toNat + r.count.toNat ≤ 65536 → rangeCheck r = none)

/-- R44, R45, R172, R173: construction passes exactly on the configurations whose ranges are legal and, within each
space, disjoint. -/
def Obligations.ConstructionPassesExactlyOnLegalRanges : Prop :=
  ∀ cfg : Configuration, constructionError cfg = none ↔ ConfigLegal cfg

/-- R171, R173: after ranges that pass, the first descriptor that fails decides the error; a descriptor is first
checked for itself and then against the ranges registered before it; the holding space comes before the input space.
Which error is reported is the spec's own decision (D20); R173 advises claims to rely on failure alone. -/
def Obligations.FirstFailingDescriptorDecides : Prop :=
  (∀ (pre post : List Range) (r : Range), spaceError [] pre = none →
    (∀ e, rangeCheck r = some e → spaceError [] (pre ++ r :: post) = some e) ∧
    (rangeCheck r = none → (∃ q ∈ pre, ∃ a, q.covers a = true ∧ r.covers a = true) →
      spaceError [] (pre ++ r :: post) = some .overlappingRange)) ∧
  (∀ (cfg : Configuration) (e : ConfigError), spaceError [] cfg.holding = some e → constructionError cfg = some e) ∧
  ∀ cfg : Configuration, spaceError [] cfg.holding = none → constructionError cfg = spaceError [] cfg.input

/-- R36, R170, R171, R173, R174, R175: reset, in any phase, leaves the configuration, every cell at its range's default,
and the engine idle with no request, no reply and no hook call, or halted with the first failing check. That the other
moves stay on the agenda (logs 3 and 15) and that restarts are counted (log 25) is the model's choice. -/
def Obligations.ResetLeavesTheTableOfResetValues : Prop :=
  ∀ (s : State) (m : Moment) (rest : List Event), s.agenda = .reset m :: rest →
    (m = .atOnce ∨ engineTurn s.phase = none) →
    ∃ t, step s = .next t ∧ t.cfg = s.cfg ∧ t.agenda = rest ∧ t.restarts = s.restarts + 1 ∧
      (∀ e, constructionError s.cfg = some e → t.phase = .halted e) ∧
      (constructionError s.cfg = none →
        t.phase = .idle ∧ replyOffered t = none ∧ t.hookCall = none ∧
        ∀ sp k r o, (s.cfg.ranges sp)[k]? = some r → o < r.count.toNat → readCell t sp k o = some r.default)

/-- R170: what reset leaves depends on the configuration alone (and on the model's own count of restarts, log 25),
whatever the phase and the cells were. -/
def Obligations.ResetForgetsCellsAndPhase : Prop :=
  ∀ (s s' : State) (rest : List Event), s.cfg = s'.cfg → s.restarts = s'.restarts →
    s.agenda = .reset .atOnce :: rest → s'.agenda = .reset .atOnce :: rest → step s = step s'

/-- R36, R175: the state after construction meets the invariant; so does `State.reset` (whose configuration is the
model's choice, log 2). -/
def Obligations.ConstructedStateMeetsTheInvariant : Prop :=
  (∀ (cfg : Configuration) (agenda : List Event), Inv (State.construct cfg agenda)) ∧ Inv State.reset

/-- R9: an absent `default` is 0 and an absent `number` is 1. -/
def Obligations.AbsentFieldsHaveTheirDefaults : Prop :=
  ∀ d : RangeDecl,
    (d.default = none → (rangeOfDecl d).default.toNat = 0) ∧ (d.number = none → (rangeOfDecl d).count.toNat = 1) ∧
    (∀ v, d.default = some v → (rangeOfDecl d).default = v) ∧ (∀ n, d.number = some n → (rangeOfDecl d).count = n) ∧
    (rangeOfDecl d).base = d.startAddress

/-! ### Rules of the whole machine -/

/-- Every step keeps the invariant: the holding file stays canonical, the input file stays at its defaults, and the
phase and the record of the request in flight stay as the engine's steps make them (R31, R36, R92, R96). -/
def Obligations.StepKeepsTheInvariant : Prop :=
  ∀ s t : State, Inv s → step s = .next t → Inv t

/-- R47, R90: in a state that meets the invariant no step faults; no cell access is out of range. -/
def Obligations.NoStepFaultsUnderTheInvariant : Prop :=
  ∀ (s : State) (f : Fault), Inv s → step s ≠ .fault f

/-- R93 (logs 6 and 27): a step refuses exactly when the descriptor at the port is ill-formed, its data words not as many
as its header calls for, in any state. -/
def Obligations.OnlyIllFormedRequestsAreRefused : Prop :=
  ∀ (s : State) (x : Refusal), step s = .refused x ↔
    ∃ d rest, turnOf s = .accept d rest ∧
      d.words.length ≠ dataWords (kindOf (headerFc d.header)) (headerQty d.header) ∧
      x = .illFormedRequest (.wrongWordCount d.calledFor d.words.length)

/-- R20: no step changes the configuration. -/
def Obligations.ConfigurationNeverChanges : Prop :=
  ∀ s t : State, step s = .next t → t.cfg = s.cfg

/-- R28, R171: in every reachable state of an engine whose construction passed, every input cell holds its range's
default. -/
def Obligations.InputCellsAreConstant : Prop :=
  ∀ t : State, Reachable t → constructionError t.cfg = none →
    ∀ k r o, t.cfg.input[k]? = some r → o < r.count.toNat → readCell t .input k o = some r.default

/-- R90, R101, R170: each turn starts in its phase and ends in one of its successors. The engine's own steps are merged
up to the next wait; T1, T5 and T7 are steps of their own. -/
def Obligations.TurnsFollowTheTransitionTable : Prop :=
  ∀ s t : State, Inv s → step s = .next t →
    (turnOf s = .wait → t = s) ∧
    (∀ d rest, turnOf s = .accept d rest → s.phase = .idle ∧
      ∃ d', t.phase = .dispatching d' ∧ d'.stage = .validate) ∧
    (turnOf s = .engine → ∃ d, s.phase = .dispatching d ∧
      ((∃ r, t.phase = .replying r) ∨
        ∃ d' j, t.phase = .dispatching d' ∧ d'.stage = .hookWait j ∧
          (d.stage = .validate ∧ j = 0 ∨ d.stage = .access j))) ∧
    (∀ a rest, turnOf s = .answer a rest → ∃ d i, s.phase = .dispatching d ∧ d.stage = .hookWait i ∧
      ((∃ r, t.phase = .replying r) ∨ ∃ d', t.phase = .dispatching d' ∧ d'.stage = .access (i + 1))) ∧
    (∀ rest, turnOf s = .take rest → (∃ r, s.phase = .replying r) ∧ t.phase = .idle) ∧
    (∀ rest, turnOf s = .restart rest → t.phase = initialPhase s.cfg) ∧
    (∀ rest, turnOf s = .discard rest → t = s.setAgenda rest)

/-- R30, R157: an engine halted by a configuration error stays as it is for ever, unless reset comes. -/
def Obligations.HaltedEngineNeverMoves : Prop :=
  ∀ (s : State) (e : ConfigError), s.phase = .halted e → (∀ m, Event.reset m ∉ s.agenda) →
    ∀ n, Host.Core.run Sys2Proof.core n s = .next s

/-- R98, R179: no step ends `HookWait(i)` but the called unit's answer or reset; without either the engine waits for
ever, the port not ready and no reply offered, its state the same but for the agenda. -/
def Obligations.UnansweredHookHangsForEver : Prop :=
  ∀ (s : State) (d : Dispatch) (i : Nat), s.phase = .dispatching d → d.stage = .hookWait i →
    (∀ t, step s = .next t → t.phase = s.phase ∨ (∃ a rest, turnOf s = .answer a rest) ∨
      ∃ rest, turnOf s = .restart rest) ∧
    ((∀ m, Event.reset m ∉ s.agenda) → (∀ a, Event.answer s.restarts a ∉ s.agenda) →
      requestReady s = false ∧ replyOffered s = none ∧
        ∀ n, ∃ es, Host.Core.run Sys2Proof.core n s = .next (s.setAgenda es))

/-- R99, R177: a reply the host does not take stays offered, and no request is accepted, for ever, unless reset
comes. -/
def Obligations.UntakenReplyStopsTheEngine : Prop :=
  ∀ (s : State) (r : Reply), s.phase = .replying r → Event.take ∉ s.agenda → (∀ m, Event.reset m ∉ s.agenda) →
    ∀ n, ∃ es, Host.Core.run Sys2Proof.core n s = .next (s.setAgenda es) ∧
      ∀ d, Event.submit d ∈ s.agenda → Event.submit d ∈ es

/-- R68, R93: the request port is ready exactly in `Idle`, and a request is accepted in `Idle` alone. Where no accepted
request waits to be served, `exec` leaves the state as it is (log 23). -/
def Obligations.RequestPortIsReadyExactlyInIdle : Prop :=
  (∀ s : State, requestReady s = true ↔ s.phase = .idle) ∧
  (∀ (s : State) (d : Descriptor) (rest : List Event), turnOf s = .accept d rest → s.phase = .idle) ∧
  ∀ (s : State) (i : Instr), (∀ d, s.phase = .dispatching d → d.stage ≠ .validate) → exec i s = .next s

/-- R69, R99, R156: taking the reply, normal or exception, makes the engine idle and changes nothing else. -/
def Obligations.TakingTheReplyMakesTheEngineIdle : Prop :=
  ∀ (s : State) (r : Reply) (rest : List Event), s.phase = .replying r → s.agenda = .take :: rest →
    replyOffered s = some r ∧ step s = .next { s with phase := .idle, agenda := rest }

/-- R170: a late answer to a call that a reset abandoned changes nothing, in whatever phase of a running engine it comes,
also while a newer call is outstanding. -/
def Obligations.LateAnswerIsDiscarded : Prop :=
  ∀ (s : State) (n : Nat) (a : HookAnswer) (rest : List Event), s.agenda = .answer n a :: rest → n < s.restarts →
    (∀ e, s.phase ≠ .halted e) → engineTurn s.phase = none → step s = .next { s with agenda := rest }

/-- R93, R101: a well-formed request at the port is accepted as a step of its own (T1), which latches it; the engine's
next step runs the decoded request, unless a reset comes before. -/
def Obligations.StepRunsTheDecodedRequest : Prop :=
  (∀ (s : State) (d : Descriptor) (rest : List Event), s.phase = .idle → s.agenda = .submit d :: rest →
    turnOf s = .accept d rest) ∧
  (∀ (s : State) (d : Descriptor) (rest : List Event), turnOf s = .accept d rest → d.WellFormed →
    ∃ i t, decode d = .ok i ∧ i.WellFormed ∧ step s = .next t ∧
      t = { s with phase := .dispatching (dispatchOf i), agenda := rest } ∧ Accepted t i ∧
      (dispatchOf i).fc = headerFc d.header ∧ (dispatchOf i).addr = headerAddr d.header ∧
      (dispatchOf i).qty = headerQty d.header ∧ (dispatchOf i).vals = d.words ∧
      (dispatchOf i).acc = [] ∧ (dispatchOf i).stage = .validate) ∧
  ∀ (s : State) (i : Instr), i.WellFormed → Accepted s i → resetAtOnce s.agenda = none → step s = exec i s

/-- R93, R183: a request that waits on the host side does not hold up the hook unit's answer, and stays waiting. -/
def Obligations.WaitingRequestDoesNotBlockTheAnswer : Prop :=
  ∀ (s : State) (d : Dispatch) (i : Nat) (q : Descriptor) (a : HookAnswer) (rest : List Event),
    s.phase = .dispatching d → d.stage = .hookWait i → s.agenda = .submit q :: .answer s.restarts a :: rest →
    step s = answerHook a (s.setAgenda (.submit q :: rest))

/-! ### The address decoder -/

/-- R46: `resolve` finds the one range that covers the address with the offset in it, fails where none does, and does
not depend on the registration order. -/
def Obligations.ResolveFindsTheUniqueRange : Prop :=
  ∀ (rs : List Range) (a : Nat), RangesLegal rs →
    (∀ k o, resolve rs a = some (k, o) ↔
      ∃ r, rs[k]? = some r ∧ r.base.toNat ≤ a ∧ a < r.base.toNat + r.count.toNat ∧ o = a - r.base.toNat) ∧
    (resolve rs a = none ↔ ∀ r ∈ rs, ¬ (r.base.toNat ≤ a ∧ a < r.base.toNat + r.count.toNat)) ∧
    ∀ rs', rs.Perm rs' →
      (resolve rs' a).map (fun ko => (rs'[ko.1]?, ko.2)) = (resolve rs a).map (fun ko => (rs[ko.1]?, ko.2))

/-- R48: `resolve_span` succeeds exactly when the whole span lies in one range, with that range and the offset of the
span's start; otherwise it fails. -/
def Obligations.ResolveSpanAcceptsExactlyWholeSpans : Prop :=
  ∀ (rs : List Range) (a q : Nat), RangesLegal rs → a < 65536 → 1 ≤ q →
    (∀ k o, resolveSpan rs a q = .ok (k, o) ↔
      ∃ r, rs[k]? = some r ∧ r.base.toNat ≤ a ∧ a + q ≤ r.base.toNat + r.count.toNat ∧ o = a - r.base.toNat) ∧
    ((¬ ∃ r ∈ rs, r.base.toNat ≤ a ∧ a + q ≤ r.base.toNat + r.count.toNat) → ∃ e, resolveSpan rs a q = .error e)

/-- R49: the error kind is `Unmapped` when no address of the span is mapped and `SpanCrossesBoundary` when one is but
the span is in no range; both lead to IllegalDataAddress. -/
def Obligations.AddressErrorKinds : Prop :=
  (∀ (rs : List Range) (a q : Nat), RangesLegal rs → a < 65536 → 1 ≤ q →
    (resolveSpan rs a q = .error .unmapped ↔ ∀ b, a ≤ b → b < a + q → b < 65536 → resolve rs b = none) ∧
    (resolveSpan rs a q = .error .spanCrossesBoundary ↔
      (∃ b, a ≤ b ∧ b < a + q ∧ b < 65536 ∧ resolve rs b ≠ none) ∧
        ¬ ∃ r ∈ rs, r.base.toNat ≤ a ∧ a + q ≤ r.base.toNat + r.count.toNat)) ∧
  ∀ (cfg : Configuration) (d : Dispatch) (sp : Space) (e : AddressError),
    kindSpace (kindOf d.fc) = some sp → quantityLegal cfg (kindOf d.fc) d.qty.toNat = true →
    resolveSpan (cfg.ranges sp) d.addr.toNat d.qty.toNat = .error e → validate cfg d = .error .illegalDataAddress

/-- R50: a span that runs past address 65535 lies in no range: nothing wraps to 0. -/
def Obligations.SpansDoNotWrap : Prop :=
  ∀ (rs : List Range) (a q : Nat), RangesLegal rs → a < 65536 → a + q > 65536 → ∃ e, resolveSpan rs a q = .error e

/-! ### Exception replies -/

/-- R100: an unsupported function code gets IllegalFunction, whatever its address and quantity, and whatever data words
its record held; nothing else changes. -/
def Obligations.UnsupportedCodeGetsIllegalFunction : Prop :=
  (∀ (fc : Byte) (addr qty : Word) (s : State), fc ∉ supportedCodes → Accepted s (.unsupported fc addr qty) →
    exec (.unsupported fc addr qty) s = .next { s with phase := .replying (.exception fc .illegalFunction) }) ∧
  ∀ (s : State) (d : Dispatch), s.phase = .dispatching d → d.stage = .validate → d.fc ∉ supportedCodes →
    resetAtOnce s.agenda = none → step s = .next { s with phase := .replying (.exception d.fc .illegalFunction) }

/-- R94: a quantity out of its kind's limits gets IllegalDataValue, whatever the address; nothing else changes. That a
quantity has these limits and that this reply answers it before the address is checked is the spec's own decision from
general knowledge (R94, D7, D8, D9; logs 11 and 14). -/
def Obligations.IllegalQuantityGetsIllegalDataValue : Prop :=
  ∀ (addr qty value : Word) (values : List Word) (s : State),
    (¬ (1 ≤ qty.toNat ∧ qty.toNat ≤ s.cfg.qmaxRead) → Accepted s (.readHolding addr qty) →
      exec (.readHolding addr qty) s = .next { s with phase := .replying (.exception 0x03 .illegalDataValue) }) ∧
    (¬ (1 ≤ qty.toNat ∧ qty.toNat ≤ s.cfg.qmaxRead) → Accepted s (.readInput addr qty) →
      exec (.readInput addr qty) s = .next { s with phase := .replying (.exception 0x04 .illegalDataValue) }) ∧
    (qty.toNat ≠ 1 → Accepted s (.writeHolding addr qty value) →
      exec (.writeHolding addr qty value) s =
        .next { s with phase := .replying (.exception 0x06 .illegalDataValue) }) ∧
    (¬ (1 ≤ qty.toNat ∧ qty.toNat ≤ s.cfg.qmaxWrite) → Accepted s (.writeMultipleHolding addr qty values) →
      exec (.writeMultipleHolding addr qty values) s =
        .next { s with phase := .replying (.exception 0x10 .illegalDataValue) })

/-- R94, R141, R153: a legal quantity whose span lies in no single range of the kind's space gets IllegalDataAddress;
no cell is written, no hook is called, nothing else changes. -/
def Obligations.SpanOutsideARangeGetsIllegalDataAddress : Prop :=
  ∀ (addr qty value : Word) (values : List Word) (s : State), ConfigLegal s.cfg →
    (Accepted s (.readHolding addr qty) → (¬ ∃ k r, SpanInRange s.cfg .holding addr qty k r) → 1 ≤ qty.toNat →
      qty.toNat ≤ s.cfg.qmaxRead →
      exec (.readHolding addr qty) s = .next { s with phase := .replying (.exception 0x03 .illegalDataAddress) }) ∧
    (Accepted s (.readInput addr qty) → (¬ ∃ k r, SpanInRange s.cfg .input addr qty k r) → 1 ≤ qty.toNat →
      qty.toNat ≤ s.cfg.qmaxRead →
      exec (.readInput addr qty) s = .next { s with phase := .replying (.exception 0x04 .illegalDataAddress) }) ∧
    (Accepted s (.writeHolding addr 1 value) → (¬ ∃ k r, SpanInRange s.cfg .holding addr 1 k r) →
      exec (.writeHolding addr 1 value) s =
        .next { s with phase := .replying (.exception 0x06 .illegalDataAddress) }) ∧
    (Accepted s (.writeMultipleHolding addr qty values) → (¬ ∃ k r, SpanInRange s.cfg .holding addr qty k r) →
      1 ≤ qty.toNat → qty.toNat ≤ s.cfg.qmaxWrite →
      exec (.writeMultipleHolding addr qty values) s =
        .next { s with phase := .replying (.exception 0x10 .illegalDataAddress) })

/-- R97, R115, R134: a hook unit's `Fail` ends the request with ServerDeviceFailure at that step, with no further hook
call and no store. -/
def Obligations.HookFailureGetsServerDeviceFailure : Prop :=
  ∀ (s : State) (d : Dispatch) (i : Nat) (rest : List Event), s.phase = .dispatching d → d.stage = .hookWait i →
    s.agenda = .answer s.restarts .fail :: rest →
    step s = .next { s with phase := .replying (.exception d.fc .serverDeviceFailure), agenda := rest }

/-- R151 (log 10: the numbers are general knowledge): the codes of the four exception kinds, and no other. -/
def Obligations.ExceptionCodesOfTheTable : Prop :=
  exceptionCode .illegalFunction = 0x01 ∧ exceptionCode .illegalDataAddress = 0x02 ∧
  exceptionCode .illegalDataValue = 0x03 ∧ exceptionCode .serverDeviceFailure = 0x04 ∧
  ∀ (b : Byte) (c : ExceptionKind), exceptionOfCode b = some c ↔ exceptionCode c = b

/-! ### The read path -/

/-- R111: ReadHolding of a span in a range without a read hook replies with the cells of the span, in address order,
and changes nothing else. -/
def Obligations.ReadHoldingRepliesWithTheCells : Prop :=
  ∀ (addr qty : Word) (s : State) (k : Nat) (r : Range), Accepted s (.readHolding addr qty) → 1 ≤ qty.toNat →
    qty.toNat ≤ s.cfg.qmaxRead → SpanInRange s.cfg .holding addr qty k r → r.hasRd = false →
    ∃ vals, exec (.readHolding addr qty) s = .next { s with phase := .replying (.readOk 0x03 vals) } ∧
      vals.length = qty.toNat ∧
      ∀ i < qty.toNat, vals[i]? = readCell s .holding k (addr.toNat - r.base.toNat + i) ∧
        vals[i]? = Memory.read s.cfg.holding s.holding (addr.toNat + i)

/-- R112: ReadInput of a span in a range without a read hook replies with the cells of the span, in address order, and
changes nothing else. -/
def Obligations.ReadInputRepliesWithTheCells : Prop :=
  ∀ (addr qty : Word) (s : State) (k : Nat) (r : Range), Accepted s (.readInput addr qty) → 1 ≤ qty.toNat →
    qty.toNat ≤ s.cfg.qmaxRead → SpanInRange s.cfg .input addr qty k r → r.hasRd = false →
    ∃ vals, exec (.readInput addr qty) s = .next { s with phase := .replying (.readOk 0x04 vals) } ∧
      vals.length = qty.toNat ∧
      ∀ i < qty.toNat, vals[i]? = readCell s .input k (addr.toNat - r.base.toNat + i) ∧
        vals[i]? = Memory.read s.cfg.input s.input (addr.toNat + i)

/-- R113: a read of a range with a read hook calls that hook for the span's first address, with the absolute address
and the raw cell, and waits; no cell changes. -/
def Obligations.HookedReadCallsTheReadHook : Prop :=
  ∀ (sp : Space) (addr qty : Word) (s : State) (k : Nat) (r : Range), Accepted s (readRequest sp addr qty) →
    1 ≤ qty.toNat → qty.toNat ≤ s.cfg.qmaxRead → SpanInRange s.cfg sp addr qty k r → r.hasRd = true →
    ∃ d raw, exec (readRequest sp addr qty) s = .next { s with phase := .dispatching d } ∧ d.stage = .hookWait 0 ∧
      readCell s sp k (addr.toNat - r.base.toNat) = some raw ∧
      State.hookCall { s with phase := .dispatching d } =
        some { space := sp, range := k, kind := .read, addr := addr, value := raw }

/-- R114: the access step of a read. -/
def Obligations.AccessStepOfARead : Prop :=
  ∀ (s : State) (d : Dispatch) (i k : Nat) (r : Range) (sp : Space), Located s.cfg d k r sp →
    RangesLegal (s.cfg.ranges sp) → kindHook (kindOf d.fc) = some .read → d.stage = .access i → i < d.qty.toNat →
    ∃ raw, readCell s sp k (d.addr.toNat - r.base.toNat + i) = some raw ∧
      (r.hasRd = true → ∃ t c, engineStep s d = .next t ∧
        t = { s with phase := .dispatching { d with stage := .hookWait i } } ∧ t.hookCall = some c ∧
        c.space = sp ∧ c.range = k ∧ c.kind = .read ∧ c.addr.toNat = d.addr.toNat + i ∧ c.value = raw) ∧
      (r.hasRd = false → engineStep s d =
        .next { s with phase := .dispatching { d with acc := d.acc ++ [raw], stage := .access (i + 1) } })

/-- R115: the answer step of a read hook: the value joins the reply and the engine goes on with the next address; a
`Fail` ends the request. -/
def Obligations.AnswerStepOfAReadHook : Prop :=
  ∀ (s : State) (d : Dispatch) (i : Nat) (v : Word), s.phase = .dispatching d → d.stage = .hookWait i →
    kindHook (kindOf d.fc) = some .read →
    answerHook (.ok v) s =
      .next { s with phase := .dispatching { d with acc := d.acc ++ [v], stage := .access (i + 1) } } ∧
    answerHook .fail s = .next { s with phase := .replying (.exception d.fc .serverDeviceFailure) }

/-- R96, R116: after the last address the engine moves to the commit, and the commit of a read replies with the
gathered values and writes no cell. -/
def Obligations.CommitOfARead : Prop :=
  ∀ (s : State) (d : Dispatch), kindHook (kindOf d.fc) = some .read →
    (d.stage = .access d.qty.toNat →
      engineStep s d = .next { s with phase := .dispatching { d with stage := .commit } }) ∧
    (d.stage = .commit → engineStep s d = .next { s with phase := .replying (.readOk d.fc d.acc) })

/-- R119: a read request and the hook answers that follow it on the agenda end as the read path's one function says:
with the reply of all its values, with ServerDeviceFailure at the first `Fail`, or never. No cell changes. -/
def Obligations.ReadRequestIsTheReadPathFunction : Prop :=
  ∀ (s : State) (sp : Space) (addr qty : Word) (k : Nat) (r : Range) (raws : List Word) (answers : List HookAnswer)
    (more : List Event), s.phase = .idle → 1 ≤ qty.toNat → qty.toNat ≤ s.cfg.qmaxRead →
    SpanInRange s.cfg sp addr qty k r → rawCells s sp k (addr.toNat - r.base.toNat) qty.toNat = some raws →
    s.agenda = .submit (encode (readRequest sp addr qty)) :: (answers.map (.answer s.restarts) ++ more) →
    resetAtOnce more = none →
    match pathLoop r.hasRd [] raws answers with
    | .done acc rest => ∃ n, Host.Core.run Sys2Proof.core n s =
        .next { s with agenda := rest.map (.answer s.restarts) ++ more, phase := .replying (.readOk (readCode sp) acc) }
    | .failed _ rest => ∃ n, Host.Core.run Sys2Proof.core n s =
        .next { s with agenda := rest.map (.answer s.restarts) ++ more,
                       phase := .replying (.exception (readCode sp) .serverDeviceFailure) }
    | .hangs acc => (∀ m, Event.reset m ∉ more) → (∀ a, Event.answer s.restarts a ∉ more) →
        ∃ m d, d.stage = .hookWait acc.length ∧ d.acc = acc ∧ ∀ n, m ≤ n → ∃ es, Host.Core.run Sys2Proof.core n s =
          .next { s with agenda := es, phase := .dispatching d }

/-! ### The write path -/

/-- R131: WriteHolding of a mapped address in a range without a write hook stores the word there, leaves every other
cell, and echoes its own fields. -/
def Obligations.WriteHoldingStoresTheWord : Prop :=
  ∀ (addr value : Word) (s : State) (k : Nat) (r : Range), Accepted s (.writeHolding addr 1 value) →
    Memory.wf s.cfg.holding s.holding = true → SpanInRange s.cfg .holding addr 1 k r → r.hasWr = false →
    ∃ m, exec (.writeHolding addr 1 value) s =
        .next { s with holding := m, phase := .replying (.writeSingleOk addr value) } ∧
      Memory.wf s.cfg.holding m = true ∧
      ∀ a, Memory.read s.cfg.holding m a =
        if a = addr.toNat then some value else Memory.read s.cfg.holding s.holding a

/-- R132, R135: WriteMultipleHolding of a span in a range without a write hook stores its words in address order,
leaves every other cell, and echoes its address and quantity. -/
def Obligations.WriteMultipleHoldingStoresTheWords : Prop :=
  ∀ (addr qty : Word) (values : List Word) (s : State) (k : Nat) (r : Range),
    Accepted s (.writeMultipleHolding addr qty values) → values.length = qty.toNat → 1 ≤ qty.toNat →
      qty.toNat ≤ s.cfg.qmaxWrite →
    Memory.wf s.cfg.holding s.holding = true → SpanInRange s.cfg .holding addr qty k r → r.hasWr = false →
    ∃ m, exec (.writeMultipleHolding addr qty values) s =
        .next { s with holding := m, phase := .replying (.writeMultipleOk addr qty) } ∧
      Memory.wf s.cfg.holding m = true ∧
      ∀ a, Memory.read s.cfg.holding m a =
        if addr.toNat ≤ a ∧ a < addr.toNat + qty.toNat then values[a - addr.toNat]?
        else Memory.read s.cfg.holding s.holding a

/-- R133: a write to a range with a write hook calls that hook for the span's first address, with the absolute address
and the incoming value, and waits; no cell changes yet. -/
def Obligations.HookedWriteCallsTheWriteHook : Prop :=
  ∀ (i : Instr) (fc : Byte) (addr qty : Word) (values : List Word) (echo : Reply) (s : State) (k : Nat) (r : Range),
    WriteRequest s.cfg i fc addr qty values echo → Accepted s i → SpanInRange s.cfg .holding addr qty k r →
    r.hasWr = true →
    ∃ d v, exec i s = .next { s with phase := .dispatching d } ∧ d.stage = .hookWait 0 ∧ values[0]? = some v ∧
      State.hookCall { s with phase := .dispatching d } =
        some { space := .holding, range := k, kind := .write, addr := addr, value := v }

/-- R133: the access step of a write, under both policies. -/
def Obligations.AccessStepOfAWrite : Prop :=
  ∀ (s : State) (d : Dispatch) (i k : Nat) (r : Range) (v : Word), Located s.cfg d k r .holding →
    RangesLegal s.cfg.holding → kindHook (kindOf d.fc) = some .write → d.stage = .access i → i < d.qty.toNat →
    d.vals[i]? = some v →
    (r.hasWr = true → ∃ t c, engineStep s d = .next t ∧
      t = { s with phase := .dispatching { d with stage := .hookWait i } } ∧ t.hookCall = some c ∧
      c.space = .holding ∧ c.range = k ∧ c.kind = .write ∧ c.addr.toNat = d.addr.toNat + i ∧ c.value = v) ∧
    (r.hasWr = false → s.cfg.failPolicy = .atomic → engineStep s d =
      .next { s with phase := .dispatching { d with acc := d.acc ++ [v], stage := .access (i + 1) } }) ∧
    (r.hasWr = false → s.cfg.failPolicy = .prefixed →
      ∃ s', writeCell s k (d.addr.toNat - r.base.toNat + i) v = some s' ∧ engineStep s d =
        .next { s' with phase := .dispatching { d with acc := d.acc ++ [v], stage := .access (i + 1) } })

/-- R134: the answer step of a write hook, under both policies. -/
def Obligations.AnswerStepOfAWriteHook : Prop :=
  ∀ (s : State) (d : Dispatch) (i k : Nat) (r : Range) (v : Word), s.phase = .dispatching d →
    d.stage = .hookWait i → i < d.qty.toNat → Located s.cfg d k r .holding →
    kindHook (kindOf d.fc) = some .write →
    (s.cfg.failPolicy = .atomic → answerHook (.ok v) s =
      .next { s with phase := .dispatching { d with acc := d.acc ++ [v], stage := .access (i + 1) } }) ∧
    (s.cfg.failPolicy = .prefixed →
      ∃ s', writeCell s k (d.addr.toNat - r.base.toNat + i) v = some s' ∧ answerHook (.ok v) s =
        .next { s' with phase := .dispatching { d with acc := d.acc ++ [v], stage := .access (i + 1) } }) ∧
    answerHook .fail s = .next { s with phase := .replying (.exception d.fc .serverDeviceFailure) }

/-- R135, R139: the commit of a write: under ATOMIC the gathered values are stored in address order and no other cell
changes, under PREFIX nothing is left to store; the reply echoes the request's own fields. -/
def Obligations.CommitOfAWrite : Prop :=
  ∀ (s : State) (d : Dispatch) (k : Nat) (r : Range), Located s.cfg d k r .holding →
    kindHook (kindOf d.fc) = some .write → d.vals.length = dataWords (kindOf d.fc) d.qty →
    d.acc.length = d.qty.toNat → Memory.wf s.cfg.holding s.holding = true → d.stage = .commit →
    ∃ echo, (d.fc = 0x06 → ∃ v, d.vals[0]? = some v ∧ echo = .writeSingleOk d.addr v) ∧
      (d.fc = 0x10 → echo = .writeMultipleOk d.addr d.qty) ∧
      (s.cfg.failPolicy = .atomic →
        ∃ m, engineStep s d = .next { s with holding := m, phase := .replying echo } ∧
          ∀ a, Memory.read s.cfg.holding m a =
            if d.addr.toNat ≤ a ∧ a < d.addr.toNat + d.qty.toNat then d.acc[a - d.addr.toNat]?
            else Memory.read s.cfg.holding s.holding a) ∧
      (s.cfg.failPolicy = .prefixed → engineStep s d = .next { s with phase := .replying echo })

/-- R142: a write request and the hook answers that follow it on the agenda end as the write path's one function says:
with the echo and every cell of the span at its settled value; with ServerDeviceFailure at the first `Fail`, or waiting
for ever for an answer, the cells as before under ATOMIC and those before that address written under PREFIX. No other
cell, and nothing else of the state but the agenda, changes. -/
def Obligations.WriteRequestIsTheWritePathFunction : Prop :=
  ∀ (s : State) (i : Instr) (fc : Byte) (addr qty : Word) (values : List Word) (echo : Reply) (k : Nat) (r : Range)
    (answers : List HookAnswer) (more : List Event), s.phase = .idle → Memory.wf s.cfg.holding s.holding = true →
    WriteRequest s.cfg i fc addr qty values echo → SpanInRange s.cfg .holding addr qty k r →
    s.agenda = .submit (encode i) :: (answers.map (.answer s.restarts) ++ more) → resetAtOnce more = none →
    match pathLoop r.hasWr [] values answers with
    | .done acc rest => ∃ n m, Host.Core.run Sys2Proof.core n s =
        .next { s with holding := m, agenda := rest.map (.answer s.restarts) ++ more, phase := .replying echo } ∧
        Memory.wf s.cfg.holding m = true ∧
        ∀ a, Memory.read s.cfg.holding m a =
          if addr.toNat ≤ a ∧ a < addr.toNat + qty.toNat then acc[a - addr.toNat]?
          else Memory.read s.cfg.holding s.holding a
    | .failed acc rest => ∃ n m, Host.Core.run Sys2Proof.core n s =
        .next { s with holding := m, agenda := rest.map (.answer s.restarts) ++ more,
                       phase := .replying (.exception fc .serverDeviceFailure) } ∧
        (s.cfg.failPolicy = .atomic → m = s.holding) ∧
        (s.cfg.failPolicy = .prefixed → ∀ a, Memory.read s.cfg.holding m a =
          if addr.toNat ≤ a ∧ a < addr.toNat + acc.length then acc[a - addr.toNat]?
          else Memory.read s.cfg.holding s.holding a)
    | .hangs acc => (∀ m, Event.reset m ∉ more) → (∀ a, Event.answer s.restarts a ∉ more) →
        ∃ m h d, d.stage = .hookWait acc.length ∧ d.acc = acc ∧
          (∀ n, m ≤ n → ∃ es, Host.Core.run Sys2Proof.core n s =
            .next { s with holding := h, agenda := es, phase := .dispatching d }) ∧
          (s.cfg.failPolicy = .atomic → h = s.holding) ∧
          (s.cfg.failPolicy = .prefixed → ∀ a, Memory.read s.cfg.holding h a =
            if addr.toNat ≤ a ∧ a < addr.toNat + acc.length then acc[a - addr.toNat]?
            else Memory.read s.cfg.holding s.holding a)

/-- R54, R184: a read of a range without a read hook, made twice with nothing in between, gets the same reply twice and
calls no hook; its run ends with the second reply taken, the observation being the two replies and the cells as they
were. -/
def Obligations.RepeatedReadGetsTheSameReply : Prop :=
  ∀ (s : State) (sp : Space) (addr qty : Word) (k : Nat) (r : Range) (q : Descriptor), s.phase = .idle →
    1 ≤ qty.toNat → qty.toNat ≤ s.cfg.qmaxRead → SpanInRange s.cfg sp addr qty k r → r.hasRd = false →
    q = encode (readRequest sp addr qty) → s.agenda = [.submit q, .take, .submit q, .take] →
    EndOfRun [q, q] s 6 { s with agenda := [] } ∧ callsAnswered 6 s = [] ∧
      ∃ vals, vals.length = qty.toNat ∧ observation s 6 { s with agenda := [] } =
        { replies := [.readOk (readCode sp) vals, .readOk (readCode sp) vals],
          holding := spaceCells s .holding, input := spaceCells s .input }

/-- R92, R97, R113: the calls of a read, as they are answered, are one for each address in ascending order, each with
its absolute address and its raw cell; a `Fail` ends the request with no call outstanding, so none follows it. -/
def Obligations.ReadHookCallsAscend : Prop :=
  ∀ (s : State) (sp : Space) (addr qty : Word) (k : Nat) (r : Range) (raws : List Word) (answers : List HookAnswer)
    (more : List Event), s.phase = .idle → 1 ≤ qty.toNat → qty.toNat ≤ s.cfg.qmaxRead →
    SpanInRange s.cfg sp addr qty k r → r.hasRd = true →
    rawCells s sp k (addr.toNat - r.base.toNat) qty.toNat = some raws → answers.length ≤ qty.toNat →
    (∀ a ∈ answers.dropLast, a ≠ .fail) →
    s.agenda = .submit (encode (readRequest sp addr qty)) :: (answers.map (.answer s.restarts) ++ more) →
    callsAnswered (2 * answers.length + 1) s = (raws.take answers.length).mapIdx (fun i v =>
      { space := sp, range := k, kind := .read, addr := BitVec.ofNat 16 (addr.toNat + i), value := v }) ∧
    (answers.getLast? = some .fail → ∃ t, Host.Core.run Sys2Proof.core (2 * answers.length + 1) s = .next t ∧
      t.phase = .replying (.exception (readCode sp) .serverDeviceFailure) ∧ t.hookCall = none)

/-- R92, R97, R133: the calls of a write, as they are answered, are one for each address in ascending order, each with
its absolute address and its incoming value; a `Fail` ends the request with no call outstanding, so none follows it. -/
def Obligations.WriteHookCallsAscend : Prop :=
  ∀ (s : State) (i : Instr) (fc : Byte) (addr qty : Word) (values : List Word) (echo : Reply) (k : Nat) (r : Range)
    (answers : List HookAnswer) (more : List Event), s.phase = .idle → Memory.wf s.cfg.holding s.holding = true →
    WriteRequest s.cfg i fc addr qty values echo → SpanInRange s.cfg .holding addr qty k r → r.hasWr = true →
    answers.length ≤ qty.toNat → (∀ a ∈ answers.dropLast, a ≠ .fail) →
    s.agenda = .submit (encode i) :: (answers.map (.answer s.restarts) ++ more) →
    callsAnswered (2 * answers.length + 1) s = (values.take answers.length).mapIdx (fun j v =>
      { space := .holding, range := k, kind := .write, addr := BitVec.ofNat 16 (addr.toNat + j), value := v }) ∧
    (answers.getLast? = some .fail → ∃ t, Host.Core.run Sys2Proof.core (2 * answers.length + 1) s = .next t ∧
      t.phase = .replying (.exception fc .serverDeviceFailure) ∧ t.hookCall = none)

/-- R118: a word written to a holding address of a range without hooks is what the next read of that address replies,
once the reply of the write is taken. -/
def Obligations.WriteThenReadReturnsTheWord : Prop :=
  ∀ (s : State) (addr value : Word) (k : Nat) (r : Range) (rest : List Event), s.phase = .idle →
    Memory.wf s.cfg.holding s.holding = true → 1 ≤ s.cfg.qmaxRead → SpanInRange s.cfg .holding addr 1 k r →
    r.hasRd = false → r.hasWr = false →
    s.agenda = .submit (encode (.writeHolding addr 1 value)) :: .take ::
      .submit (encode (.readHolding addr 1)) :: rest → resetAtOnce rest = none →
    ∃ m, Host.Core.run Sys2Proof.core 5 s =
      .next { s with holding := m, agenda := rest, phase := .replying (.readOk 0x03 [value]) }

/-! ### What requests leave alone -/

/-- R20, R27, R42, R95: a request that answers a next state leaves all but the holding file and the phase;
the reads and the unsupported codes leave the holding file too. -/
def Obligations.RequestsLeaveTheRestAlone : Prop :=
  (∀ (i : Instr) (s t : State), exec i s = .next t →
    t.cfg = s.cfg ∧ t.input = s.input ∧ t.agenda = s.agenda ∧ t.restarts = s.restarts) ∧
  ∀ (addr qty : Word) (fc : Byte) (s t : State), fc ∉ supportedCodes →
    (exec (.readHolding addr qty) s = .next t ∨ exec (.readInput addr qty) s = .next t ∨
      exec (.unsupported fc addr qty) s = .next t) → t.holding = s.holding

/-- R29, R43: what a ReadInput does, and what it calls and replies, does not depend on the holding file. -/
def Obligations.ReadInputIgnoresTheHoldingFile : Prop :=
  ∀ (addr qty : Word) (s t : State) (m : Memory), exec (.readInput addr qty) s = .next t →
    exec (.readInput addr qty) { s with holding := m } = .next { t with holding := m }

/-- R136: up to its reply or its first hook call a request does the same under both write-fail policies. -/
def Obligations.WriteFailPolicyShowsOnlyAfterAHookCall : Prop :=
  ∀ (i : Instr) (s t : State) (p : FailPolicy), Inv s → i.WellFormed → Accepted s i → exec i s = .next t →
    exec i (withPolicy s p) = .next (withPolicy t p)
end

