-- ==== Sys2Proof/Laws/State.lean ====
section
/-! SUPPORT. The fields of a state after each named update: one lemma per field and update, so that no proof unfolds a
record update. -/

namespace Sys2Proof.Machine

variable (s : State) (p q : Phase) (m n : Memory) (es fs : List Event)

@[simp] theorem setPhase_cfg : (s.setPhase p).cfg = s.cfg := rfl
@[simp] theorem setPhase_holding : (s.setPhase p).holding = s.holding := rfl
@[simp] theorem setPhase_input : (s.setPhase p).input = s.input := rfl
@[simp] theorem setPhase_phase : (s.setPhase p).phase = p := rfl
@[simp] theorem setPhase_agenda : (s.setPhase p).agenda = s.agenda := rfl
@[simp] theorem setPhase_restarts : (s.setPhase p).restarts = s.restarts := rfl
@[simp] theorem setPhase_setPhase : (s.setPhase p).setPhase q = s.setPhase q := rfl
@[simp] theorem setPhase_file (sp : Space) : (s.setPhase p).file sp = s.file sp := by cases sp <;> rfl

@[simp] theorem setHolding_cfg : (s.setHolding m).cfg = s.cfg := rfl
@[simp] theorem setHolding_holding : (s.setHolding m).holding = m := rfl
@[simp] theorem setHolding_input : (s.setHolding m).input = s.input := rfl
@[simp] theorem setHolding_phase : (s.setHolding m).phase = s.phase := rfl
@[simp] theorem setHolding_agenda : (s.setHolding m).agenda = s.agenda := rfl
@[simp] theorem setHolding_restarts : (s.setHolding m).restarts = s.restarts := rfl
@[simp] theorem setHolding_setHolding : (s.setHolding m).setHolding n = s.setHolding n := rfl
@[simp] theorem setHolding_self : s.setHolding s.holding = s := rfl
@[simp] theorem setHolding_file_holding : (s.setHolding m).file .holding = m := rfl
@[simp] theorem setHolding_file_input : (s.setHolding m).file .input = s.input := rfl

@[simp] theorem setAgenda_cfg : (s.setAgenda es).cfg = s.cfg := rfl
@[simp] theorem setAgenda_holding : (s.setAgenda es).holding = s.holding := rfl
@[simp] theorem setAgenda_input : (s.setAgenda es).input = s.input := rfl
@[simp] theorem setAgenda_phase : (s.setAgenda es).phase = s.phase := rfl
@[simp] theorem setAgenda_agenda : (s.setAgenda es).agenda = es := rfl
@[simp] theorem setAgenda_restarts : (s.setAgenda es).restarts = s.restarts := rfl
@[simp] theorem setAgenda_setAgenda : (s.setAgenda es).setAgenda fs = s.setAgenda fs := rfl
@[simp] theorem setAgenda_file (sp : Space) : (s.setAgenda es).file sp = s.file sp := by cases sp <;> rfl

@[simp] theorem file_holding : s.file .holding = s.holding := rfl
@[simp] theorem file_input : s.file .input = s.input := rfl

/-- The updates of different fields commute; the simp set puts the phase outermost, then the agenda, then the cells. -/
@[simp] theorem setHolding_setPhase : (s.setPhase p).setHolding m = (s.setHolding m).setPhase p := rfl
@[simp] theorem setAgenda_setPhase : (s.setPhase p).setAgenda es = (s.setAgenda es).setPhase p := rfl
@[simp] theorem setHolding_setAgenda : (s.setAgenda es).setHolding m = (s.setHolding m).setAgenda es := rfl

@[simp] theorem takeReply_eq : takeReply s = s.setPhase .idle := rfl
@[simp] theorem raiseException_eq (fc : Byte) (c : ExceptionKind) :
    raiseException fc c s = s.setPhase (.replying (.exception fc c)) := rfl

@[simp] theorem ranges_holding (cfg : Configuration) : cfg.ranges .holding = cfg.holding := rfl
@[simp] theorem ranges_input (cfg : Configuration) : cfg.ranges .input = cfg.input := rfl

@[simp] theorem construct_cfg (cfg : Configuration) : (State.construct cfg es).cfg = cfg := rfl
@[simp] theorem construct_holding (cfg : Configuration) : (State.construct cfg es).holding = [] := rfl
@[simp] theorem construct_input (cfg : Configuration) : (State.construct cfg es).input = [] := rfl
@[simp] theorem construct_agenda (cfg : Configuration) : (State.construct cfg es).agenda = es := rfl
@[simp] theorem construct_restarts (cfg : Configuration) : (State.construct cfg es).restarts = 0 := rfl
@[simp] theorem construct_phase (cfg : Configuration) : (State.construct cfg es).phase = initialPhase cfg := rfl

@[simp] theorem restart_cfg : (restart s).cfg = s.cfg := rfl
@[simp] theorem restart_holding : (restart s).holding = [] := rfl
@[simp] theorem restart_input : (restart s).input = [] := rfl
@[simp] theorem restart_phase : (restart s).phase = initialPhase s.cfg := rfl
@[simp] theorem restart_agenda : (restart s).agenda = s.agenda := rfl
@[simp] theorem restart_restarts : (restart s).restarts = s.restarts + 1 := rfl

/-- Two states with the same fields are the same. -/
theorem state_ext {s t : State} (h₁ : s.cfg = t.cfg) (h₂ : s.holding = t.holding) (h₃ : s.input = t.input)
    (h₄ : s.phase = t.phase) (h₅ : s.agenda = t.agenda) (h₆ : s.restarts = t.restarts) : s = t := by
  cases s; cases t; simp_all

end Sys2Proof.Machine
end

