-- ==== Sys2Proof/Laws/Memory.lean ====
section
/-! SUPPORT. The address decoder and the cells: what `resolve` answers, that every memory operation keeps the canonical
form, and what a read after a write gives. -/

namespace Sys2Proof.Machine

theorem covers_iff (r : Range) (a : Nat) :
    r.covers a = true ↔ r.base.toNat ≤ a ∧ a < r.base.toNat + r.count.toNat := by
  simp only [Range.covers, Bool.and_eq_true, decide_eq_true_eq]

theorem meets_iff (r : Range) (lo hi : Nat) :
    r.meets lo hi = true ↔ ∃ a, lo ≤ a ∧ a < hi ∧ r.covers a = true := by
  simp only [Range.meets, decide_eq_true_eq, covers_iff, Range.limit]
  constructor
  · intro h
    exact ⟨max lo r.base.toNat, by omega, by omega, by omega, by omega⟩
  · rintro ⟨a, h₁, h₂, h₃, h₄⟩
    omega

/-- What `resolve` answers is a covering range with the offset in it (R46). -/
theorem resolve_some {rs : List Range} {a k o : Nat} (h : resolve rs a = some (k, o)) :
    ∃ r, rs[k]? = some r ∧ r.covers a = true ∧ o = a - r.base.toNat := by
  induction rs generalizing k o with
  | nil => simp [resolve] at h
  | cons r rs ih =>
    simp only [resolve] at h
    split at h
    · rename_i hc
      simp only [Option.some.injEq, Prod.mk.injEq] at h
      exact ⟨r, by simp [← h.1], hc, h.2.symm⟩
    · simp only [Option.map_eq_some_iff, Prod.mk.injEq, Prod.exists] at h
      obtain ⟨k', o', hr, rfl, rfl⟩ := h
      obtain ⟨q, h₁, h₂, h₃⟩ := ih hr
      exact ⟨q, by simpa using h₁, h₂, h₃⟩

/-- `resolve` fails exactly where no range covers the address (R46). -/
theorem resolve_none_iff {rs : List Range} {a : Nat} :
    resolve rs a = none ↔ ∀ r ∈ rs, r.covers a = false := by
  induction rs with
  | nil => simp [resolve]
  | cons r rs ih =>
    by_cases hc : r.covers a = true
    · simp [resolve, hc]
    · simp [resolve, hc, ih]

/-- A covered address has an unlisted value. -/
theorem unlisted_of_covers {rs : List Range} {r : Range} {a : Nat} (hr : r ∈ rs) (hc : r.covers a = true) :
    ∃ v, unlisted rs a = some v := by
  cases h : resolve rs a with
  | none => simp [resolve_none_iff.1 h r hr] at hc
  | some ko =>
    obtain ⟨q, hq, -, -⟩ := resolve_some (k := ko.1) (o := ko.2) h
    exact ⟨q.default, by simp [unlisted, h, hq]⟩

/-- Where one range alone covers an address, its default is the unlisted value. -/
theorem unlisted_of_only {rs : List Range} {r : Range} {a : Nat} (hr : r ∈ rs) (hc : r.covers a = true)
    (only : ∀ q ∈ rs, q.covers a = true → q = r) : unlisted rs a = some r.default := by
  cases h : resolve rs a with
  | none => simp [resolve_none_iff.1 h r hr] at hc
  | some ko =>
    obtain ⟨q, hq, hqc, -⟩ := resolve_some (k := ko.1) (o := ko.2) h
    have := only q (List.mem_of_getElem? hq) hqc
    simp [unlisted, h, hq, this]

theorem rising_weaken {lo lo' : Nat} {m : Memory} (h : Memory.rising lo m = true) (hl : lo' ≤ lo) :
    Memory.rising lo' m = true := by
  cases m with
  | nil => rfl
  | cons e m =>
    simp only [Memory.rising, Bool.and_eq_true, decide_eq_true_eq] at h ⊢
    exact ⟨by omega, h.2⟩

/-- In a rising list nothing is listed below its bound. -/
theorem lookup_below {lo a : Nat} {m : Memory} (h : Memory.rising lo m = true) (ha : a < lo) :
    Memory.lookup m a = none := by
  induction m generalizing lo with
  | nil => rfl
  | cons e m ih =>
    obtain ⟨b, v⟩ := e
    simp only [Memory.rising, Bool.and_eq_true, decide_eq_true_eq] at h
    have hb : a ≠ b := by omega
    simp [Memory.lookup, hb, ih h.2 (by omega)]

theorem rising_insert {lo a : Nat} {m : Memory} (v : Word) (h : Memory.rising lo m = true) (ha : lo ≤ a) :
    Memory.rising lo (Memory.insert m a v) = true := by
  induction m generalizing lo with
  | nil => simp [Memory.insert, Memory.rising, ha]
  | cons e m ih =>
    obtain ⟨b, w⟩ := e
    simp only [Memory.rising, Bool.and_eq_true, decide_eq_true_eq] at h
    simp only [Memory.insert]
    split
    · simp [Memory.rising, ha, h.2]; omega
    · split
      · subst_vars; simp [Memory.rising, h]
      · simp only [Memory.rising, Bool.and_eq_true, decide_eq_true_eq]
        exact ⟨h.1, ih h.2 (by omega)⟩

theorem rising_remove {lo a : Nat} {m : Memory} (h : Memory.rising lo m = true) :
    Memory.rising lo (Memory.remove m a) = true := by
  induction m generalizing lo with
  | nil => rfl
  | cons e m ih =>
    obtain ⟨b, w⟩ := e
    simp only [Memory.rising, Bool.and_eq_true, decide_eq_true_eq] at h
    simp only [Memory.remove]
    split
    · exact rising_weaken h.2 (by omega)
    · simp [Memory.rising, h.1, ih h.2]

theorem mem_insert {m : Memory} {a : Nat} {v : Word} {e : Nat × Word} (h : e ∈ Memory.insert m a v) :
    e = (a, v) ∨ e ∈ m := by
  induction m with
  | nil => simpa [Memory.insert] using h
  | cons f m ih =>
    obtain ⟨b, w⟩ := f
    simp only [Memory.insert] at h
    split at h
    · simpa using h
    · split at h
      · simp only [List.mem_cons] at h ⊢; tauto
      · simp only [List.mem_cons] at h ⊢
        rcases h with h | h
        · exact .inr (.inl h)
        · rcases ih h with h | h <;> tauto

theorem mem_remove {m : Memory} {a : Nat} {e : Nat × Word} (h : e ∈ Memory.remove m a) : e ∈ m := by
  induction m with
  | nil => exact h
  | cons f m ih =>
    obtain ⟨b, w⟩ := f
    simp only [Memory.remove] at h
    split at h
    · exact List.mem_cons_of_mem _ h
    · simp only [List.mem_cons] at h ⊢
      exact h.imp id ih

theorem lookup_insert (m : Memory) (a b : Nat) (v : Word) :
    Memory.lookup (Memory.insert m a v) b = if b = a then some v else Memory.lookup m b := by
  induction m with
  | nil => simp [Memory.insert, Memory.lookup]
  | cons e m ih =>
    obtain ⟨c, w⟩ := e
    simp only [Memory.insert]
    split
    · simp [Memory.lookup]
    · split
      · subst_vars; simp only [Memory.lookup]; split <;> rfl
      · simp only [Memory.lookup, ih]
        split <;> split <;> first | rfl | omega

theorem lookup_remove {lo : Nat} {m : Memory} (h : Memory.rising lo m = true) (a b : Nat) :
    Memory.lookup (Memory.remove m a) b = if b = a then none else Memory.lookup m b := by
  induction m generalizing lo with
  | nil => simp [Memory.remove, Memory.lookup]
  | cons e m ih =>
    obtain ⟨c, w⟩ := e
    simp only [Memory.rising, Bool.and_eq_true, decide_eq_true_eq] at h
    simp only [Memory.remove]
    split
    · subst_vars
      simp only [Memory.lookup]
      split
      · subst_vars; exact lookup_below h.2 (by omega)
      · rfl
    · simp only [Memory.lookup, ih h.2]
      split <;> split <;> first | rfl | omega

theorem wf_rising {rs : List Range} {m : Memory} (h : Memory.wf rs m = true) : Memory.rising 0 m = true := by
  simp only [Memory.wf, Bool.and_eq_true] at h
  exact h.1

theorem wf_iff {rs : List Range} {m : Memory} : Memory.wf rs m = true ↔
    Memory.rising 0 m = true ∧ ∀ e ∈ m, (unlisted rs e.1).isSome = true ∧ unlisted rs e.1 ≠ some e.2 := by
  simp [Memory.wf]

/-- An empty file is in canonical form. -/
@[simp] theorem wf_nil (rs : List Range) : Memory.wf rs [] = true := rfl

/-- Storing a word at a mapped address keeps the canonical form. -/
theorem wf_write {rs : List Range} {m : Memory} {a : Nat} (v : Word) (h : Memory.wf rs m = true)
    (ha : (unlisted rs a).isSome = true) : Memory.wf rs (Memory.write rs m a v) = true := by
  rw [wf_iff] at h ⊢
  simp only [Memory.write]
  split
  · exact ⟨rising_remove h.1, fun e he => h.2 e (mem_remove he)⟩
  · refine ⟨rising_insert v h.1 (by omega), fun e he => ?_⟩
    rcases mem_insert he with rfl | he
    · exact ⟨ha, by assumption⟩
    · exact h.2 e he

/-- Reading after a store: the stored word at its address, everything else as before. -/
theorem read_write {rs : List Range} {m : Memory} {a : Nat} (v : Word) (h : Memory.wf rs m = true)
    (ha : (unlisted rs a).isSome = true) (b : Nat) :
    Memory.read rs (Memory.write rs m a v) b = if b = a then some v else Memory.read rs m b := by
  obtain ⟨dflt, hd⟩ := Option.isSome_iff_exists.1 ha
  simp only [Memory.read, Memory.write]
  split
  · rename_i hv
    rw [lookup_remove (wf_rising h)]
    split
    · subst_vars; simp [hv]
    · rfl
  · rw [lookup_insert]
    split
    · subst_vars; simp [hd]
    · rfl

/-- A covered address reads as a word. -/
theorem read_of_covers {rs : List Range} {r : Range} {a : Nat} (m : Memory) (hr : r ∈ rs)
    (hc : r.covers a = true) : ∃ v, Memory.read rs m a = some v := by
  obtain ⟨v, hv⟩ := unlisted_of_covers hr hc
  exact ⟨(Memory.lookup m a).getD v, by simp [Memory.read, hv]⟩

end Sys2Proof.Machine
end

