-- ==== Sys2Proof/Laws/Cells.lean ====
section
/-! SUPPORT. What the address decoder and the cell accesses answer: one lemma for each shared operation. -/

namespace Sys2Proof.Machine

/-- Where the span decoder succeeds, the range holds the whole span (R48). -/
theorem resolveSpan_ok {rs : List Range} {a q k o : Nat} (h : resolveSpan rs a q = .ok (k, o)) :
    ∃ r, rs[k]? = some r ∧ r.base.toNat ≤ a ∧ a + q ≤ r.limit ∧ o = a - r.base.toNat := by
  simp only [resolveSpan] at h
  split at h
  · rename_i k' o' hr
    obtain ⟨r, hk, hc, ho⟩ := resolve_some hr
    simp only [hk] at h
    split at h
    · simp only [Except.ok.injEq, Prod.mk.injEq] at h
      obtain ⟨rfl, rfl⟩ := h
      exact ⟨r, hk, ((covers_iff r a).1 hc).1, by assumption, ho⟩
    · cases h
  · split at h <;> cases h

theorem readCell_eq {s : State} {sp : Space} {k o : Nat} {r : Range} (hk : (s.cfg.ranges sp)[k]? = some r)
    (ho : o < r.count.toNat) :
    readCell s sp k o = Memory.read (s.cfg.ranges sp) (s.file sp) (r.base.toNat + o) := by
  simp [readCell, hk, ho]

/-- A cell access inside its range gives a word (R26, R47). -/
theorem readCell_some {s : State} {sp : Space} {k o : Nat} {r : Range} (hk : (s.cfg.ranges sp)[k]? = some r)
    (ho : o < r.count.toNat) : ∃ v, readCell s sp k o = some v := by
  rw [readCell_eq hk ho]
  exact read_of_covers _ (List.mem_of_getElem? hk) (by rw [covers_iff]; omega)

@[simp] theorem readCell_setPhase (s : State) (p : Phase) (sp : Space) (k o : Nat) :
    readCell (s.setPhase p) sp k o = readCell s sp k o := by simp [readCell]

@[simp] theorem readCell_setAgenda (s : State) (es : List Event) (sp : Space) (k o : Nat) :
    readCell (s.setAgenda es) sp k o = readCell s sp k o := by simp [readCell]

@[simp] theorem target_setPhase (s : State) (p : Phase) (d : Dispatch) : target (s.setPhase p) d = target s d := rfl

@[simp] theorem target_setAgenda (s : State) (es : List Event) (d : Dispatch) :
    target (s.setAgenda es) d = target s d := rfl

@[simp] theorem target_setHolding (s : State) (m : Memory) (d : Dispatch) :
    target (s.setHolding m) d = target s d := rfl

/-- A store inside its range succeeds. -/
theorem writeCell_eq {s : State} {k o : Nat} {r : Range} (v : Word) (hk : s.cfg.holding[k]? = some r)
    (ho : o < r.count.toNat) :
    writeCell s k o v = some (s.setHolding (Memory.write s.cfg.holding s.holding (r.base.toNat + o) v)) := by
  simp [writeCell, hk, ho]

/-- Everything a store can do: it changes the holding file alone, at one mapped address. -/
theorem writeCell_some {s s' : State} {k o : Nat} {v : Word} (h : writeCell s k o v = some s') :
    ∃ a, (unlisted s.cfg.holding a).isSome = true ∧
      s' = s.setHolding (Memory.write s.cfg.holding s.holding a v) := by
  simp only [writeCell] at h
  split at h
  · cases h
  · rename_i r hk
    split at h
    · rename_i ho
      obtain ⟨w, hw⟩ := unlisted_of_covers (List.mem_of_getElem? hk) (a := r.base.toNat + o)
        (by rw [covers_iff]; omega)
      exact ⟨r.base.toNat + o, by simp [hw], by simpa using h.symm⟩
    · cases h

/-- Everything a store of several words can do: it changes the holding file alone and keeps its canonical form. -/
theorem writeCells_some {s s' : State} {k o : Nat} {vs : List Word} (h : writeCells s k o vs = some s') :
    ∃ m, s' = s.setHolding m ∧
      (Memory.wf s.cfg.holding s.holding = true → Memory.wf s.cfg.holding m = true) := by
  induction vs generalizing s o with
  | nil =>
    simp only [writeCells, Option.some.injEq] at h
    exact ⟨s.holding, by simp [h], id⟩
  | cons v vs ih =>
    simp only [writeCells] at h
    split at h
    · cases h
    · rename_i t ht
      obtain ⟨a, ha, rfl⟩ := writeCell_some ht
      obtain ⟨m, rfl, hm⟩ := ih h
      exact ⟨m, by simp, fun hw => hm (by simpa using wf_write v hw ha)⟩

/-- Storing the words of a span inside a range succeeds; afterwards the span holds the words and every other address
reads as before (R135). -/
theorem writeCells_span {s : State} {k o : Nat} {r : Range} {vs : List Word} (hk : s.cfg.holding[k]? = some r)
    (ho : o + vs.length ≤ r.count.toNat) (hw : Memory.wf s.cfg.holding s.holding = true) :
    ∃ m, writeCells s k o vs = some (s.setHolding m) ∧ Memory.wf s.cfg.holding m = true ∧
      ∀ b, Memory.read s.cfg.holding m b =
        if r.base.toNat + o ≤ b ∧ b < r.base.toNat + o + vs.length then vs[b - (r.base.toNat + o)]?
        else Memory.read s.cfg.holding s.holding b := by
  induction vs generalizing s o with
  | nil =>
    refine ⟨s.holding, by simp [writeCells], hw, fun b => ?_⟩
    rw [if_neg (by simp)]
  | cons v vs ih =>
    simp only [List.length_cons] at ho
    obtain ⟨w, hv⟩ := unlisted_of_covers (List.mem_of_getElem? hk) (a := r.base.toNat + o)
      (by rw [covers_iff]; omega)
    have hm : (unlisted s.cfg.holding (r.base.toNat + o)).isSome = true := by simp [hv]
    obtain ⟨m, h₁, h₂, h₃⟩ := ih
      (s := s.setHolding (Memory.write s.cfg.holding s.holding (r.base.toNat + o) v)) (o := o + 1)
      (by simpa using hk) (by omega) (by simpa using wf_write v hw hm)
    have hstore := writeCell_eq (s := s) (o := o) v hk (by omega)
    refine ⟨m, by simpa [writeCells, hstore] using h₁, by simpa using h₂, fun b => ?_⟩
    have hb := h₃ b
    simp only [setHolding_cfg, setHolding_holding] at hb
    rw [hb, read_write v hw hm]
    simp only [List.length_cons]
    by_cases h₄ : r.base.toNat + (o + 1) ≤ b ∧ b < r.base.toNat + (o + 1) + vs.length
    · rw [if_pos h₄, if_pos (by omega)]
      obtain ⟨j, rfl⟩ : ∃ j, b = r.base.toNat + o + (j + 1) := ⟨b - (r.base.toNat + o) - 1, by omega⟩
      rw [show r.base.toNat + o + (j + 1) - (r.base.toNat + (o + 1)) = j by omega,
        show r.base.toNat + o + (j + 1) - (r.base.toNat + o) = j + 1 by omega]
      rfl
    · rw [if_neg h₄]
      by_cases h₅ : b = r.base.toNat + o
      · subst h₅; rw [if_pos rfl, if_pos (by omega)]; simp
      · rw [if_neg h₅, if_neg (by omega)]

/-- The raw cells of a span inside a range: one for each address, in order (R119). -/
theorem rawCells_span {s : State} {sp : Space} {k o n : Nat} {r : Range} (hk : (s.cfg.ranges sp)[k]? = some r)
    (ho : o + n ≤ r.count.toNat) :
    ∃ vs, rawCells s sp k o n = some vs ∧ vs.length = n ∧ ∀ i < n, vs[i]? = readCell s sp k (o + i) := by
  induction n generalizing o with
  | zero => exact ⟨[], rfl, rfl, by simp⟩
  | succ n ih =>
    obtain ⟨v, hv⟩ := readCell_some hk (o := o) (by omega)
    obtain ⟨vs, h₁, h₂, h₃⟩ := ih (o := o + 1) (by omega)
    refine ⟨v :: vs, by simp [rawCells, hv, h₁], by simp [h₂], fun i hi => ?_⟩
    cases i with
    | zero => simp [hv]
    | succ i =>
      have := h₃ i (by omega)
      rw [show o + (i + 1) = o + 1 + i by omega, ← this]
      rfl

/-- Validation succeeds exactly with a target the span lies in (R94). -/
theorem validate_ok {cfg : Configuration} {d : Dispatch} {sp : Space} {k : Nat} (h : validate cfg d = .ok (sp, k))
    (st : Stage) : ∃ r, Located cfg { d with tgt := some (sp, k), stage := st } k r sp := by
  simp only [validate] at h
  split at h
  · cases h
  · rename_i sp' hsp
    split at h
    · rename_i hq
      split at h
      · cases h
      · rename_i k' o' hr
        simp only [Except.ok.injEq, Prod.mk.injEq] at h
        obtain ⟨rfl, rfl⟩ := h
        obtain ⟨r, h₁, h₂, h₃, -⟩ := resolveSpan_ok hr
        exact ⟨r, hsp, hq, rfl, h₁, h₂, h₃⟩
    · cases h

/-- Where a request is located, its target is readable (R110, R130). -/
theorem target_located {s : State} {d : Dispatch} {k : Nat} {r : Range} {sp : Space}
    (h : Located s.cfg d k r sp) : target s d = some (sp, k, r, d.addr.toNat - r.base.toNat) := by
  have hb : r.base ≤ d.addr := h.base
  simp [target, h.tgt, h.range, hb]

/-- The start of a located span and its length stay inside the range (R47). -/
theorem located_offset {cfg : Configuration} {d : Dispatch} {k : Nat} {r : Range} {sp : Space}
    (h : Located cfg d k r sp) : d.addr.toNat - r.base.toNat + d.qty.toNat ≤ r.count.toNat := by
  have h₁ := h.base
  have h₂ : d.addr.toNat + d.qty.toNat ≤ r.base.toNat + r.count.toNat := h.limit
  omega

/-- Whether a request is located does not depend on its stage or on what it has gathered. -/
theorem located_of {cfg : Configuration} {d : Dispatch} {k : Nat} {r : Range} {sp : Space}
    (h : Located cfg d k r sp) (st : Stage) (acc : List Word) :
    Located cfg { d with stage := st, acc := acc } k r sp :=
  ⟨h.space, h.quantity, h.tgt, h.range, h.base, h.limit⟩

end Sys2Proof.Machine
end

