-- ==== Sys2Proof/Laws/Decode.lean ====
section
/-! SUPPORT. The fields of a header, and the number of words a descriptor has. -/

namespace Sys2Proof

@[simp] theorem headerFc_mkHeader (fc : Byte) (addr qty : Word) : headerFc (mkHeader fc addr qty) = fc := by
  apply BitVec.eq_of_getLsbD_eq
  intro i hi
  simp only [headerFc, mkHeader, BitVec.getLsbD_extractLsb', BitVec.getLsbD_append]
  simp [hi, show ¬ (32 + i < 16) by omega, show ¬ (32 + i - 16 < 16) by omega,
    show 32 + i - 16 - 16 = i by omega]

@[simp] theorem headerAddr_mkHeader (fc : Byte) (addr qty : Word) : headerAddr (mkHeader fc addr qty) = addr := by
  apply BitVec.eq_of_getLsbD_eq
  intro i hi
  simp only [headerAddr, mkHeader, BitVec.getLsbD_extractLsb', BitVec.getLsbD_append]
  simp [hi, show ¬ (16 + i < 16) by omega]

@[simp] theorem headerQty_mkHeader (fc : Byte) (addr qty : Word) : headerQty (mkHeader fc addr qty) = qty := by
  apply BitVec.eq_of_getLsbD_eq
  intro i hi
  simp only [headerQty, mkHeader, BitVec.getLsbD_extractLsb', BitVec.getLsbD_append]
  simp [hi]

/-- A header is made of its three fields (R60). -/
theorem mkHeader_fields (h : BitVec 40) : mkHeader (headerFc h) (headerAddr h) (headerQty h) = h := by
  apply BitVec.eq_of_getLsbD_eq
  intro i hi
  simp only [mkHeader, headerFc, headerAddr, headerQty, BitVec.getLsbD_append, BitVec.getLsbD_extractLsb']
  by_cases h₁ : i < 16
  · simp [h₁]
  · by_cases h₂ : i - 16 < 16
    · simp [h₁, h₂, show 16 + (i - 16) = i by omega]
    · simp [h₁, h₂, show 32 + (i - 16 - 16) = i by omega, show i - 16 - 16 < 8 by omega]

/-- A code outside the table is of no supported kind, and the other way round (R65). -/
theorem kindOf_unsupported_iff (fc : Byte) : kindOf fc = .unsupported ↔ supportedCodes.contains fc = false := by
  simp only [kindOf, supportedCodes, List.contains_cons, List.contains_nil, Bool.or_false, Bool.or_eq_false_iff,
    beq_eq_false_iff_ne, ne_eq]
  split
  · simp_all
  · split
    · simp_all
    · split
      · simp_all
      · split <;> simp_all

/-- A supported kind has one code (R63). -/
theorem code_of_kind {fc : Byte} : (kindOf fc = .readHolding → fc = 0x03) ∧ (kindOf fc = .readInput → fc = 0x04) ∧
    (kindOf fc = .writeHolding → fc = 0x06) ∧ (kindOf fc = .writeMultipleHolding → fc = 0x10) := by
  unfold kindOf
  refine ⟨?_, ?_, ?_, ?_⟩ <;> (repeat' split) <;> simp_all

end Sys2Proof
end

