-- ==== Sys2Proof/Laws/Engine.lean ====
section
/-! SUPPORT. What the engine's steps can do. `engineStep_next` and `settle_next` say what changes in any state;
`engineStep_ok` and `settle_ok` say that under the invariant a step answers a next state, keeps the invariant and comes
nearer to a wait. -/

namespace Sys2Proof.Machine

/-- The kinds by the space they reach. -/
theorem kindHook_of_space {k : Kind} {sp : Space} (h : kindSpace k = some sp) : ∃ hk, kindHook k = some hk := by
  cases k <;> simp [kindSpace, kindHook] at h ⊢

/-- `t` differs from `s` in the holding file and the phase at most, and the file's canonical form is kept. -/
def EngineEffect (s t : State) : Prop :=
  ∃ m p, t = (s.setHolding m).setPhase p ∧
    (Memory.wf s.cfg.holding s.holding = true → Memory.wf s.cfg.holding m = true)

theorem EngineEffect.refl (s : State) : EngineEffect s s := ⟨s.holding, s.phase, rfl, id⟩

theorem EngineEffect.phase (s : State) (p : Phase) : EngineEffect s (s.setPhase p) := ⟨s.holding, p, rfl, id⟩

theorem EngineEffect.trans {s t u : State} (h₁ : EngineEffect s t) (h₂ : EngineEffect t u) : EngineEffect s u := by
  obtain ⟨m, p, rfl, hm⟩ := h₁
  obtain ⟨n, q, rfl, hn⟩ := h₂
  exact ⟨n, q, by simp, fun h => hn (hm h)⟩

theorem EngineEffect.cfg {s t : State} (h : EngineEffect s t) : t.cfg = s.cfg := by
  obtain ⟨_, _, rfl, -⟩ := h; rfl

theorem EngineEffect.input {s t : State} (h : EngineEffect s t) : t.input = s.input := by
  obtain ⟨_, _, rfl, -⟩ := h; rfl

theorem EngineEffect.agenda {s t : State} (h : EngineEffect s t) : t.agenda = s.agenda := by
  obtain ⟨_, _, rfl, -⟩ := h; rfl

theorem EngineEffect.restarts {s t : State} (h : EngineEffect s t) : t.restarts = s.restarts := by
  obtain ⟨_, _, rfl, -⟩ := h; rfl

theorem EngineEffect.holding {s t : State} (h : EngineEffect s t)
    (hw : Memory.wf s.cfg.holding s.holding = true) : Memory.wf t.cfg.holding t.holding = true := by
  obtain ⟨m, _, rfl, hm⟩ := h; exact hm hw

theorem EngineEffect.store {s t : State} {k o : Nat} {v : Word} (h : writeCell s k o v = some t) :
    EngineEffect s t := by
  obtain ⟨a, ha, rfl⟩ := writeCell_some h
  exact ⟨_, s.phase, rfl, fun hw => wf_write v hw ha⟩

theorem EngineEffect.stores {s t : State} {k o : Nat} {vs : List Word} (h : writeCells s k o vs = some t) :
    EngineEffect s t := by
  obtain ⟨m, rfl, hm⟩ := writeCells_some h
  exact ⟨m, s.phase, rfl, hm⟩

/-- Everything `validateStep` can do. -/
theorem validateStep_next (s : State) (d : Dispatch) : ∃ p, validateStep s d = .next (s.setPhase p) := by
  unfold validateStep
  split <;> exact ⟨_, rfl⟩

/-- Everything an access step of a read can do. -/
theorem accessRead_next {s t : State} {d : Dispatch} {i : Nat} (h : accessRead s d i = .next t) :
    ∃ p, t = s.setPhase p := by
  unfold accessRead at h
  split at h
  · cases h
  · split at h
    · cases h
    · split at h <;> (cases h; exact ⟨_, rfl⟩)

/-- Everything the settling of one value of a write can do. -/
theorem settleValue_next {s t : State} {d : Dispatch} {k o i : Nat} {v : Word}
    (h : settleValue s d k o i v = .next t) : EngineEffect s t := by
  unfold settleValue at h
  split at h
  · cases h; exact .phase _ _
  · split at h
    · cases h
    · rename_i s' hs
      cases h
      exact (EngineEffect.store hs).trans (.phase _ _)

/-- Everything an access step of a write can do. -/
theorem accessWrite_next {s t : State} {d : Dispatch} {i : Nat} (h : accessWrite s d i = .next t) :
    EngineEffect s t := by
  unfold accessWrite at h
  split at h
  · cases h
  · split at h
    · cases h
    · split at h
      · cases h; exact .phase _ _
      · exact settleValue_next h

/-- Everything an answer to a write hook can do. -/
theorem answerWrite_next {s t : State} {d : Dispatch} {i : Nat} {v : Word} (h : answerWrite s d i v = .next t) :
    EngineEffect s t := by
  unfold answerWrite at h
  split at h
  · cases h
  · exact settleValue_next h

/-- Everything the commit of a write can do. -/
theorem commitWrite_next {s t : State} {d : Dispatch} (h : commitWrite s d = .next t) : EngineEffect s t := by
  unfold commitWrite at h
  split at h
  · cases h
  · split at h
    · cases h
    · split at h
      · cases h
      · rename_i s' hs
        cases h
        refine EngineEffect.trans ?_ (.phase _ _)
        unfold commitCells at hs
        split at hs
        · exact .stores hs
        · cases hs; exact .refl _

/-- Everything one engine step can do, in any state (R27, R95): the holding file and the phase change at most. -/
theorem engineStep_next {s t : State} {d : Dispatch} (h : engineStep s d = .next t) : EngineEffect s t := by
  unfold engineStep at h
  split at h
  · obtain ⟨p, hp⟩ := validateStep_next s d
    rw [hp] at h; cases h; exact .phase _ _
  · split at h
    · unfold accessStep at h
      split at h
      · obtain ⟨p, rfl⟩ := accessRead_next h; exact .phase _ _
      · obtain ⟨p, rfl⟩ := accessRead_next h; exact .phase _ _
      · exact accessWrite_next h
      · exact accessWrite_next h
      · cases h
    · split at h
      · cases h; exact .phase _ _
      · cases h
  · cases h; exact .refl _
  · unfold commitStep at h
    split at h
    · cases h; exact .phase _ _
    · cases h; exact .phase _ _
    · exact commitWrite_next h
    · exact commitWrite_next h
    · cases h

/-- A property that every engine step keeps is kept by the merged steps (R101). -/
theorem settle_keeps {P : State → Prop}
    (hstep : ∀ s d t, engineTurn s.phase = some d → P s → engineStep s d = .next t → P t) :
    ∀ {n : Nat} {s t : State}, P s → settle n s = .next t → P t
  | 0, s, t, hs, h => by simp only [settle, Host.Outcome.next.injEq] at h; exact h ▸ hs
  | n + 1, s, t, hs, h => by
    simp only [settle] at h
    split at h
    · cases h; exact hs
    · rename_i d hd
      split at h
      · rename_i s' hs'
        exact settle_keeps hstep (hstep s d s' hd hs hs') h
      · cases h
      · cases h

/-- Everything the merged steps can do, in any state. -/
theorem settle_next {n : Nat} {s t : State} (h : settle n s = .next t) : EngineEffect s t :=
  settle_keeps (P := EngineEffect s) (fun _ _ _ _ h₁ h₂ => h₁.trans (engineStep_next h₂)) (.refl s) h

theorem runEngine_next {s t : State} (h : runEngine s = .next t) : EngineEffect s t := by
  unfold runEngine at h
  split at h
  · cases h; exact .refl _
  · cases h; exact .refl _
  · cases h; exact .refl _
  · exact settle_next h

/-- Everything serving a request can do, in any state. -/
theorem serve_next {fc : Byte} {addr qty : Word} {vals : List Word} {s t : State}
    (h : serve fc addr qty vals s = .next t) : EngineEffect s t := by
  unfold serve at h
  split at h
  · cases h; exact .refl _
  · cases h; exact .refl _
  · cases h; exact .refl _
  · split at h
    · exact (EngineEffect.phase _ _).trans (runEngine_next h)
    · cases h; exact .refl _
    · cases h; exact .refl _
    · cases h; exact .refl _

/-- Everything an answer of a hook unit can do (T5), in any state. -/
theorem answerHook_next {a : HookAnswer} {s t : State} (h : answerHook a s = .next t) : EngineEffect s t := by
  unfold answerHook at h
  split at h
  any_goals cases h
  split at h
  any_goals cases h
  split at h
  · cases h; exact .phase _ _
  · unfold acceptAnswer at h
    split at h
    · unfold answerRead at h; cases h; exact .phase _ _
    · unfold answerRead at h; cases h; exact .phase _ _
    · exact answerWrite_next h
    · exact answerWrite_next h
    · cases h

/-- How many engine steps a phase is away from a wait, at most (R96). -/
def stepsToWait (p : Phase) : Nat :=
  match p with
  | .halted _ => 0
  | .idle => 0
  | .replying _ => 0
  | .dispatching d =>
    match d.stage with
    | .validate => d.qty.toNat + 3
    | .access i => d.qty.toNat - i + 2
    | .hookWait _ => 0
    | .commit => 1

theorem engineTurn_some {p : Phase} {d : Dispatch} (h : engineTurn p = some d) :
    p = .dispatching d ∧ callOutstanding p = false := by
  unfold engineTurn at h
  split at h
  any_goals cases h
  split at h
  any_goals cases h
  all_goals (rename_i hst; simp [callOutstanding, hst])

/-- The words a located write carries are as many as its quantity (R61, R94). -/
theorem located_vals {cfg : Configuration} {d : Dispatch} {k : Nat} {r : Range} {sp : Space}
    (h : Located cfg d k r sp) (hv : d.vals.length = dataWords (kindOf d.fc) d.qty)
    (hk : kindHook (kindOf d.fc) = some .write) : d.vals.length = d.qty.toNat := by
  have hq := h.quantity
  rw [hv]
  cases hkind : kindOf d.fc <;> simp_all [kindHook, dataWords, quantityLegal]

/-- A write is located in the holding space (R42). -/
theorem located_write_space {cfg : Configuration} {d : Dispatch} {k : Nat} {r : Range} {sp : Space}
    (h : Located cfg d k r sp) (hk : kindHook (kindOf d.fc) = some .write) : sp = .holding := by
  have hs := h.space
  cases hkind : kindOf d.fc <;> simp_all [kindHook, kindSpace]

/-- The target of a located write (R130). -/
theorem writeTarget_located {s : State} {d : Dispatch} {k : Nat} {r : Range} {sp : Space}
    (h : Located s.cfg d k r sp) (hk : kindHook (kindOf d.fc) = some .write) :
    writeTarget s d = some (k, r, d.addr.toNat - r.base.toNat) := by
  obtain rfl := located_write_space h hk
  simp [writeTarget, target_located h]

/-- A step's answer is a next state in which the invariant holds and which is nearer to a wait than `n`. -/
def Progress (s : State) (n : Nat) (x : Result) : Prop :=
  ∃ t, x = .next t ∧ EngineEffect s t ∧ PhaseOk t.cfg t.phase ∧ stepsToWait t.phase < n

/-- Validation keeps the invariant (R94). -/
theorem validateStep_ok {s : State} {d : Dispatch} (hc : constructionError s.cfg = none) (hd : DispatchOk s.cfg d)
    (hst : d.stage = .validate) : Progress s (d.qty.toNat + 3) (validateStep s d) := by
  obtain ⟨hv, hs⟩ := hd
  simp only [StageOk, hst] at hs
  unfold validateStep
  split
  · exact ⟨_, rfl, .phase _ _, hc, by simp [stepsToWait]⟩
  · rename_i sp k hval
    obtain ⟨r, hr⟩ := validate_ok hval (.access 0)
    exact ⟨_, rfl, .phase _ _, ⟨hc, hv, ⟨k, r, sp, hr⟩, Nat.zero_le _, by simp [hs.2]⟩, by simp [stepsToWait]⟩

/-- An access step of a read keeps the invariant (R114). -/
theorem accessRead_ok {s : State} {d : Dispatch} {i k : Nat} {r : Range} {sp : Space}
    (hc : constructionError s.cfg = none) (hv : d.vals.length = dataWords (kindOf d.fc) d.qty)
    (hr : Located s.cfg d k r sp) (hi : i < d.qty.toNat) (ha : d.acc.length = i)
    (hk : kindHook (kindOf d.fc) = some .read) : Progress s (d.qty.toNat - i + 2) (accessRead s d i) := by
  obtain ⟨raw, hraw⟩ := readCell_some hr.range (o := d.addr.toNat - r.base.toNat + i)
    (by have := located_offset hr; omega)
  simp only [accessRead, target_located hr, hraw]
  split
  · rename_i hrd
    exact ⟨_, rfl, .phase _ _, ⟨hc, hv, ⟨k, r, sp, .read, located_of hr _ _, hk, hrd⟩, hi, ha⟩,
      by simp [stepsToWait]⟩
  · exact ⟨_, rfl, .phase _ _, ⟨hc, hv, ⟨k, r, sp, located_of hr _ _⟩, by simpa using hi, by simp [ha]⟩,
      by simp [stepsToWait]; omega⟩

/-- Settling one value of a write keeps the invariant (R133, R134, R136). -/
theorem settleValue_ok {s : State} {d : Dispatch} {i k : Nat} {r : Range} {sp : Space} {v : Word}
    (hc : constructionError s.cfg = none) (hv : d.vals.length = dataWords (kindOf d.fc) d.qty)
    (hr : Located s.cfg d k r sp) (hi : i < d.qty.toNat) (ha : d.acc.length = i)
    (hk : kindHook (kindOf d.fc) = some .write) :
    Progress s (d.qty.toNat - i + 2) (settleValue s d k (d.addr.toNat - r.base.toNat) i v) := by
  obtain rfl := located_write_space hr hk
  have hend := located_offset hr
  unfold settleValue
  split
  · exact ⟨_, rfl, .phase _ _,
      ⟨hc, hv, ⟨k, r, .holding, located_of hr _ _⟩, by simpa using hi, by simp [ha]⟩,
      by simp [stepsToWait]; omega⟩
  · have hs := writeCell_eq v hr.range (o := d.addr.toNat - r.base.toNat + i) (by omega)
    rw [hs]
    exact ⟨_, rfl, (EngineEffect.store hs).trans (.phase _ _),
      ⟨hc, hv, ⟨k, r, .holding, located_of hr _ _⟩, by simpa using hi, by simp [ha]⟩,
      by simp [stepsToWait]; omega⟩

/-- An access step of a write keeps the invariant (R133). -/
theorem accessWrite_ok {s : State} {d : Dispatch} {i k : Nat} {r : Range} {sp : Space}
    (hc : constructionError s.cfg = none) (hv : d.vals.length = dataWords (kindOf d.fc) d.qty)
    (hr : Located s.cfg d k r sp) (hi : i < d.qty.toNat) (ha : d.acc.length = i)
    (hk : kindHook (kindOf d.fc) = some .write) : Progress s (d.qty.toNat - i + 2) (accessWrite s d i) := by
  have hlen := located_vals hr hv hk
  have hval : d.vals[i]? = some (d.vals[i]'(by omega)) := List.getElem?_eq_getElem _
  simp only [accessWrite, writeTarget_located hr hk, hval]
  split
  · rename_i hwr
    exact ⟨_, rfl, .phase _ _, ⟨hc, hv, ⟨k, r, sp, .write, located_of hr _ _, hk, hwr⟩, hi, ha⟩,
      by simp [stepsToWait]⟩
  · exact settleValue_ok hc hv hr hi ha hk

/-- The echo of a located write exists (R139). -/
theorem echoReply_some {d : Dispatch}
    (hv : d.vals.length = dataWords (kindOf d.fc) d.qty)
    (hk : kindHook (kindOf d.fc) = some .write) : ∃ e, echoReply d = some e := by
  unfold echoReply
  cases hkind : kindOf d.fc <;> simp_all [kindHook]
  · cases hvals : d.vals with
    | nil => simp [hvals, dataWords] at hv
    | cons v vs => exact ⟨v, by simp⟩

/-- The commit of a write keeps the invariant (R135). -/
theorem commitWrite_ok {s : State} {d : Dispatch} {k : Nat} {r : Range} {sp : Space}
    (hc : constructionError s.cfg = none) (hv : d.vals.length = dataWords (kindOf d.fc) d.qty)
    (hr : Located s.cfg d k r sp) (ha : d.acc.length = d.qty.toNat)
    (hw : Memory.wf s.cfg.holding s.holding = true)
    (hk : kindHook (kindOf d.fc) = some .write) : Progress s 1 (commitWrite s d) := by
  obtain rfl := located_write_space hr hk
  have hend := located_offset hr
  obtain ⟨e, he⟩ := echoReply_some hv hk
  simp only [commitWrite, writeTarget_located hr hk, he, commitCells]
  cases hp : s.cfg.failPolicy with
  | atomic =>
    obtain ⟨m, hm, hm₂, -⟩ := writeCells_span (o := d.addr.toNat - r.base.toNat) (vs := d.acc) hr.range
      (by omega) hw
    refine ⟨(s.setHolding m).setPhase (.replying e), ?_, ⟨m, _, rfl, fun _ => hm₂⟩, hc, by simp [stepsToWait]⟩
    simp [hm]
  | prefixed => exact ⟨_, rfl, .phase _ _, hc, by simp [stepsToWait]⟩

/-- One engine step under the invariant: no fault, the invariant kept, one step nearer to a wait (R47, R96, R103). -/
theorem engineStep_ok {s : State} {d : Dispatch} (hc : constructionError s.cfg = none) (hd : DispatchOk s.cfg d)
    (hw : Memory.wf s.cfg.holding s.holding = true) (ht : ∀ i, d.stage ≠ .hookWait i) :
    Progress s (stepsToWait (.dispatching d)) (engineStep s d) := by
  unfold engineStep
  cases hst : d.stage with
  | validate => simpa [stepsToWait, hst] using validateStep_ok hc hd hst
  | access i =>
    obtain ⟨hv, hs⟩ := hd
    simp only [StageOk, hst] at hs
    obtain ⟨⟨k, r, sp, hr⟩, hi, ha⟩ := hs
    simp only [stepsToWait, hst]
    split
    · rename_i hlt
      unfold accessStep
      cases hkind : kindOf d.fc with
      | readHolding => exact accessRead_ok hc hv hr hlt ha (by simp [hkind, kindHook])
      | readInput => exact accessRead_ok hc hv hr hlt ha (by simp [hkind, kindHook])
      | writeHolding => exact accessWrite_ok hc hv hr hlt ha (by simp [hkind, kindHook])
      | writeMultipleHolding => exact accessWrite_ok hc hv hr hlt ha (by simp [hkind, kindHook])
      | unsupported => have := hr.space; simp [hkind, kindSpace] at this
    · split
      · exact ⟨_, rfl, .phase _ _,
          ⟨hc, hv, ⟨k, r, sp, located_of hr _ _⟩, by simp; omega⟩, by simp [stepsToWait]⟩
      · omega
  | hookWait i => exact absurd hst (ht i)
  | commit =>
    obtain ⟨hv, hs⟩ := hd
    simp only [StageOk, hst] at hs
    obtain ⟨⟨k, r, sp, hr⟩, ha⟩ := hs
    simp only [stepsToWait, hst]
    unfold commitStep
    cases hkind : kindOf d.fc with
    | readHolding => exact ⟨_, rfl, .phase _ _, hc, by simp [stepsToWait]⟩
    | readInput => exact ⟨_, rfl, .phase _ _, hc, by simp [stepsToWait]⟩
    | writeHolding => exact commitWrite_ok hc hv hr ha hw (by simp [hkind, kindHook])
    | writeMultipleHolding => exact commitWrite_ok hc hv hr ha hw (by simp [hkind, kindHook])
    | unsupported => have := hr.space; simp [hkind, kindSpace] at this

/-- The merged steps under the invariant: they end in a state that waits for another agent (R101). -/
theorem settle_ok {n : Nat} {s : State} (hp : PhaseOk s.cfg s.phase)
    (hw : Memory.wf s.cfg.holding s.holding = true) (hn : stepsToWait s.phase ≤ n) :
    ∃ t, settle n s = .next t ∧ EngineEffect s t ∧ PhaseOk t.cfg t.phase ∧ engineTurn t.phase = none := by
  induction n generalizing s with
  | zero =>
    refine ⟨s, rfl, .refl s, hp, ?_⟩
    cases hph : s.phase with
    | dispatching d => cases hst : d.stage <;> simp [hph, hst, stepsToWait] at hn; simp [engineTurn, hst]
    | _ => rfl
  | succ n ih =>
    simp only [settle]
    split
    · exact ⟨s, rfl, .refl s, hp, by assumption⟩
    · rename_i d hd
      obtain ⟨hph, hout⟩ := engineTurn_some hd
      have hok : constructionError s.cfg = none ∧ DispatchOk s.cfg d := by simpa [hph, PhaseOk] using hp
      obtain ⟨t, ht, heff, hpt, hlt⟩ := engineStep_ok hok.1 hok.2 hw
        (fun i hst => by simp [callOutstanding, hph, hst] at hout)
      rw [← hph] at hlt
      obtain ⟨u, hu, heff', hpu, hwait⟩ := ih (s := t) hpt (heff.holding hw) (by omega)
      exact ⟨u, by simp [ht, hu], heff.trans heff', hpu, hwait⟩

theorem runEngine_ok {s : State} (hp : PhaseOk s.cfg s.phase) (hw : Memory.wf s.cfg.holding s.holding = true) :
    ∃ t, runEngine s = .next t ∧ EngineEffect s t ∧ PhaseOk t.cfg t.phase ∧ engineTurn t.phase = none := by
  unfold runEngine
  cases hph : s.phase with
  | dispatching d =>
    refine settle_ok hp hw ?_
    cases hst : d.stage <;> (simp [stepsToWait, hph, hst, settleFuel]; try omega)
  | _ => exact ⟨s, rfl, .refl s, hp, by simp [hph, engineTurn]⟩

/-- Serving an accepted request, under the invariant: it answers a state that waits. -/
theorem serve_ok {fc : Byte} {addr qty : Word} {vals : List Word} {s : State} {d : Dispatch}
    (hi : s.phase = .dispatching d) (hst : d.stage = .validate) (hc : constructionError s.cfg = none)
    (hw : Memory.wf s.cfg.holding s.holding = true) (hv : vals.length = dataWords (kindOf fc) qty) :
    ∃ t, serve fc addr qty vals s = .next t ∧ EngineEffect s t ∧ PhaseOk t.cfg t.phase ∧
      engineTurn t.phase = none := by
  simp only [serve, hi, hst]
  obtain ⟨t, h₁, h₂, h₃⟩ := runEngine_ok
    (s := s.setPhase (.dispatching (newDispatch fc addr qty vals))) ⟨hc, hv, rfl, rfl⟩ hw
  exact ⟨t, h₁, (EngineEffect.phase _ _).trans h₂, h₃⟩

/-- An answer of the called unit, under the invariant (T5): the request ends, or goes on with the next address. -/
theorem answerHook_ok {a : HookAnswer} {s : State} {d : Dispatch} {i : Nat} (hph : s.phase = .dispatching d)
    (hst : d.stage = .hookWait i) (hp : PhaseOk s.cfg s.phase) :
    ∃ t, answerHook a s = .next t ∧ EngineEffect s t ∧ PhaseOk t.cfg t.phase := by
  simp only [hph, PhaseOk] at hp
  obtain ⟨hc, hv, hs⟩ := hp
  simp only [StageOk, hst] at hs
  obtain ⟨⟨k, r, sp, h, hr, hk, hh⟩, hi, ha⟩ := hs
  simp only [answerHook, hph, hst]
  cases a with
  | fail => exact ⟨_, rfl, .phase _ _, hc⟩
  | ok v =>
    have hacc : Progress s (d.qty.toNat - i + 2) (acceptAnswer s d i v) := by
      unfold acceptAnswer
      cases hkind : kindOf d.fc with
      | readHolding =>
        exact ⟨_, rfl, .phase _ _, ⟨hc, hv, ⟨k, r, sp, located_of hr _ _⟩, by simpa using hi, by simp [ha]⟩,
          by simp [stepsToWait]; omega⟩
      | readInput =>
        exact ⟨_, rfl, .phase _ _, ⟨hc, hv, ⟨k, r, sp, located_of hr _ _⟩, by simpa using hi, by simp [ha]⟩,
          by simp [stepsToWait]; omega⟩
      | writeHolding =>
        have hk' : kindHook (kindOf d.fc) = some .write := by simp [hkind, kindHook]
        simp only [answerWrite, writeTarget_located hr hk']
        exact settleValue_ok hc hv hr hi ha hk'
      | writeMultipleHolding =>
        have hk' : kindHook (kindOf d.fc) = some .write := by simp [hkind, kindHook]
        simp only [answerWrite, writeTarget_located hr hk']
        exact settleValue_ok hc hv hr hi ha hk'
      | unsupported => have := hr.space; simp [hkind, kindSpace] at this
    obtain ⟨t, ht, heff, hpt, -⟩ := hacc
    exact ⟨t, ht, heff, hpt⟩

end Sys2Proof.Machine
end

