-- ==== Sys2Proof/Laws/Step.lean ====
section
/-! SUPPORT. What a request and a step can do: the agenda's next event, the turn it makes, and what each turn needs. -/

namespace Sys2Proof.Machine

/-- Everything a request can do, in any state: the holding file and the phase change at most (R27, R95). -/
theorem exec_next {i : Instr} {s t : State} (h : exec i s = .next t) : EngineEffect s t := by
  cases i <;> exact serve_next h

/-- Where no request waits to be served, nothing happens. -/
theorem serve_busy {fc : Byte} {addr qty : Word} {vals : List Word} {s : State}
    (h : ∀ d, s.phase = .dispatching d → d.stage ≠ .validate) : serve fc addr qty vals s = .next s := by
  cases hp : s.phase with
  | dispatching d =>
    cases hst : d.stage with
    | validate => exact absurd hst (h d hp)
    | _ => simp [serve, hp, hst]
  | _ => simp [serve, hp]

/-- The record of an accepted request holds that request (R93). -/
theorem requestOf_dispatchOf (i : Instr) : requestOf (dispatchOf i) = encode i := by
  simp [requestOf, dispatchOf, newDispatch, mkHeader_fields]

@[simp] theorem dispatchOf_stage (i : Instr) : (dispatchOf i).stage = .validate := rfl
@[simp] theorem acceptRequest_eq (i : Instr) (s : State) :
    acceptRequest i s = s.setPhase (.dispatching (dispatchOf i)) := rfl

/-- What the decoder accepts is well-formed (R63, R64). -/
theorem decode_wellFormed {d : Descriptor} {i : Instr} (h : decode d = .ok i) : i.WellFormed := by
  have hs : ∀ fc, kindOf fc = .unsupported → supportedCodes.contains fc = false := fun fc => (kindOf_unsupported_iff fc).1
  simp only [decode] at h
  split at h
  all_goals first | cases h; (try rfl) | (split at h <;> cases h)
  · rename_i hlen; simpa [Instr.WellFormed, Instr.wellFormed] using hlen
  · rename_i hk; simpa [Instr.WellFormed, Instr.wellFormed] using hs _ hk

/-- The port accepts what the decoder accepts of a well-formed descriptor, and refuses every other one (R93). -/
theorem portDecode_of_wellFormed {d : Descriptor} (h : d.WellFormed) : portDecode d = decode d := if_pos h

theorem portDecode_of_illFormed {d : Descriptor} (h : ¬ d.WellFormed) :
    portDecode d = .error (.wrongWordCount d.calledFor d.words.length) := if_neg h

/-- A well-formed request has the data words of its record's header (R64). -/
theorem dispatchOf_words {i : Instr} (h : i.WellFormed) :
    (dispatchOf i).vals.length = dataWords (kindOf (dispatchOf i).fc) (dispatchOf i).qty := by
  cases i with
  | writeMultipleHolding addr qty values =>
    simpa [dispatchOf, newDispatch, encode, dataWords, kindOf, Instr.WellFormed, Instr.wellFormed] using h
  | unsupported fc addr qty =>
    have hk : kindOf fc = .unsupported := by
      rw [kindOf_unsupported_iff]; simpa [Instr.WellFormed, Instr.wellFormed] using h
    simp [dispatchOf, newDispatch, encode, dataWords, hk]
  | _ => simp [dispatchOf, newDispatch, encode, dataWords, kindOf]

/-- The next event is an enabled one, and the agenda loses it alone. -/
theorem nextEvent_some {s : State} {es rest : List Event} {e : Event} (h : nextEvent s es = some (e, rest)) :
    eventEnabled s e = true ∧ ∃ pre post, es = pre ++ e :: post ∧ rest = pre ++ post ∧
      ∀ x ∈ pre, eventEnabled s x = false := by
  induction es generalizing rest with
  | nil => simp [nextEvent] at h
  | cons x es ih =>
    simp only [nextEvent] at h
    split at h
    · simp only [Option.some.injEq, Prod.mk.injEq] at h
      obtain ⟨rfl, rfl⟩ := h
      exact ⟨by assumption, [], es, rfl, rfl, by simp⟩
    · rename_i hx
      simp only [Option.map_eq_some_iff, Prod.mk.injEq, Prod.exists] at h
      obtain ⟨e', rest', hn, rfl, rfl⟩ := h
      obtain ⟨h₁, pre, post, rfl, rfl, h₂⟩ := ih hn
      exact ⟨h₁, x :: pre, post, rfl, rfl, by simpa using ⟨by simpa using hx, h₂⟩⟩

/-- There is no next event exactly where none of the agenda is enabled. -/
theorem nextEvent_none_iff {s : State} {es : List Event} :
    nextEvent s es = none ↔ ∀ e ∈ es, eventEnabled s e = false := by
  induction es with
  | nil => simp [nextEvent]
  | cons x es ih =>
    by_cases hx : eventEnabled s x = true
    · simp [nextEvent, hx]
    · simp [nextEvent, hx, ih]

/-- Which events a waiting engine enables (R93, R99, R170). -/
theorem eventEnabled_submit {s : State} {d : Descriptor} : eventEnabled s (.submit d) = true ↔ s.phase = .idle := by
  cases hp : s.phase <;> simp [eventEnabled, hp]

theorem eventEnabled_take {s : State} : eventEnabled s .take = true ↔ ∃ r, s.phase = .replying r := by
  cases hp : s.phase <;> simp [eventEnabled, hp]

theorem eventEnabled_answer {s : State} {n : Nat} {a : HookAnswer} : eventEnabled s (.answer n a) = true ↔
    (∀ e, s.phase ≠ .halted e) ∧ (n < s.restarts ∨ n = s.restarts ∧ callOutstanding s.phase = true) := by
  cases hp : s.phase <;> simp [eventEnabled, hp]

theorem callOutstanding_iff {p : Phase} :
    callOutstanding p = true ↔ ∃ d i, p = .dispatching d ∧ d.stage = .hookWait i := by
  cases p with
  | dispatching d => cases hst : d.stage <;> simp [callOutstanding, hst]
  | _ => simp [callOutstanding]

/-- A turn of another agent comes of the first enabled event of the agenda, while the engine waits; only reset can also
come before the engine's next step (R90, R170). -/
theorem turnOf_event {s : State} {x : Turn} (h : turnOf s = x) (hw : x ≠ .wait) (he : x ≠ .engine)
    (hr : ∀ rest, x ≠ .restart rest) :
    engineTurn s.phase = none ∧ ∃ e rest, nextEvent s s.agenda = some (e, rest) ∧ eventTurn s e rest = x := by
  unfold turnOf at h
  split at h
  · split at h
    · exact absurd h.symm (hr _)
    · exact absurd h.symm he
  · rename_i hn
    refine ⟨hn, ?_⟩
    split at h
    · exact absurd h.symm hw
    · rename_i e rest hne; exact ⟨e, rest, hne, h⟩

/-- What each turn needs of the phase (R90, R170). -/
theorem turnOf_accept {s : State} {d : Descriptor} {rest : List Event} (h : turnOf s = .accept d rest) :
    s.phase = .idle ∧ nextEvent s s.agenda = some (.submit d, rest) := by
  obtain ⟨-, e, rest', hn, ht⟩ := turnOf_event h (by simp) (by simp) (by simp)
  cases e with
  | submit d' =>
    simp only [eventTurn, Turn.accept.injEq] at ht
    obtain ⟨rfl, rfl⟩ := ht
    exact ⟨eventEnabled_submit.1 (nextEvent_some hn).1, hn⟩
  | answer n a => simp only [eventTurn] at ht; split at ht <;> cases ht
  | take => cases ht
  | reset m => cases ht

theorem turnOf_answer {s : State} {a : HookAnswer} {rest : List Event} (h : turnOf s = .answer a rest) :
    (∃ d i, s.phase = .dispatching d ∧ d.stage = .hookWait i) ∧
      nextEvent s s.agenda = some (.answer s.restarts a, rest) := by
  obtain ⟨-, e, rest', hn, ht⟩ := turnOf_event h (by simp) (by simp) (by simp)
  cases e with
  | submit d' => cases ht
  | answer n b =>
    simp only [eventTurn] at ht
    split at ht
    · rename_i hnr
      simp only [Turn.answer.injEq] at ht
      obtain ⟨rfl, rfl⟩ := ht
      subst hnr
      refine ⟨callOutstanding_iff.1 ?_, hn⟩
      rcases (eventEnabled_answer.1 (nextEvent_some hn).1).2 with h' | h'
      · omega
      · exact h'.2
    · cases ht
  | take => cases ht
  | reset m => cases ht

theorem turnOf_take {s : State} {rest : List Event} (h : turnOf s = .take rest) : ∃ r, s.phase = .replying r := by
  obtain ⟨-, e, rest', hn, ht⟩ := turnOf_event h (by simp) (by simp) (by simp)
  cases e with
  | submit d' => cases ht
  | answer n b => simp only [eventTurn] at ht; split at ht <;> cases ht
  | take => exact eventEnabled_take.1 (nextEvent_some hn).1
  | reset m => cases ht

theorem turnOf_discard {s : State} {rest : List Event} (h : turnOf s = .discard rest) : engineTurn s.phase = none :=
  (turnOf_event h (by simp) (by simp) (by simp)).1

theorem turnOf_engine {s : State} (h : turnOf s = .engine) :
    resetAtOnce s.agenda = none ∧ ∃ d, s.phase = .dispatching d ∧ ∀ i, d.stage ≠ .hookWait i := by
  unfold turnOf at h
  split at h
  · rename_i d hd
    split at h
    · cases h
    · rename_i hr
      obtain ⟨hp, hc⟩ := engineTurn_some hd
      exact ⟨hr, d, hp, fun i hi => by simp [callOutstanding, hp, hi] at hc⟩
  · split at h
    · cases h
    · rename_i e _ _
      cases e <;> simp [eventTurn] at h
      split at h <;> cases h

/-- The turns of a state whose next event stands first on the agenda. -/
theorem turnOf_cons {s : State} {e : Event} {rest : List Event} (hn : engineTurn s.phase = none)
    (ha : s.agenda = e :: rest) (he : eventEnabled s e = true) : turnOf s = eventTurn s e rest := by
  simp [turnOf, hn, ha, nextEvent, he]

/-- The engine's turn (R90). -/
theorem turnOf_moves {s : State} {d : Dispatch} (hd : engineTurn s.phase = some d)
    (hr : resetAtOnce s.agenda = none) : turnOf s = .engine := by
  simp [turnOf, hd, hr]

/-- The engine's turn in stage `Validate` runs the accepted request (R101). -/
theorem engineMove_accepted {s : State} {i : Instr} (h : s.phase = .dispatching (dispatchOf i))
    (hd : decode (encode i) = .ok i) : engineMove s = exec i s := by
  simp [engineMove, h, requestOf_dispatchOf, hd]

/-- The engine's turn in a later stage goes on (R101). -/
theorem engineMove_goesOn {s : State} {d : Dispatch} (h : s.phase = .dispatching d) (hv : d.stage ≠ .validate)
    (hw : ∀ i, d.stage ≠ .hookWait i) : engineMove s = runEngine s := by
  cases hst : d.stage with
  | validate => exact absurd hst hv
  | hookWait i => exact absurd hst (hw i)
  | _ => simp [engineMove, h, hst]

/-- Construction of a configuration agrees with the invariant (R36, R175). -/
theorem phaseOk_initial (cfg : Configuration) : PhaseOk cfg (initialPhase cfg) := by
  unfold initialPhase
  split <;> simpa [PhaseOk]

end Sys2Proof.Machine
end

