-- ==== Sys2Proof/Laws/Path.lean ====
section
/-! SUPPORT. The read and write paths run from a stage to the next wait: what the merged steps (spec/40_dispatch.md
R101) reach from `Validate`, from `Access(i)` with and without a hook, and how a store of several words splits. -/

namespace Sys2Proof.Machine

theorem settle_wait {n : Nat} {s : State} (h : engineTurn s.phase = none) : settle n s = .next s := by
  cases n <;> simp [settle, h]

theorem settle_step {n : Nat} {s t : State} {d : Dispatch} (h : engineTurn s.phase = some d)
    (ht : engineStep s d = .next t) : settle (n + 1) s = settle n t := by simp [settle, h, ht]

theorem engineTurn_access {d : Dispatch} {i : Nat} (h : d.stage = .access i) :
    engineTurn (.dispatching d) = some d := by simp [engineTurn, h]

theorem engineTurn_commit {d : Dispatch} (h : d.stage = .commit) : engineTurn (.dispatching d) = some d := by
  simp [engineTurn, h]

theorem engineTurn_validate {d : Dispatch} (h : d.stage = .validate) : engineTurn (.dispatching d) = some d := by
  simp [engineTurn, h]

theorem engineTurn_hookWait {d : Dispatch} {i : Nat} (h : d.stage = .hookWait i) :
    engineTurn (.dispatching d) = none := by simp [engineTurn, h]

/-- Where one range is legal and holds the span, the span decoder finds it (R48). -/
theorem resolveSpan_of_legal {rs : List Range} {a q k : Nat} {r : Range} (hl : RangesLegal rs)
    (hk : rs[k]? = some r) (hb : r.base.toNat ≤ a) (hq : a + q ≤ r.base.toNat + r.count.toNat) (h1 : 1 ≤ q) :
    resolveSpan rs a q = .ok (k, a - r.base.toNat) := by
  have hc : r.covers a = true := by rw [covers_iff]; omega
  have hres : resolve rs a = some (k, a - r.base.toNat) := by
    cases h : resolve rs a with
    | none => simp [resolve_none_iff.1 h r (List.mem_of_getElem? hk)] at hc
    | some ko =>
      obtain ⟨q', h₁, h₂, h₃⟩ := resolve_some (k := ko.1) (o := ko.2) h
      obtain ⟨hlt, rfl⟩ := List.getElem?_eq_some_iff.1 hk
      obtain ⟨hlt', rfl⟩ := List.getElem?_eq_some_iff.1 h₁
      have hkk : ko.1 = k := by
        rcases Nat.lt_trichotomy ko.1 k with h' | h' | h'
        · exact absurd ⟨h₂, hc⟩ (List.pairwise_iff_getElem.1 hl.2 _ _ hlt' hlt h' a)
        · exact h'
        · exact absurd ⟨hc, h₂⟩ (List.pairwise_iff_getElem.1 hl.2 _ _ hlt hlt' h' a)
      subst hkk
      rw [← h₃]
  simp only [resolveSpan, hres, hk]
  rw [if_pos hq]

/-- A request that passes validation is located, and the engine runs on from `Access(0)` (T2, R94). -/
theorem serve_located {fc : Byte} {addr qty : Word} {vals : List Word} {s : State} {d : Dispatch} {sp : Space} {k : Nat}
    {r : Range} (hi : s.phase = .dispatching d) (hst : d.stage = .validate) (hsp : kindSpace (kindOf fc) = some sp)
    (h1 : 1 ≤ qty.toNat) (hq : quantityLegal s.cfg (kindOf fc) qty.toNat = true) (h : SpanInRange s.cfg sp addr qty k r) :
    Located s.cfg { newDispatch fc addr qty vals with tgt := some (sp, k), stage := .access 0 } k r sp ∧
    serve fc addr qty vals s = settle (qty.toNat + 2)
      (s.setPhase (.dispatching { newDispatch fc addr qty vals with tgt := some (sp, k), stage := .access 0 })) := by
  have hres := resolveSpan_of_legal h.legal h.range h.base h.limit h1
  refine ⟨⟨hsp, hq, rfl, h.range, h.base, h.limit⟩, ?_⟩
  have hval : validate s.cfg (newDispatch fc addr qty vals) = .ok (sp, k) := by
    simp [validate, newDispatch, hsp, hq, hres]
  simp only [serve, hi, hst, runEngine, setPhase_phase, settleFuel]
  rw [show (newDispatch fc addr qty vals).qty.toNat + 3 = qty.toNat + 2 + 1 from rfl,
    settle_step (engineTurn_validate rfl) (t := s.setPhase (.dispatching
      { newDispatch fc addr qty vals with tgt := some (sp, k), stage := .access 0 }))]
  simp [engineStep, newDispatch, validateStep] at hval ⊢
  simp [hval]

/-- A request that fails validation ends with the exception at once (R94, R97). -/
theorem serve_rejected {fc : Byte} {addr qty : Word} {vals : List Word} {s : State} {d : Dispatch}
    {c : ExceptionKind} (hi : s.phase = .dispatching d) (hst : d.stage = .validate)
    (h : validate s.cfg (newDispatch fc addr qty vals) = .error c) :
    serve fc addr qty vals s = .next (s.setPhase (.replying (.exception fc c))) := by
  simp only [serve, hi, hst, runEngine, setPhase_phase, settleFuel]
  rw [settle_step (engineTurn_validate rfl) (t := s.setPhase (.replying (.exception fc c)))]
  · exact settle_wait rfl
  · simp only [engineStep, newDispatch, validateStep, setPhase_cfg] at h ⊢
    simp [h]

/-- The access step of a read kind is the read path's (R114). -/
theorem accessStep_read {s : State} {d : Dispatch} {i : Nat} (h : kindHook (kindOf d.fc) = some .read) :
    accessStep s d i = accessRead s d i := by
  unfold accessStep
  cases hk : kindOf d.fc <;> simp_all [kindHook]

/-- The access step of a write kind is the write path's (R133). -/
theorem accessStep_write {s : State} {d : Dispatch} {i : Nat} (h : kindHook (kindOf d.fc) = some .write) :
    accessStep s d i = accessWrite s d i := by
  unfold accessStep
  cases hk : kindOf d.fc <;> simp_all [kindHook]

theorem commitStep_read {s : State} {d : Dispatch} (h : kindHook (kindOf d.fc) = some .read) :
    commitStep s d = commitRead s d := by
  unfold commitStep
  cases hk : kindOf d.fc <;> simp_all [kindHook]

theorem commitStep_write {s : State} {d : Dispatch} (h : kindHook (kindOf d.fc) = some .write) :
    commitStep s d = commitWrite s d := by
  unfold commitStep
  cases hk : kindOf d.fc <;> simp_all [kindHook]

theorem acceptAnswer_read {s : State} {d : Dispatch} {i : Nat} {v : Word}
    (h : kindHook (kindOf d.fc) = some .read) : acceptAnswer s d i v = answerRead s d i v := by
  unfold acceptAnswer
  cases hk : kindOf d.fc <;> simp_all [kindHook]

theorem acceptAnswer_write {s : State} {d : Dispatch} {i : Nat} {v : Word}
    (h : kindHook (kindOf d.fc) = some .write) : acceptAnswer s d i v = answerWrite s d i v := by
  unfold acceptAnswer
  cases hk : kindOf d.fc <;> simp_all [kindHook]

/-- After the last address two engine steps reach the commit's result (T4, T6; R96). -/
theorem settle_last {n : Nat} {s t : State} {d : Dispatch} (hst : d.stage = .access d.qty.toNat)
    (hc : commitStep (s.setPhase (.dispatching { d with stage := .commit })) { d with stage := .commit } = .next t)
    (ht : engineTurn t.phase = none) : settle (n + 2) (s.setPhase (.dispatching d)) = .next t := by
  rw [settle_step (engineTurn_access hst) (t := s.setPhase (.dispatching { d with stage := .commit })),
    settle_step (engineTurn_commit rfl) (t := t)]
  · exact settle_wait ht
  · simpa [engineStep] using hc
  · simp [engineStep, hst]

/-- A read in a hooked range waits at the next address (R114). -/
theorem settle_read_hooked {n i k : Nat} {s : State} {d : Dispatch} {r : Range} {sp : Space}
    (hr : Located s.cfg d k r sp) (hk : kindHook (kindOf d.fc) = some .read) (hst : d.stage = .access i)
    (hi : i < d.qty.toNat) (hh : r.hasRd = true) :
    settle (n + 1) (s.setPhase (.dispatching d)) =
      .next (s.setPhase (.dispatching { d with stage := .hookWait i })) := by
  obtain ⟨raw, hraw⟩ := readCell_some hr.range (o := d.addr.toNat - r.base.toNat + i)
    (by have := located_offset hr; omega)
  rw [settle_step (engineTurn_access hst) (t := s.setPhase (.dispatching { d with stage := .hookWait i }))]
  · exact settle_wait (engineTurn_hookWait rfl)
  · simp only [engineStep, hst, hi, if_true, accessStep_read hk, accessRead, target_setPhase, target_located hr,
      readCell_setPhase, hraw, hh, setPhase_setPhase]

/-- A read in a range without a hook goes through to its reply (R114, R116). -/
theorem settle_read_plain {k : Nat} {s : State} {r : Range} {sp : Space} (hh : r.hasRd = false) :
    ∀ {m n i : Nat} {d : Dispatch} {vs : List Word}, Located s.cfg d k r sp →
      kindHook (kindOf d.fc) = some .read → d.stage = .access i → i + m = d.qty.toNat →
      rawCells s sp k (d.addr.toNat - r.base.toNat + i) m = some vs →
      settle (n + m + 2) (s.setPhase (.dispatching d)) =
        .next (s.setPhase (.replying (.readOk d.fc (d.acc ++ vs)))) := by
  intro m
  induction m with
  | zero =>
    intro n i d vs hr hk hst hi hv
    simp only [rawCells, Option.some.injEq] at hv
    subst hv
    refine settle_last (by rw [hst, ← hi]; rfl) ?_ rfl
    rw [commitStep_read (by simpa using hk)]
    simp [commitRead]
  | succ m ih =>
    intro n i d vs hr hk hst hi hv
    simp only [rawCells] at hv
    cases hraw : readCell s sp k (d.addr.toNat - r.base.toNat + i) with
    | none => simp [hraw] at hv
    | some raw =>
      cases hrest : rawCells s sp k (d.addr.toNat - r.base.toNat + i + 1) m with
      | none => simp [hraw, hrest] at hv
      | some ws =>
        simp only [hraw, hrest, Option.some.injEq] at hv
        subst hv
        rw [show n + (m + 1) + 2 = n + m + 2 + 1 by omega,
          settle_step (engineTurn_access hst) (t := s.setPhase (.dispatching
            { d with acc := d.acc ++ [raw], stage := .access (i + 1) }))]
        · have := ih (n := n) (i := i + 1) (d := { d with acc := d.acc ++ [raw], stage := .access (i + 1) })
            (vs := ws) (located_of hr _ _) (by simpa using hk) rfl (by simp; omega) (by simpa [Nat.add_assoc] using hrest)
          simpa using this
        · simp only [engineStep, hst, show i < d.qty.toNat by omega, if_true, accessStep_read hk, accessRead,
            target_setPhase, target_located hr, readCell_setPhase, hraw, hh, Bool.false_eq_true, if_false,
            setPhase_setPhase]

/-- A store of several words reads the holding file and the configuration alone. -/
@[simp] theorem writeCells_setPhase (s : State) (p : Phase) (k o : Nat) (vs : List Word) :
    writeCells (s.setPhase p) k o vs = (writeCells s k o vs).map (fun t => t.setPhase p) := by
  induction vs generalizing s o with
  | nil => rfl
  | cons w ws ih =>
    simp only [writeCells, writeCell, setPhase_cfg, setPhase_holding]
    cases s.cfg.holding[k]? with
    | none => rfl
    | some q =>
      by_cases hlt : o < q.count.toNat
      · simp only [hlt, if_true, setHolding_setPhase]; exact ih _ _
      · simp only [hlt, if_false]; rfl

@[simp] theorem writeCells_setAgenda (s : State) (es : List Event) (k o : Nat) (vs : List Word) :
    writeCells (s.setAgenda es) k o vs = (writeCells s k o vs).map (fun t => t.setAgenda es) := by
  induction vs generalizing s o with
  | nil => rfl
  | cons w ws ih =>
    simp only [writeCells, writeCell, setAgenda_cfg, setAgenda_holding]
    cases s.cfg.holding[k]? with
    | none => rfl
    | some q =>
      by_cases hlt : o < q.count.toNat
      · simp only [hlt, if_true, setHolding_setAgenda]; exact ih _ _
      · simp only [hlt, if_false]; rfl

@[simp] theorem rawCells_setAgenda (s : State) (es : List Event) (sp : Space) (k o n : Nat) :
    rawCells (s.setAgenda es) sp k o n = rawCells s sp k o n := by
  induction n generalizing o with
  | zero => rfl
  | succ n ih => simp [rawCells, ih]

/-- A store of several words splits at its last word. -/
theorem writeCells_snoc {s : State} {k o : Nat} {vs : List Word} {v : Word} :
    writeCells s k o (vs ++ [v]) = (writeCells s k o vs).bind (fun t => writeCell t k (o + vs.length) v) := by
  induction vs generalizing s o with
  | nil =>
    simp only [List.nil_append, writeCells, List.length_nil, Nat.add_zero, Option.bind_some]
    split <;> simp_all
  | cons w vs ih =>
    simp only [List.cons_append, writeCells]
    split
    · rfl
    · rw [ih, List.length_cons, show o + 1 + vs.length = o + (vs.length + 1) by omega]

/-- The holding file while a write with the values `acc` settled so far is in flight (R136): as before under ATOMIC,
with those values stored under PREFIX. -/
def flightCells (s : State) (k o : Nat) (acc : List Word) : Memory :=
  match s.cfg.failPolicy with
  | .atomic => s.holding
  | .prefixed =>
    match writeCells s k o acc with
    | none => s.holding
    | some t => t.holding

@[simp] theorem flightCells_nil (s : State) (k o : Nat) : flightCells s k o [] = s.holding := by
  unfold flightCells
  split <;> rfl

@[simp] theorem flightCells_setAgenda (s : State) (es : List Event) (k o : Nat) (acc : List Word) :
    flightCells (s.setAgenda es) k o acc = flightCells s k o acc := by
  unfold flightCells
  cases hp : s.cfg.failPolicy with
  | atomic => simp [hp]
  | prefixed =>
    simp only [setAgenda_cfg, hp, writeCells_setAgenda]
    cases writeCells s k o acc <;> simp

/-- Storing the settled values is the change of the holding file alone. -/
theorem writeCells_prefixed {s : State} {k o : Nat} {acc : List Word} {r : Range}
    (hp : s.cfg.failPolicy = .prefixed) (hk : s.cfg.holding[k]? = some r) (ho : o + acc.length ≤ r.count.toNat)
    (hw : Memory.wf s.cfg.holding s.holding = true) :
    writeCells s k o acc = some (s.setHolding (flightCells s k o acc)) := by
  obtain ⟨m, hm, -⟩ := writeCells_span hk ho hw
  simp [flightCells, hp, hm]

/-- Settling one more value moves the in-flight file on by one word (R133, R134, R136). -/
theorem settleValue_flight {s : State} {d : Dispatch} {k o : Nat} {r : Range} {v : Word}
    (hk : s.cfg.holding[k]? = some r) (ho : o + d.acc.length < r.count.toNat)
    (hw : Memory.wf s.cfg.holding s.holding = true) (p : Phase) :
    settleValue ((s.setHolding (flightCells s k o d.acc)).setPhase p) d k o d.acc.length v =
      .next ((s.setHolding (flightCells s k o (d.acc ++ [v]))).setPhase
        (.dispatching { d with acc := d.acc ++ [v], stage := .access (d.acc.length + 1) })) := by
  unfold settleValue
  cases hp : s.cfg.failPolicy with
  | atomic => simp [hp, flightCells]
  | prefixed =>
    have h₁ := writeCells_prefixed (o := o) hp hk (acc := d.acc) (by omega) hw
    have h₂ := writeCells_prefixed (o := o) hp hk (acc := d.acc ++ [v]) (by simp; omega) hw
    rw [writeCells_snoc, h₁, Option.bind_some] at h₂
    have h₃ := writeCell_eq (s := (s.setHolding (flightCells s k o d.acc)).setPhase p)
      (o := o + d.acc.length) v (by simpa using hk) (by omega)
    have h₄ := writeCell_eq (s := s.setHolding (flightCells s k o d.acc))
      (o := o + d.acc.length) v (by simpa using hk) (by omega)
    rw [h₂] at h₄
    simp only [setPhase_cfg, setHolding_cfg, hp, h₃]
    have h₅ := congrArg State.holding (Option.some.inj h₄)
    simp only [setHolding_holding, setHolding_cfg] at h₅
    simp [h₅]

/-- The commit of a write leaves every settled value in its cell, under both policies (R135, R136). -/
theorem commitCells_flight {s : State} {d : Dispatch} {k o : Nat} {r : Range} (hk : s.cfg.holding[k]? = some r)
    (ho : o + d.acc.length ≤ r.count.toNat) (hw : Memory.wf s.cfg.holding s.holding = true) (p : Phase) :
    ∃ m, commitCells ((s.setHolding (flightCells s k o d.acc)).setPhase p) d k o =
        some ((s.setHolding m).setPhase p) ∧ writeCells s k o d.acc = some (s.setHolding m) := by
  obtain ⟨m, hm, -⟩ := writeCells_span (vs := d.acc) hk ho hw
  unfold commitCells
  cases hp : s.cfg.failPolicy with
  | atomic =>
    refine ⟨m, ?_, hm⟩
    simp only [setPhase_cfg, hp, flightCells, setHolding_self]
    rw [writeCells_setPhase, hm]
    rfl
  | prefixed =>
    refine ⟨m, ?_, hm⟩
    simp [hp, flightCells, hm]

/-- A write in a hooked range waits at the next address (R133). -/
theorem settle_write_hooked {n i k : Nat} {s : State} {d : Dispatch} {r : Range} {sp : Space}
    (hr : Located s.cfg d k r sp) (hk : kindHook (kindOf d.fc) = some .write)
    (hv : d.vals.length = dataWords (kindOf d.fc) d.qty) (hst : d.stage = .access i)
    (hi : i < d.qty.toNat) (hh : r.hasWr = true) :
    settle (n + 1) (s.setPhase (.dispatching d)) =
      .next (s.setPhase (.dispatching { d with stage := .hookWait i })) := by
  have hlen := located_vals hr hv hk
  have hval : d.vals[i]? = some (d.vals[i]'(by omega)) := List.getElem?_eq_getElem _
  have htgt : writeTarget (s.setPhase (.dispatching d)) d = _ :=
    writeTarget_located (s := s.setPhase (.dispatching d)) hr hk
  rw [settle_step (engineTurn_access hst) (t := s.setPhase (.dispatching { d with stage := .hookWait i }))]
  · exact settle_wait (engineTurn_hookWait rfl)
  · simp only [engineStep, hst, hi, if_true, accessStep_write hk, accessWrite, htgt, hval, hh, setPhase_setPhase]

/-- A write whose every value is settled goes through to its echo (R96, R135, R139). -/
theorem settle_write_last {n k : Nat} {s : State} {d : Dispatch} {r : Range} {e : Reply}
    (hr : Located s.cfg d k r .holding) (hk : kindHook (kindOf d.fc) = some .write)
    (hst : d.stage = .access d.qty.toNat) (ha : d.acc.length = d.qty.toNat)
    (hw : Memory.wf s.cfg.holding s.holding = true) (he : echoReply d = some e) :
    ∃ m, writeCells s k (d.addr.toNat - r.base.toNat) d.acc = some (s.setHolding m) ∧
      settle (n + 2) ((s.setHolding (flightCells s k (d.addr.toNat - r.base.toNat) d.acc)).setPhase (.dispatching d)) =
        .next ((s.setHolding m).setPhase (.replying e)) := by
  obtain ⟨m, hm, hm₂⟩ := commitCells_flight (d := d) (p := .dispatching { d with stage := .commit })
    (o := d.addr.toNat - r.base.toNat) hr.range (by have := located_offset hr; omega) hw
  refine ⟨m, hm₂, settle_last hst ?_ rfl⟩
  rw [commitStep_write (by simpa using hk)]
  have hcc : commitCells ((s.setHolding (flightCells s k (d.addr.toNat - r.base.toNat) d.acc)).setPhase
      (.dispatching { d with stage := .commit })) { d with stage := .commit } k (d.addr.toNat - r.base.toNat) =
      some ((s.setHolding m).setPhase (.dispatching { d with stage := .commit })) := hm
  have htgt := writeTarget_located (s := (s.setHolding (flightCells s k (d.addr.toNat - r.base.toNat) d.acc)).setPhase
    (.dispatching { d with stage := .commit })) (d := { d with stage := .commit }) (located_of hr .commit d.acc) hk
  have he' : echoReply { d with stage := .commit } = some e := he
  simp only [commitWrite, htgt, he', hcc, setPhase_setPhase]

/-- A write in a range without a hook goes through to its echo (R133, R135, R139). -/
theorem settle_write_plain {k : Nat} {s : State} {r : Range} (hh : r.hasWr = false)
    (hw : Memory.wf s.cfg.holding s.holding = true) :
    ∀ {m n : Nat} {d : Dispatch} {e : Reply}, Located s.cfg d k r .holding → kindHook (kindOf d.fc) = some .write →
      d.vals.length = dataWords (kindOf d.fc) d.qty → d.stage = .access d.acc.length →
      d.acc.length + m = d.qty.toNat → echoReply d = some e →
      ∃ h, writeCells s k (d.addr.toNat - r.base.toNat) (d.acc ++ d.vals.drop d.acc.length) =
          some (s.setHolding h) ∧
        settle (n + m + 2)
          ((s.setHolding (flightCells s k (d.addr.toNat - r.base.toNat) d.acc)).setPhase (.dispatching d)) =
          .next ((s.setHolding h).setPhase (.replying e)) := by
  intro m
  induction m with
  | zero =>
    intro n d e hr hk hv hst hi he
    have hlen := located_vals hr hv hk
    obtain ⟨h, h₁, h₂⟩ := settle_write_last (n := n) hr hk (by rw [hst, ← hi]; rfl) (by omega) hw he
    exact ⟨h, by rw [List.drop_eq_nil_of_le (by omega)]; simpa using h₁, h₂⟩
  | succ m ih =>
    intro n d e hr hk hv hst hi he
    have hlen := located_vals hr hv hk
    have hoff := located_offset hr
    have hval : d.vals[d.acc.length]? = some (d.vals[d.acc.length]'(by omega)) := List.getElem?_eq_getElem _
    obtain ⟨h, h₁, h₂⟩ := ih (n := n) (e := e)
      (d := { d with acc := d.acc ++ [d.vals[d.acc.length]'(by omega)], stage := .access (d.acc.length + 1) })
      (located_of hr _ _) (by simpa using hk) (by simpa using hv) (by simp) (by simp; omega) (by simpa [echoReply] using he)
    refine ⟨h, ?_, ?_⟩
    · rw [List.drop_eq_getElem_cons (by omega)]
      simpa using h₁
    · rw [show n + (m + 1) + 2 = n + m + 2 + 1 by omega]
      have htgt := writeTarget_located
        (s := (s.setHolding (flightCells s k (d.addr.toNat - r.base.toNat) d.acc)).setPhase (.dispatching d)) hr hk
      rw [settle_step (engineTurn_access hst) (t := _)]
      · exact h₂
      · simp only [engineStep, hst, show d.acc.length < d.qty.toNat by omega, if_true, accessStep_write hk, accessWrite,
          htgt, hval, hh, Bool.false_eq_true, if_false]
        exact settleValue_flight hr.range (by omega) hw _

end Sys2Proof.Machine
end

