-- ==== Sys2Proof/Laws/PerInstr.lean ====
section
/-! SUPPORT. A statement about every request as syntax, one lemma for each constructor: the descriptor of a well-formed
request has as many data words as its header calls for (spec/30_encoding.md R64), so the port never refuses it. -/

namespace Sys2Proof.Laws.WordCount

/-- The number of data words of the descriptor is `n` of its header. -/
def Statement (i : Instr) : Prop :=
  i.WellFormed →
    (encode i).words.length = dataWords (kindOf (headerFc (encode i).header)) (headerQty (encode i).header)

theorem readHolding (addr qty : Word) : Statement (.readHolding addr qty) := by
  intro _
  simp [encode, dataWords, kindOf]

theorem readInput (addr qty : Word) : Statement (.readInput addr qty) := by
  intro _
  simp [encode, dataWords, kindOf]

theorem writeHolding (addr qty value : Word) : Statement (.writeHolding addr qty value) := by
  intro _
  simp [encode, dataWords, kindOf]

theorem writeMultipleHolding (addr qty : Word) (values : List Word) :
    Statement (.writeMultipleHolding addr qty values) := by
  intro h
  have hlen : values.length = qty.toNat := by simpa [Instr.WellFormed, Instr.wellFormed] using h
  simp [encode, dataWords, kindOf, hlen]

theorem unsupported (fc : Byte) (addr qty : Word) : Statement (.unsupported fc addr qty) := by
  intro h
  have hk : kindOf fc = .unsupported := by
    rw [kindOf_unsupported_iff]
    simpa [Instr.WellFormed, Instr.wellFormed] using h
  simp [encode, dataWords, hk]

end Sys2Proof.Laws.WordCount
end

