-- ==== Sys2Proof/Laws/Run.lean ====
section
/-! SUPPORT. What a run's observation holds (spec/70_reset_and_hazards.md R184). -/

namespace Sys2Proof.Machine

/-- The requests a run serves are requests it has accepted, or the one already pending, in that order: a reply to an older
request is none of the run's. -/
theorem transactions_sublist (n : Nat) (s : State) (p : Option Descriptor) :
    ((transactions n s p).map Prod.fst).Sublist (p.toList ++ requestsAccepted n s) := by
  induction n generalizing s p with
  | zero => simp [transactions]
  | succ n ih =>
    simp only [transactions, requestsAccepted]
    cases hs : step s with
    | next s' =>
      have h := ih s' (pendingAfter (turnOf s) p)
      cases ht : turnOf s with
      | accept d rest => simpa [ht, pendingAfter] using h.trans (List.sublist_append_right _ _)
      | take rest =>
        rw [ht] at h
        simp only [pendingAfter, Option.toList_none, List.nil_append] at h
        cases p <;> cases replyOffered s <;> simp [pendingAfter, h, List.Sublist.cons]
      | restart rest => simpa [ht, pendingAfter] using h.trans (List.sublist_append_right _ _)
      | _ => simpa [ht, pendingAfter] using h
    | _ => cases ht : turnOf s <;> cases p <;> cases replyOffered s <;> simp
end Sys2Proof.Machine
end

