-- ==== Sys2Proof/Tests/Slice0.lean ====
section
/-! SUPPORT. Tests: ill-formed terms, words written from the encoding of spec/30_encoding.md R60, single steps with the
results of spec/95_test_vectors.md, and for every statement with hypotheses a witness that meets them. -/

namespace Sys2Proof.Tests

open Sys2Proof Sys2Proof.Machine

/-! ### Helpers -/

/-- The next state of an outcome. -/
def nextOf : Result → Option State
  | .next s => some s
  | .fault _ => none
  | .refused _ => none

/-- The phase of the next state. -/
def phaseOf (x : Result) : Option Phase := (nextOf x).map State.phase

/-- CFG-A in `Idle` with an agenda. -/
def idleWith (es : List Event) : State := State.construct Config.configuration es

/-- CFG-A with a reply the host has not taken. -/
def replyingWith (es : List Event) : State := { idleWith es with phase := .replying (.readOk 0x03 [0]) }

/-- `ReadInput 200, 2` in flight. -/
def readRecord (stage : Stage) (acc : List Word) : Dispatch :=
  { fc := 0x04, addr := 200, qty := 2, vals := [], stage := stage, tgt := some (.input, 1), acc := acc }

/-- `WriteMultipleHolding 50, 1, 2, 3` in flight. -/
def writeRecord (stage : Stage) (acc : List Word) : Dispatch :=
  { fc := 0x10, addr := 50, qty := 3, vals := [1, 2, 3], stage := stage, tgt := some (.holding, 4), acc := acc }

/-- CFG-A with a request in flight. -/
def inFlight (d : Dispatch) (es : List Event) : State := { idleWith es with phase := .dispatching d }

/-- The same under PREFIX. -/
def inFlightPrefix (d : Dispatch) (es : List Event) : State := withPolicy (inFlight d es) .prefixed

/-- An engine halted by a configuration error, with an agenda. -/
def haltedWith (es : List Event) : State :=
  State.construct { holding := [{ base := 5, count := 0, default := 0, hasRd := false, hasWr := false }], input := [],
                    station := 1 } es

/-- The request `i` just accepted from `Idle`. -/
def accepted (i : Instr) (s : State) : State := acceptRequest i s

/-- The request `i` accepted in the state after reset, and served. -/
def served (i : Instr) : Result := exec i (accepted i State.reset)

/-- CFG-A in `Idle` after `n` restarts, with an agenda. -/
def restarted (n : Nat) (es : List Event) : State := { idleWith es with restarts := n }

/-- CFG-A in `Idle` with a request at the port, the hook answers to it, and more moves. -/
def asked (i : Instr) (answers : List HookAnswer) (more : List Event) : State :=
  idleWith (.submit (encode i) :: (answers.map (.answer 0) ++ more))

/-- A plain range. -/
def plain (base count : Word) : Range :=
  { base := base, count := count, default := 0, hasRd := false, hasWr := false }

/-- A configuration of plain ranges. -/
def plainConfig (holding input : List Range) : Configuration := { holding := holding, input := input, station := 1 }

/-- The ranges of CFG-A that the witnesses use. -/
def rangeH0 : Range := { base := 0, count := 10, default := 0, hasRd := false, hasWr := false }
def rangeH3 : Range := { base := 65534, count := 2, default := 0xABCD, hasRd := false, hasWr := false }
def rangeH4 : Range := { base := 50, count := 3, default := 0, hasRd := false, hasWr := true }
def rangeI0 : Range := { base := 0, count := 4, default := 7, hasRd := false, hasWr := false }
def rangeI1 : Range := { base := 200, count := 2, default := 0, hasRd := true, hasWr := false }

/-! ### Well-formed terms -/

theorem test_wellFormed_refuses_wrong_length : ¬ (Instr.writeMultipleHolding 0 2 [5]).WellFormed := by decide
theorem test_wellFormed_refuses_too_many_words : ¬ (Instr.writeMultipleHolding 0 0 [5]).WellFormed := by decide
theorem test_wellFormed_refuses_supported_code : ¬ (Instr.unsupported 0x10 0 1).WellFormed := by decide
theorem test_wellFormed_accepts : (Instr.writeHolding 3 2 5).WellFormed ∧ (Instr.unsupported 0x83 0 1).WellFormed ∧
    (Instr.writeMultipleHolding 0 0 []).WellFormed := by decide

/-! ### Decoding: header words written as `fc_addr_qty` (R60, R72; spec/95_test_vectors.md 2.3 to 2.5) -/

theorem test_decode_readHolding :
    (decode { header := 0b00000011_1111111111111110_0000000000000010#40, words := [] }).toOption =
      some (.readHolding 65534 2) := by decide
theorem test_decode_readInput :
    (decode { header := 0b00000100_0000000011001000_0000000000000010#40, words := [] }).toOption =
      some (.readInput 200 2) := by decide
theorem test_decode_writeHolding :
    (decode { header := 0b00000110_0000000000000011_0000000000000001#40, words := [0x1234] }).toOption =
      some (.writeHolding 3 1 0x1234) := by decide
theorem test_decode_writeMultipleHolding :
    (decode { header := 0b00010000_0000000000001000_0000000000000010#40, words := [5, 6] }).toOption =
      some (.writeMultipleHolding 8 2 [5, 6]) := by decide
theorem test_decode_unsupported :
    (decode { header := 0b00000001_0000000000010100_0000000000000000#40, words := [] }).toOption =
      some (.unsupported 0x01 20 0) := by decide
theorem test_decode_refuses :
    (decode { header := 0x0300000001, words := [1] }).toOption = none ∧
    (decode { header := 0x0600000001, words := [] }).toOption = none ∧
    (decode { header := 0x1000000002, words := [1] }).toOption = none := by decide
/-- The words of an unsupported code are ignored (R63, R100). -/
theorem test_decode_ignores_words_of_unsupported :
    (decode { header := 0x8300000001, words := [1] }).toOption = some (.unsupported 0x83 0 1) := by decide
/-- The port refuses them (R93). -/
theorem test_port_refuses_ill_formed :
    (portDecode { header := 0x8300000001, words := [1] }).toOption = none ∧
    (portDecode { header := 0x8300000001, words := [] }).toOption = some (.unsupported 0x83 0 1) ∧
    (portDecode { header := 0x0600030001, words := [] }).toOption = none := by decide
/-- The data words stand above the header, the first in bits 55:40 (spec/opcode_table.json). -/
theorem test_decode_table_word :
    decodeTableWord 72 (0x0006_0005_10_0008_0002) = some (.writeMultipleHolding 8 2 [5, 6]) ∧
    decodeTableWord 40 (0xFFFF_06_0003_0001) = some (.writeHolding 3 1 0) := by decide

/-! ### The address decoder (spec/95_test_vectors.md 2.2) -/

/-- The answer of `resolve_span` on a space of CFG-A. -/
def spanOf (sp : Space) (a q : Nat) : Option (Nat × Nat) × Bool :=
  match resolveSpan (Config.configuration.ranges sp) a q with
  | .ok x => (some x, false)
  | .error e => (none, decide (e = .unmapped))

theorem test_resolveSpan_holding :
    spanOf .holding 0 10 = (some (0, 0), false) ∧ spanOf .holding 9 2 = (none, false) ∧
    spanOf .holding 15 10 = (none, false) ∧ spanOf .holding 20 10 = (none, true) ∧
    spanOf .holding 25 10 = (none, false) ∧ spanOf .holding 39 1 = (some (2, 9), false) ∧
    spanOf .holding 40 1 = (none, true) := by decide
theorem test_resolveSpan_top :
    spanOf .holding 65534 2 = (some (3, 0), false) ∧ spanOf .holding 65535 1 = (some (3, 1), false) ∧
    spanOf .holding 65535 2 = (none, false) ∧ spanOf .holding 65533 3 = (none, false) ∧
    spanOf .holding 65533 1 = (none, true) := by decide
theorem test_resolveSpan_spaces :
    spanOf .input 0 4 = (some (0, 0), false) ∧ spanOf .input 10 1 = (none, true) ∧
    spanOf .holding 200 1 = (none, true) := by decide

/-! ### Construction (spec/95_test_vectors.md 2.6) -/

theorem test_construction_errors :
    constructionError (plainConfig [plain 5 0] []) = some .zeroCount ∧
    constructionError (plainConfig [plain 65535 2] []) = some .addressOverflow ∧
    constructionError (plainConfig [plain 2 65535] []) = some .addressOverflow ∧
    constructionError (plainConfig [plain 15 10, plain 10 10] []) = some .overlappingRange ∧
    constructionError (plainConfig [plain 10 10, plain 0 30] []) = some .overlappingRange ∧
    constructionError (plainConfig [plain 0 0] [plain 0 5, plain 3 5]) = some .zeroCount ∧
    constructionError (plainConfig [] [plain 0 5, plain 3 5]) = some .overlappingRange := by decide
theorem test_construction_passes :
    constructionError (plainConfig [plain 65535 1] []) = none ∧
    constructionError (plainConfig [plain 0 65535] []) = none ∧
    constructionError (plainConfig [plain 1 65535] []) = none ∧
    constructionError (plainConfig [plain 10 10, plain 20 10] []) = none ∧
    constructionError (plainConfig [plain 10 10] [plain 10 10]) = none ∧
    constructionError (plainConfig [] []) = none ∧ constructionError Config.configuration = none := by decide
theorem test_configure_defaults :
    (configure [{ startAddress := 7, default := none, number := none, onRead := true, onWrite := false }] [] 9).holding =
      [{ base := 7, count := 1, default := 0, hasRd := true, hasWr := false }] := by decide
theorem test_reset_is_idle : State.reset.phase = .idle ∧ State.reset.holding = [] := by decide

/-! ### One step per request (spec/95_test_vectors.md 2.3 to 2.5) -/

theorem test_readHolding :
    phaseOf (served (.readHolding 65534 2)) = some (.replying (.readOk 0x03 [0xABCD, 0xABCD])) := by decide
theorem test_readHolding_no_wrap :
    phaseOf (served (.readHolding 65535 2)) =
      some (.replying (.exception 0x03 .illegalDataAddress)) := by decide
theorem test_readInput :
    phaseOf (served (.readInput 0 4)) = some (.replying (.readOk 0x04 [7, 7, 7, 7])) := by decide
theorem test_readInput_calls_hook :
    ((nextOf (served (.readInput 200 2))).bind State.hookCall) =
      some { space := .input, range := 1, kind := .read, addr := 200, value := 0 } := by decide
theorem test_writeHolding_default_value_leaves_no_entry :
    (nextOf (served (.writeHolding 65535 1 0))).map State.holding = some [(65535, 0)] ∧
    (nextOf (served (.writeHolding 65535 1 0xABCD))).map State.holding = some [] := by decide
theorem test_writeHolding_calls_hook_with_incoming_value :
    ((nextOf (served (.writeHolding 50 1 500))).bind State.hookCall) =
      some { space := .holding, range := 4, kind := .write, addr := 50, value := 500 } := by decide
theorem test_writeMultipleHolding :
    (nextOf (served (.writeMultipleHolding 8 2 [5, 6]))).map (fun t => (t.holding, t.phase)) =
      some ([(8, 5), (9, 6)], .replying (.writeMultipleOk 8 2)) := by decide
theorem test_writeMultipleHolding_across_ranges :
    (nextOf (served (.writeMultipleHolding 9 2 [5, 6]))).map (fun t => (t.holding, t.phase)) =
      some ([], .replying (.exception 0x10 .illegalDataAddress)) := by decide
theorem test_unsupported_before_quantity :
    phaseOf (served (.unsupported 0x01 20 0)) =
      some (.replying (.exception 0x01 .illegalFunction)) := by decide
theorem test_quantity_before_address :
    phaseOf (served (.readHolding 20 0)) = some (.replying (.exception 0x03 .illegalDataValue)) ∧
    phaseOf (served (.readHolding 0 126)) = some (.replying (.exception 0x03 .illegalDataValue)) ∧
    phaseOf (served (.readHolding 0 125)) = some (.replying (.exception 0x03 .illegalDataAddress)) ∧
    phaseOf (served (.writeHolding 3 2 5)) = some (.replying (.exception 0x06 .illegalDataValue)) := by
  decide
/-- A hook that fails on the second address, under both policies (spec/95_test_vectors.md 2.5). -/
theorem test_write_hook_failure :
    (nextOf (answerHook (.ok 1) (inFlightPrefix (writeRecord (.hookWait 0) []) []))).map State.holding =
      some [(50, 1)] ∧
    (nextOf (answerHook (.ok 1) (inFlight (writeRecord (.hookWait 0) []) []))).map State.holding = some [] ∧
    phaseOf (answerHook .fail (inFlight (writeRecord (.hookWait 1) [1]) [])) =
      some (.replying (.exception 0x10 .serverDeviceFailure)) := by decide
/-- The answer is reported, not the cell (spec/95_test_vectors.md 2.4); the answer is a step of its own. -/
theorem test_read_hook_answer :
    phaseOf (answerHook (.ok 2) (inFlight (readRecord (.hookWait 1) [1]) [])) =
      some (.dispatching (readRecord (.access 2) [1, 2])) ∧
    (nextOf (step (inFlight (readRecord (.access 2) [1, 2]) []))).map (fun t => (t.input, t.phase)) =
      some ([], .replying (.readOk 0x04 [1, 2])) := by decide
/-- The reset of a request in flight (spec/95_test_vectors.md P6). -/
theorem test_reset_in_flight :
    (nextOf (step { replyingWith [.reset .atWait] with holding := [(0, 0x20)] })).map (fun t => (t.holding, t.phase)) =
      some ([], .idle) := by decide
/-- A reset can come after T1 and after T5, before the next hook call (R101, R170). -/
theorem test_reset_between_acceptance_and_call :
    phaseOf (step { accepted (.readInput 200 2) State.reset with agenda := [.reset .atOnce] }) = some .idle ∧
    phaseOf (step (inFlight (readRecord (.access 1) [5]) [.reset .atOnce])) = some .idle ∧
    ((nextOf (step (inFlight (readRecord (.access 1) [5]) [.reset .atWait]))).bind State.hookCall).map HookCall.addr =
      some 201 := by decide
/-- A late answer is discarded while a newer call is outstanding (R170). -/
theorem test_late_answer_in_a_newer_call :
    (nextOf (step { inFlight (readRecord (.hookWait 1) [5]) [.answer 0 .fail] with restarts := 1 })).map
      (fun t => (t.phase, t.agenda)) = some (.dispatching (readRecord (.hookWait 1) [5]), []) := by decide
/-- A request placed for the next step is the one it runs (log 16). -/
theorem test_placed_request_runs_next :
    phaseOf (step (State.reset.withFetchWord 56 0x1234_06_0003_0001)) =
      some (.replying (.writeSingleOk 3 0x1234)) := by decide
/-- The PDU of spec/95_test_vectors.md P1. -/
theorem test_wire_request :
    requestPdu (.writeMultipleHolding 0 4 [1, 2, 3, 4]) =
      some [0x10, 0, 0, 0, 4, 8, 0, 1, 0, 2, 0, 3, 0, 4] := by decide

/-! ### Witnesses: a state and operands that meet the hypotheses of each statement

A statement without hypotheses has none here. Where a statement has several clauses there is a witness for each. -/

theorem legal_of_order {rs : List Range} (h : ∀ r ∈ rs, 1 ≤ r.count.toNat ∧ r.limit ≤ 65536)
    (ho : rs.Pairwise (fun r q => r.limit ≤ q.base.toNat ∨ q.limit ≤ r.base.toNat)) : RangesLegal rs :=
  ⟨h, ho.imp fun {r q} h a => by simp only [covers_iff]; simp only [Range.limit] at h; omega⟩

theorem cfgA_legal : ConfigLegal Config.configuration :=
  ⟨legal_of_order (by decide) (by decide), legal_of_order (by decide) (by decide)⟩

/-- CFG-A with the cell at address 9 written. -/
def written : State := { idleWith [] with holding := [(9, 3)] }

theorem cfgA_passes : constructionError Config.configuration = none := by decide

theorem written_inv : Inv written := ⟨by decide, rfl, cfgA_passes⟩

theorem span_h0 : SpanInRange Config.configuration .holding 0 10 0 rangeH0 := ⟨cfgA_legal.1, rfl, by decide, by decide⟩
theorem span_h0_last : SpanInRange Config.configuration .holding 9 1 0 rangeH0 :=
  ⟨cfgA_legal.1, rfl, by decide, by decide⟩
theorem span_h3 : SpanInRange Config.configuration .holding 65534 2 3 rangeH3 :=
  ⟨cfgA_legal.1, rfl, by decide, by decide⟩
theorem span_h4 : SpanInRange Config.configuration .holding 50 3 4 rangeH4 := ⟨cfgA_legal.1, rfl, by decide, by decide⟩
theorem span_i0 : SpanInRange Config.configuration .input 0 4 0 rangeI0 := ⟨cfgA_legal.2, rfl, by decide, by decide⟩
theorem span_i1 : SpanInRange Config.configuration .input 200 2 1 rangeI1 := ⟨cfgA_legal.2, rfl, by decide, by decide⟩

theorem located_read (stage : Stage) (acc : List Word) :
    Located Config.configuration (readRecord stage acc) 1 rangeI1 .input :=
  ⟨rfl, rfl, rfl, rfl, Nat.le_of_ble_eq_true rfl, Nat.le_of_ble_eq_true rfl⟩
theorem located_write (stage : Stage) (acc : List Word) :
    Located Config.configuration (writeRecord stage acc) 4 rangeH4 .holding :=
  ⟨rfl, rfl, rfl, rfl, Nat.le_of_ble_eq_true rfl, Nat.le_of_ble_eq_true rfl⟩
/-- `ReadInput 0, 4` in flight: a read of a range without a hook. -/
def plainReadRecord (stage : Stage) : Dispatch :=
  { fc := 0x04, addr := 0, qty := 4, vals := [], stage := stage, tgt := some (.input, 0), acc := [7, 7, 7] }
theorem located_plain_read (stage : Stage) :
    Located Config.configuration (plainReadRecord stage) 0 rangeI0 .input :=
  ⟨rfl, rfl, rfl, rfl, Nat.le_of_ble_eq_true rfl, Nat.le_of_ble_eq_true rfl⟩
/-- `WriteMultipleHolding 8, 5, 6` in flight: a write to a range without a hook. -/
def plainWriteRecord (stage : Stage) (acc : List Word) : Dispatch :=
  { fc := 0x10, addr := 8, qty := 2, vals := [5, 6], stage := stage, tgt := some (.holding, 0), acc := acc }
theorem located_plain_write (stage : Stage) (acc : List Word) :
    Located Config.configuration (plainWriteRecord stage acc) 0 rangeH0 .holding :=
  ⟨rfl, rfl, rfl, rfl, Nat.le_of_ble_eq_true rfl, Nat.le_of_ble_eq_true rfl⟩
/-- `WriteHolding 51, 3` in flight. -/
def singleWriteRecord (stage : Stage) (acc : List Word) : Dispatch :=
  { fc := 0x06, addr := 51, qty := 1, vals := [3], stage := stage, tgt := some (.holding, 4), acc := acc }
theorem located_single_write (stage : Stage) (acc : List Word) :
    Located Config.configuration (singleWriteRecord stage acc) 4 rangeH4 .holding :=
  ⟨rfl, rfl, rfl, rfl, Nat.le_of_ble_eq_true rfl, Nat.le_of_ble_eq_true rfl⟩

theorem witness_DecodeOfEncodeIsIdentity :
    (Instr.readHolding 0xFFFF 0xFFFF).WellFormed ∧ (Instr.readInput 0 0).WellFormed ∧
    (Instr.writeHolding 65535 0 1).WellFormed ∧ (Instr.writeMultipleHolding 8 2 [5, 6]).WellFormed ∧
    (Instr.unsupported 0xFF 0 1).WellFormed := by decide
theorem witness_EncodeOfDecodeIsIdentity :
    decode { header := 0x1000080002, words := [5, 6] } = .ok (.writeMultipleHolding 8 2 [5, 6]) ∧
    decode { header := 0x8300000001, words := [7] } = .ok (.unsupported 0x83 0 1) ∧
    portDecode { header := 0x8300000001, words := [] } = .ok (.unsupported 0x83 0 1) := ⟨rfl, rfl, rfl⟩
theorem witness_RequestLengthDecidesDecoding :
    (0x05 : Byte) ∉ supportedCodes ∧ (0xFF : Byte) ∉ supportedCodes ∧ headerFc 0x0300640002 ∈ supportedCodes := by
  decide
theorem witness_ReplyDescriptorRoundTrip :
    decodeReply { kind := 3, fc := 0x83, a := 1, b := none, data := [] } =
      some (.exception 0x83 .illegalFunction) := by decide
theorem witness_WireRequestRoundTrip :
    (Instr.writeHolding 65535 1 0).WellFormed ∧
    ∃ values : List Word, (Instr.writeMultipleHolding 0 123 values).WellFormed ∧ (123 : Word).toNat ≤ 123 :=
  ⟨rfl, List.replicate 123 0, by simp [Instr.WellFormed, Instr.wellFormed], by decide⟩
theorem witness_WireReadReplyLayout : (List.replicate 125 (0xFFFF : Word)).length ≤ 125 := by simp
theorem witness_DescriptorCheckVerdict :
    (plain 5 0).count.toNat = 0 ∧
    ((plain 65535 2).count.toNat ≠ 0 ∧ (plain 65535 2).base.toNat + (plain 65535 2).count.toNat > 65536) ∧
    ((plain 65535 1).count.toNat ≠ 0 ∧ (plain 65535 1).base.toNat + (plain 65535 1).count.toNat ≤ 65536) := by decide
theorem witness_FirstFailingDescriptorDecides :
    spaceError [] [plain 10 10] = none ∧ rangeCheck (plain 2 65535) = some .addressOverflow ∧
    (rangeCheck (plain 19 1) = none ∧ (plain 10 10).covers 19 = true ∧ (plain 19 1).covers 19 = true) ∧
    spaceError [] (plainConfig [plain 0 0] []).holding = some .zeroCount ∧
    spaceError [] (plainConfig [plain 0 1] [plain 0 0]).holding = none := by decide
/-- A reset that comes at once in stage `Validate`, one that comes in a wait, and one of a halted engine. -/
theorem witness_ResetLeavesTheTableOfResetValues :
    (inFlight (readRecord .validate []) [.reset .atOnce]).agenda = [.reset .atOnce] ∧
    (inFlight (readRecord (.hookWait 0) []) [.reset .atWait]).agenda = [.reset .atWait] ∧
    engineTurn (inFlight (readRecord (.hookWait 0) []) [.reset .atWait]).phase = none ∧
    constructionError (haltedWith [.reset .atWait]).cfg = some .zeroCount ∧
    engineTurn (haltedWith [.reset .atWait]).phase = none ∧
    constructionError (idleWith [.reset .atOnce]).cfg = none ∧
    ((idleWith [.reset .atOnce]).cfg.ranges .holding)[3]? = some rangeH3 ∧ 1 < rangeH3.count.toNat := by decide
theorem witness_ResetForgetsCellsAndPhase :
    (inFlight (readRecord (.access 0) []) [.reset .atOnce]).cfg = (replyingWith [.reset .atOnce]).cfg ∧
    (inFlight (readRecord (.access 0) []) [.reset .atOnce]).restarts = (replyingWith [.reset .atOnce]).restarts ∧
    (inFlight (readRecord (.access 0) []) [.reset .atOnce]).agenda = [.reset .atOnce] ∧
    (replyingWith [.reset .atOnce]).agenda = [.reset .atOnce] := by decide
theorem witness_AbsentFieldsHaveTheirDefaults :
    ∃ d : RangeDecl, d.default = none ∧ d.number = none :=
  ⟨{ startAddress := 7, default := none, number := none, onRead := false, onWrite := false }, rfl, rfl⟩
theorem witness_AbsentFieldsHaveTheirDefaults_given :
    ∃ d : RangeDecl, d.default = some 5 ∧ d.number = some 2 :=
  ⟨{ startAddress := 7, default := some 5, number := some 2, onRead := false, onWrite := false }, rfl, rfl⟩
theorem witness_StepKeepsTheInvariant :
    Inv written ∧ Inv (accepted (.writeHolding 9 1 0) written) ∧
    phaseOf (step (accepted (.writeHolding 9 1 0) written)) = some (.replying (.writeSingleOk 9 0)) :=
  ⟨written_inv, ⟨by decide, rfl, cfgA_passes, rfl, rfl, rfl⟩, by decide⟩
/-- A request in flight that waits for its hook meets the invariant too. -/
theorem witness_NoStepFaultsUnderTheInvariant : Inv (inFlight (readRecord (.hookWait 1) [5]) []) :=
  ⟨by decide, rfl, cfgA_passes, rfl,
    ⟨1, rangeI1, .input, .read, located_read _ _, rfl, rfl⟩, by decide, rfl⟩
theorem witness_OnlyIllFormedRequestsAreRefused :
    turnOf (idleWith [.submit { header := 0x0600000001, words := [] }]) =
      .accept { header := 0x0600000001, words := [] } [] ∧
    ¬ Descriptor.WellFormed { header := 0x0600000001, words := [] } ∧
    turnOf (idleWith [.submit { header := 0x8300000001, words := [1] }]) =
      .accept { header := 0x8300000001, words := [1] } [] ∧
    ¬ Descriptor.WellFormed { header := 0x8300000001, words := [1] } := by decide
theorem witness_ConfigurationNeverChanges : nextOf (step State.reset) = some State.reset := by decide
theorem witness_InputCellsAreConstant :
    Reachable State.reset ∧ constructionError State.reset.cfg = none ∧ State.reset.cfg.input[1]? = some rangeI1 ∧
      1 < rangeI1.count.toNat :=
  ⟨⟨Config.configuration, [], 0, rfl⟩, by decide, rfl, by decide⟩
theorem witness_TurnsFollowTheTransitionTable :
    turnOf (idleWith []) = .wait ∧
    turnOf (idleWith [.take, .submit { header := 0x0300000001, words := [] }]) =
      .accept { header := 0x0300000001, words := [] } [.take] ∧
    turnOf (inFlight (readRecord (.hookWait 1) [5]) [.answer 0 (.ok 6)]) = .answer (.ok 6) [] ∧
    turnOf (replyingWith [.take]) = .take [] ∧
    turnOf (inFlight (readRecord .validate []) []) = .engine ∧
    turnOf (inFlight (readRecord (.access 0) []) [.reset .atOnce]) = .restart [] ∧
    turnOf (inFlight (readRecord (.access 0) []) [.reset .atWait]) = .engine ∧
    turnOf (restarted 1 [.answer 0 .fail]) = .discard [] := by decide
theorem witness_HaltedEngineNeverMoves :
    (haltedWith [.submit { header := 0x0300000001, words := [] }]).phase = .halted .zeroCount ∧
    ∀ m, Event.reset m ∉ (haltedWith [.submit { header := 0x0300000001, words := [] }]).agenda :=
  ⟨by decide, by simp [haltedWith, State.construct]⟩
/-- What stays on the agenda: a late answer, the host's moves. -/
theorem witness_UnansweredHookHangsForEver :
    ∃ s : State, s.phase = .dispatching (readRecord (.hookWait 0) []) ∧
    (readRecord (.hookWait 0) []).stage = .hookWait 0 ∧
      s.agenda = [.answer 0 .fail, .take, .submit { header := 0x0300000001, words := [] }] ∧
      (∀ m, Event.reset m ∉ s.agenda) ∧ ∀ a, Event.answer s.restarts a ∉ s.agenda :=
  ⟨{ inFlight (readRecord (.hookWait 0) []) [.answer 0 .fail, .take, .submit { header := 0x0300000001, words := [] }]
     with restarts := 1 }, rfl, rfl, rfl, by simp [inFlight, idleWith, State.construct],
    by simp [inFlight, idleWith, State.construct]⟩
theorem witness_UntakenReplyStopsTheEngine :
    (replyingWith [.submit { header := 0x0300000001, words := [] }]).phase = .replying (.readOk 0x03 [0]) ∧
    Event.take ∉ (replyingWith [.submit { header := 0x0300000001, words := [] }]).agenda ∧
    ∀ m, Event.reset m ∉ (replyingWith [.submit { header := 0x0300000001, words := [] }]).agenda :=
  ⟨by decide, by decide, by simp [replyingWith, idleWith, State.construct]⟩
theorem witness_RequestPortIsReadyExactlyInIdle :
    turnOf (idleWith [.submit { header := 0x0300000001, words := [] }]) =
      .accept { header := 0x0300000001, words := [] } [] ∧
    ∀ d, (replyingWith []).phase = .dispatching d → d.stage ≠ .validate :=
  ⟨by decide, fun _ h => by simp [replyingWith] at h⟩
theorem witness_TakingTheReplyMakesTheEngineIdle :
    (replyingWith [.take]).phase = .replying (.readOk 0x03 [0]) ∧ (replyingWith [.take]).agenda = [.take] := by decide
/-- In `Idle`, and while a newer call is outstanding. -/
theorem witness_LateAnswerIsDiscarded :
    (restarted 1 [.answer 0 (.ok 5)]).agenda = [.answer 0 (.ok 5)] ∧ 0 < (restarted 1 [.answer 0 (.ok 5)]).restarts ∧
    (restarted 1 [.answer 0 (.ok 5)]).phase = .idle ∧
    engineTurn (.dispatching (readRecord (.hookWait 1) [5])) = none ∧ engineTurn .idle = none := by decide
theorem witness_StepRunsTheDecodedRequest :
    (idleWith [.submit (encode (.writeHolding 3 1 5))]).phase = .idle ∧
    (idleWith [.submit (encode (.writeHolding 3 1 5))]).agenda = [.submit (encode (.writeHolding 3 1 5))] ∧
    turnOf (idleWith [.submit (encode (.writeHolding 3 1 5))]) = .accept (encode (.writeHolding 3 1 5)) [] ∧
    (encode (.writeHolding 3 1 5)).WellFormed ∧
    (Instr.writeHolding 3 1 5).WellFormed ∧
    Accepted (accepted (.writeHolding 3 1 5) State.reset) (.writeHolding 3 1 5) ∧
    resetAtOnce (accepted (.writeHolding 3 1 5) State.reset).agenda = none :=
  ⟨by decide, by decide, by decide, by decide, rfl, rfl, rfl⟩
theorem witness_WaitingRequestDoesNotBlockTheAnswer :
    (inFlight (readRecord (.hookWait 0) []) [.submit { header := 0, words := [] }, .answer 0 (.ok 1)]).phase =
      .dispatching (readRecord (.hookWait 0) []) ∧
    (inFlight (readRecord (.hookWait 0) []) []).restarts = 0 ∧
    (readRecord (.hookWait 0) []).stage = .hookWait 0 := by decide
theorem witness_ResolveFindsTheUniqueRange :
    RangesLegal Config.configuration.holding ∧ resolve Config.configuration.holding 65535 = some (3, 1) ∧
    resolve Config.configuration.holding 20 = none ∧
    ∃ rs', Config.configuration.holding.Perm rs' ∧ rs' ≠ Config.configuration.holding :=
  ⟨cfgA_legal.1, by decide, by decide, Config.configuration.holding.reverse, (List.reverse_perm _).symm, by decide⟩
theorem witness_ResolveSpanAcceptsExactlyWholeSpans :
    RangesLegal Config.configuration.holding ∧ (65534 < 65536 ∧ 1 ≤ 2) ∧
    resolveSpan Config.configuration.holding 65534 2 = .ok (3, 0) ∧
    ¬ ∃ r ∈ Config.configuration.holding, r.base.toNat ≤ 9 ∧ 9 + 2 ≤ r.base.toNat + r.count.toNat :=
  ⟨cfgA_legal.1, by decide, rfl, by decide⟩
theorem witness_AddressErrorKinds :
    RangesLegal Config.configuration.holding ∧ resolveSpan Config.configuration.holding 20 10 = .error .unmapped ∧
    resolveSpan Config.configuration.holding 65535 2 = .error .spanCrossesBoundary ∧
    kindSpace (kindOf 0x10) = some .holding ∧ quantityLegal Config.configuration (kindOf 0x10) 2 = true :=
  ⟨cfgA_legal.1, rfl, rfl, by decide, by decide⟩
theorem witness_SpansDoNotWrap :
    RangesLegal Config.configuration.holding ∧ 65535 < 65536 ∧ 65535 + 2 > 65536 := ⟨cfgA_legal.1, by decide, by decide⟩
theorem witness_UnsupportedCodeGetsIllegalFunction :
    (0x00 : Byte) ∉ supportedCodes ∧ (0x83 : Byte) ∉ supportedCodes ∧
    Accepted (accepted (.unsupported 0x83 0 1) State.reset) (.unsupported 0x83 0 1) ∧
    (inFlight (newDispatch 0x83 0 1 [7]) []).phase = .dispatching (newDispatch 0x83 0 1 [7]) ∧
    (newDispatch 0x83 0 1 [7]).stage = .validate ∧ resetAtOnce (inFlight (newDispatch 0x83 0 1 [7]) []).agenda = none :=
  ⟨by decide, by decide, rfl, rfl, rfl, rfl⟩
theorem witness_IllegalQuantityGetsIllegalDataValue :
    (∀ i, Accepted (accepted i State.reset) i) ∧
    ¬ (1 ≤ (0 : Word).toNat ∧ (0 : Word).toNat ≤ State.reset.cfg.qmaxRead) ∧
    ¬ (1 ≤ (126 : Word).toNat ∧ (126 : Word).toNat ≤ State.reset.cfg.qmaxRead) ∧ (2 : Word).toNat ≠ 1 ∧
    ¬ (1 ≤ (124 : Word).toNat ∧ (124 : Word).toNat ≤ State.reset.cfg.qmaxWrite) :=
  ⟨fun _ => rfl, by decide, by decide, by decide, by decide⟩
/-- One address past the first holding range and past the first input range, and the largest legal quantities. -/
theorem witness_SpanOutsideARangeGetsIllegalDataAddress :
    ConfigLegal State.reset.cfg ∧ (∀ i, Accepted (accepted i State.reset) i) ∧
    (¬ ∃ k r, SpanInRange State.reset.cfg .holding 0 125 k r) ∧ (125 : Word).toNat ≤ State.reset.cfg.qmaxRead ∧
    (¬ ∃ k r, SpanInRange State.reset.cfg .input 4 1 k r) ∧
    (¬ ∃ k r, SpanInRange State.reset.cfg .holding 20 1 k r) ∧
    (¬ ∃ k r, SpanInRange State.reset.cfg .holding 0 123 k r) ∧ (123 : Word).toNat ≤ State.reset.cfg.qmaxWrite := by
  have outside : ∀ (sp : Space) (a q : Word),
      (∀ r ∈ State.reset.cfg.ranges sp, ¬ (r.base.toNat ≤ a.toNat ∧ a.toNat + q.toNat ≤ r.base.toNat + r.count.toNat)) →
      ¬ ∃ k r, SpanInRange State.reset.cfg sp a q k r :=
    fun sp a q h ⟨_, r, hs⟩ => h r (List.mem_of_getElem? hs.range) ⟨hs.base, hs.limit⟩
  exact ⟨cfgA_legal, fun _ => rfl, outside _ _ _ (by decide), by decide, outside _ _ _ (by decide),
    outside _ _ _ (by decide), outside _ _ _ (by decide), by decide⟩
theorem witness_HookFailureGetsServerDeviceFailure :
    (inFlight (writeRecord (.hookWait 2) [1, 2]) [.answer 0 .fail]).phase =
      .dispatching (writeRecord (.hookWait 2) [1, 2]) ∧
    (writeRecord (.hookWait 2) [1, 2]).stage = .hookWait 2 ∧
    (inFlight (writeRecord (.hookWait 2) [1, 2]) []).restarts = 0 := by decide
theorem witness_ReadHoldingRepliesWithTheCells :
    Accepted (accepted (.readHolding 65534 2) State.reset) (.readHolding 65534 2) ∧
    SpanInRange State.reset.cfg .holding 65534 2 3 rangeH3 ∧ rangeH3.hasRd = false ∧
    1 ≤ (2 : Word).toNat ∧ (2 : Word).toNat ≤ State.reset.cfg.qmaxRead :=
  ⟨rfl, span_h3, rfl, by decide, by decide⟩
theorem witness_ReadInputRepliesWithTheCells :
    Accepted (accepted (.readInput 0 4) State.reset) (.readInput 0 4) ∧
    SpanInRange State.reset.cfg .input 0 4 0 rangeI0 ∧ rangeI0.hasRd = false ∧
    1 ≤ (4 : Word).toNat ∧ (4 : Word).toNat ≤ State.reset.cfg.qmaxRead :=
  ⟨rfl, span_i0, rfl, by decide, by decide⟩
theorem witness_HookedReadCallsTheReadHook :
    Accepted (accepted (readRequest .input 200 2) State.reset) (readRequest .input 200 2) ∧
    SpanInRange State.reset.cfg .input 200 2 1 rangeI1 ∧ rangeI1.hasRd = true ∧
    1 ≤ (2 : Word).toNat ∧ (2 : Word).toNat ≤ State.reset.cfg.qmaxRead :=
  ⟨rfl, span_i1, rfl, by decide, by decide⟩
/-- The last address of a span, with a hook and without. -/
theorem witness_AccessStepOfARead :
    Located Config.configuration (readRecord (.access 1) [5]) 1 rangeI1 .input ∧ rangeI1.hasRd = true ∧
    RangesLegal (Config.configuration.ranges .input) ∧ kindHook (kindOf 0x04) = some .read ∧ 1 < (2 : Word).toNat ∧
    Located Config.configuration (plainReadRecord (.access 3)) 0 rangeI0 .input ∧ rangeI0.hasRd = false ∧
    3 < (4 : Word).toNat :=
  ⟨located_read _ _, rfl, cfgA_legal.2, by decide, by decide, located_plain_read _, rfl, by decide⟩
theorem witness_AnswerStepOfAReadHook :
    (inFlight (readRecord (.hookWait 1) [5]) []).phase = .dispatching (readRecord (.hookWait 1) [5]) ∧
    (readRecord (.hookWait 1) [5]).stage = .hookWait 1 ∧
    kindHook (kindOf (readRecord (.hookWait 1) [5]).fc) = some .read := by decide
theorem witness_CommitOfARead :
    kindHook (kindOf (readRecord .commit [1, 2]).fc) = some .read ∧ (readRecord .commit [1, 2]).stage = .commit ∧
    (readRecord (.access 2) [1, 2]).stage = .access (readRecord (.access 2) [1, 2]).qty.toNat := by decide
/-- A hook that answers both calls, one that fails the second, one that falls silent, and a range without a hook: the
ends of the path. -/
theorem witness_ReadRequestIsTheReadPathFunction :
    (∀ (answers : List HookAnswer) (more : List Event), ∃ s : State, s.phase = .idle ∧
      SpanInRange s.cfg .input 200 2 1 rangeI1 ∧ rangeI1.hasRd = true ∧
      rawCells s .input 1 0 2 = some [0, 0] ∧ 1 ≤ (2 : Word).toNat ∧ (2 : Word).toNat ≤ s.cfg.qmaxRead ∧
      s.agenda = .submit (encode (readRequest .input 200 2)) :: (answers.map (.answer s.restarts) ++ more)) ∧
    pathLoop true [] [0, 0] [.ok 1, .ok 2] = .done [1, 2] [] ∧
    pathLoop true [] [0, 0] [.ok 1, .fail] = .failed [1] [] ∧ pathLoop true [] [0, 0] [.ok 1] = .hangs [1] ∧
    resetAtOnce [.take] = none ∧ (∀ m, Event.reset m ∉ [Event.take]) ∧ (∀ a, Event.answer 0 a ∉ [Event.take]) ∧
    ∃ s : State, s.phase = .idle ∧ SpanInRange s.cfg .input 0 4 0 rangeI0 ∧ rangeI0.hasRd = false ∧
      rawCells s .input 0 0 4 = some [7, 7, 7, 7] ∧ s.agenda = [.submit (encode (readRequest .input 0 4))] ∧
      pathLoop false [] [7, 7, 7, 7] [] = .done [7, 7, 7, 7] [] :=
  ⟨fun answers more => ⟨asked (readRequest .input 200 2) answers more, rfl, span_i1, rfl, rfl, by decide, Nat.le_of_ble_eq_true rfl, rfl⟩,
    by decide, by decide, by decide, rfl, by simp, by simp, idleWith _, rfl, span_i0, rfl, by decide, rfl, by decide⟩
theorem witness_WriteHoldingStoresTheWord :
    Accepted (accepted (.writeHolding 9 1 5) written) (.writeHolding 9 1 5) ∧
    Memory.wf written.cfg.holding written.holding = true ∧
    SpanInRange written.cfg .holding 9 1 0 rangeH0 ∧ rangeH0.hasWr = false :=
  ⟨rfl, by decide, span_h0_last, rfl⟩
theorem witness_WriteMultipleHoldingStoresTheWords :
    (∀ i, Accepted (accepted i written) i) ∧ Memory.wf written.cfg.holding written.holding = true ∧
    SpanInRange written.cfg .holding 0 10 0 rangeH0 ∧ rangeH0.hasWr = false ∧ 1 ≤ (10 : Word).toNat ∧
    (10 : Word).toNat ≤ written.cfg.qmaxWrite ∧ (List.replicate 10 (5 : Word)).length = (10 : Word).toNat :=
  ⟨fun _ => rfl, by decide, span_h0, rfl, by decide, by decide, by decide⟩
theorem writeRequest_hooked :
    WriteRequest Config.configuration (.writeMultipleHolding 50 3 [1, 2, 3]) 0x10 50 3 [1, 2, 3]
      (.writeMultipleOk 50 3) := .multiple 50 3 [1, 2, 3] rfl (by decide) (by decide)
theorem witness_HookedWriteCallsTheWriteHook :
    WriteRequest State.reset.cfg (.writeMultipleHolding 50 3 [1, 2, 3]) 0x10 50 3 [1, 2, 3] (.writeMultipleOk 50 3) ∧
    WriteRequest State.reset.cfg (.writeHolding 50 1 500) 0x06 50 1 [500] (.writeSingleOk 50 500) ∧
    (∀ i, Accepted (accepted i State.reset) i) ∧ SpanInRange State.reset.cfg .holding 50 3 4 rangeH4 ∧
    rangeH4.hasWr = true :=
  ⟨writeRequest_hooked, .single 50 500, fun _ => rfl, span_h4, rfl⟩
theorem witness_AccessStepOfAWrite :
    Located Config.configuration (writeRecord (.access 2) [1, 2]) 4 rangeH4 .holding ∧ rangeH4.hasWr = true ∧
    RangesLegal Config.configuration.holding ∧ kindHook (kindOf 0x10) = some .write ∧ 2 < (3 : Word).toNat ∧
    (writeRecord (.access 2) [1, 2]).vals[2]? = some 3 ∧
    Located Config.configuration (plainWriteRecord (.access 1) [5]) 0 rangeH0 .holding ∧ rangeH0.hasWr = false ∧
    (inFlight (plainWriteRecord (.access 1) [5]) []).cfg.failPolicy = .atomic ∧
    (inFlightPrefix (plainWriteRecord (.access 1) [5]) []).cfg.failPolicy = .prefixed :=
  ⟨located_write _ _, rfl, cfgA_legal.1, by decide, by decide, by decide, located_plain_write _ _, rfl, rfl, rfl⟩
theorem witness_AnswerStepOfAWriteHook :
    Located Config.configuration (writeRecord (.hookWait 2) [1, 2]) 4 rangeH4 .holding ∧
    (writeRecord (.hookWait 2) [1, 2]).stage = .hookWait 2 ∧ 2 < (3 : Word).toNat ∧
    kindHook (kindOf (writeRecord (.hookWait 2) [1, 2]).fc) = some .write ∧
    (inFlight (writeRecord (.hookWait 2) [1, 2]) []).cfg.failPolicy = .atomic ∧
    (inFlightPrefix (writeRecord (.hookWait 2) [1, 2]) []).cfg.failPolicy = .prefixed :=
  ⟨located_write _ _, rfl, by decide, by decide, rfl, rfl⟩
theorem witness_CommitOfAWrite :
    Located Config.configuration (writeRecord .commit [1, 2, 3]) 4 rangeH4 .holding ∧
    (writeRecord .commit [1, 2, 3]).vals.length = dataWords (kindOf 0x10) 3 ∧
    Located Config.configuration (singleWriteRecord .commit [9]) 4 rangeH4 .holding ∧
    (singleWriteRecord .commit [9]).vals.length = dataWords (kindOf 0x06) 1 ∧
    (writeRecord .commit [1, 2, 3]).acc.length = (3 : Word).toNat ∧
    (singleWriteRecord .commit [9]).acc.length = (1 : Word).toNat ∧
    Memory.wf Config.configuration.holding written.holding = true :=
  ⟨located_write _ _, by decide, located_single_write _ _, by decide, by decide, by decide, by decide⟩
theorem witness_WriteRequestIsTheWritePathFunction :
    (∀ (answers : List HookAnswer) (more : List Event), ∃ s : State, s.phase = .idle ∧
      Memory.wf s.cfg.holding s.holding = true ∧
      WriteRequest s.cfg (.writeMultipleHolding 50 3 [1, 2, 3]) 0x10 50 3 [1, 2, 3] (.writeMultipleOk 50 3) ∧
      SpanInRange s.cfg .holding 50 3 4 rangeH4 ∧ rangeH4.hasWr = true ∧
      s.agenda = .submit (encode (.writeMultipleHolding 50 3 [1, 2, 3])) ::
        (answers.map (.answer s.restarts) ++ more)) ∧
    pathLoop true [] [1, 2, 3] [.ok 1, .ok 9, .ok 3] = .done [1, 9, 3] [] ∧
    pathLoop true [] [1, 2, 3] [.ok 1, .fail] = .failed [1] [] ∧ pathLoop true [] [1, 2, 3] [.ok 9] = .hangs [9] ∧
    pathLoop false [] [5, 6] [] = .done [5, 6] [] ∧ resetAtOnce [.take] = none ∧
    (∀ m, Event.reset m ∉ [Event.take]) ∧ ∀ a, Event.answer 0 a ∉ [Event.take] :=
  ⟨fun answers more => ⟨asked (.writeMultipleHolding 50 3 [1, 2, 3]) answers more, rfl, rfl, writeRequest_hooked,
    span_h4, rfl, rfl⟩, by decide, by decide, by decide,
    by decide, rfl, by simp, by simp⟩
/-- The run of two reads ends with the second reply taken, not before (R184). -/
theorem witness_RepeatedReadGetsTheSameReply :
    ∃ s : State, s.phase = .idle ∧ SpanInRange s.cfg .holding 65534 2 3 rangeH3 ∧ rangeH3.hasRd = false ∧
      (2 : Word).toNat ≤ s.cfg.qmaxRead ∧
      s.agenda = [.submit (encode (readRequest .holding 65534 2)), .take,
        .submit (encode (readRequest .holding 65534 2)), .take] :=
  ⟨idleWith _, rfl, span_h3, rfl, by decide, rfl⟩
theorem witness_ReadHookCallsAscend :
    ∃ s : State, s.phase = .idle ∧ SpanInRange s.cfg .input 200 2 1 rangeI1 ∧ rangeI1.hasRd = true ∧
      rawCells s .input 1 0 2 = some [0, 0] ∧ (2 : Word).toNat ≤ s.cfg.qmaxRead ∧
      (∀ a ∈ [HookAnswer.ok 1, .fail].dropLast, a ≠ .fail) ∧ [HookAnswer.ok 1, .fail].getLast? = some .fail ∧
      s.agenda = .submit (encode (readRequest .input 200 2)) ::
        ([HookAnswer.ok 1, .fail].map (.answer s.restarts) ++ []) :=
  ⟨asked (readRequest .input 200 2) [.ok 1, .fail] [], rfl, span_i1, rfl, by decide, by decide, by decide, rfl, rfl⟩
theorem witness_WriteHookCallsAscend :
    ∃ s : State, s.phase = .idle ∧ Memory.wf s.cfg.holding s.holding = true ∧
      WriteRequest s.cfg (.writeMultipleHolding 50 3 [1, 2, 3]) 0x10 50 3 [1, 2, 3] (.writeMultipleOk 50 3) ∧
      SpanInRange s.cfg .holding 50 3 4 rangeH4 ∧ rangeH4.hasWr = true ∧
      (∀ a ∈ [HookAnswer.ok 1, .ok 2, .fail].dropLast, a ≠ .fail) ∧
      [HookAnswer.ok 1, .ok 2, .fail].getLast? = some .fail ∧
      s.agenda = .submit (encode (.writeMultipleHolding 50 3 [1, 2, 3])) ::
        ([HookAnswer.ok 1, .ok 2, .fail].map (.answer s.restarts) ++ []) :=
  ⟨asked (.writeMultipleHolding 50 3 [1, 2, 3]) [.ok 1, .ok 2, .fail] [], rfl, rfl, writeRequest_hooked, span_h4, rfl,
    by decide, rfl, rfl⟩
theorem witness_WriteThenReadReturnsTheWord :
    ∃ s : State, s.phase = .idle ∧ Memory.wf s.cfg.holding s.holding = true ∧ 1 ≤ s.cfg.qmaxRead ∧
      SpanInRange s.cfg .holding 9 1 0 rangeH0 ∧ rangeH0.hasRd = false ∧ rangeH0.hasWr = false ∧
      s.agenda = [.submit (encode (.writeHolding 9 1 0x5A5A)), .take, .submit (encode (.readHolding 9 1))] :=
  ⟨idleWith _, rfl, rfl, by decide, span_h0_last, rfl, rfl, rfl⟩
theorem witness_RequestsLeaveTheRestAlone :
    (0x05 : Byte) ∉ supportedCodes ∧ (nextOf (served (.unsupported 0x05 0 1))).isSome = true ∧
    (nextOf (served (.readHolding 0 1))).isSome = true ∧ (nextOf (served (.readInput 200 1))).isSome = true ∧
    (nextOf (served (.writeHolding 50 1 5))).isSome = true := by decide
theorem witness_ReadInputIgnoresTheHoldingFile :
    phaseOf (exec (.readInput 0 4) (accepted (.readInput 0 4) written)) =
      some (.replying (.readOk 0x04 [7, 7, 7, 7])) := by decide
theorem witness_WriteFailPolicyShowsOnlyAfterAHookCall :
    Inv (accepted (.writeMultipleHolding 8 2 [5, 6]) written) ∧ (Instr.writeMultipleHolding 8 2 [5, 6]).WellFormed ∧
    Accepted (accepted (.writeMultipleHolding 8 2 [5, 6]) written) (.writeMultipleHolding 8 2 [5, 6]) ∧
    (nextOf (exec (.writeMultipleHolding 8 2 [5, 6]) (accepted (.writeMultipleHolding 8 2 [5, 6]) written))).isSome =
      true :=
  ⟨⟨by decide, rfl, cfgA_passes, rfl, rfl, rfl⟩, rfl, rfl, by decide⟩

end Sys2Proof.Tests
end

section
/-!
The descriptor that a declaration gives (R9): one equation per field that a declaration may leave absent, and the scope
family's statement about them.
-/
namespace Sys2Proof.Machine

@[simp] theorem rangeOfDecl_base (d : RangeDecl) : (rangeOfDecl d).base = d.startAddress := rfl
@[simp] theorem rangeOfDecl_count (d : RangeDecl) : (rangeOfDecl d).count = d.number.getD 1 := rfl
@[simp] theorem rangeOfDecl_default (d : RangeDecl) : (rangeOfDecl d).default = d.default.getD 0 := rfl

/-- Settles O16: each field is the declaration's own, by `Option.getD`, with R9's value in its absence. -/
theorem absentFieldsHaveTheirDefaults : Obligations.AbsentFieldsHaveTheirDefaults := by
  intro d
  refine ⟨fun absent => ?default_absent, fun absent => ?number_absent, fun v given => ?default_given,
    fun n given => ?number_given, rangeOfDecl_base d⟩
  case default_absent => simp [absent]
  case number_absent => simp [absent]
  case default_given => simp [given]
  case number_given => simp [given]

end Sys2Proof.Machine
end

section
/-!
The invariant of the engine and what every step keeps (R20, R28, R36): the engine's turn under the invariant, one
inversion lemma for `step`, and the induction over a run.
-/
namespace Sys2Proof.Machine

/-! ### The invariant and the updates of the state -/

/-- What the engine or a hook unit changes keeps the invariant once the phase reached agrees with the configuration. -/
theorem Inv.of_effect {s t : State} (h : Inv s) (he : EngineEffect s t) (hp : PhaseOk t.cfg t.phase) : Inv t :=
  ⟨he.holding h.holding, he.input.trans h.input, hp⟩

theorem Inv.setPhase {s : State} {p : Phase} (h : Inv s) (hp : PhaseOk s.cfg p) : Inv (s.setPhase p) :=
  h.of_effect (.phase s p) hp

/-- No rule of the invariant speaks of the agenda. -/
theorem Inv.setAgenda {s : State} (h : Inv s) (es : List Event) : Inv (s.setAgenda es) :=
  ⟨h.holding, h.input, h.phase⟩

theorem inv_construct (cfg : Configuration) (agenda : List Event) : Inv (State.construct cfg agenda) :=
  ⟨wf_nil cfg.holding, rfl, phaseOk_initial cfg⟩

theorem inv_restart (s : State) : Inv (restart s) :=
  ⟨wf_nil s.cfg.holding, rfl, phaseOk_initial s.cfg⟩

/-- The record that T1 latches agrees with the configuration, whatever that is (R93). -/
theorem dispatchOf_ok {cfg : Configuration} {i : Instr} (h : i.WellFormed) : DispatchOk cfg (dispatchOf i) :=
  ⟨dispatchOf_words h, rfl, rfl⟩

theorem portDecode_wellFormed {d : Descriptor} {i : Instr} (h : portDecode d = .ok i) : i.WellFormed := by
  by_cases hd : d.WellFormed
  · exact decode_wellFormed (by rwa [portDecode_of_wellFormed hd] at h)
  · simp [portDecode_of_illFormed hd] at h

/-! ### The engine's turn -/

/-- Every request is served from the fields of its descriptor (R93). -/
theorem exec_eq_serve (i : Instr) (s : State) : exec i s =
    serve (dispatchOf i).fc (dispatchOf i).addr (dispatchOf i).qty (dispatchOf i).vals s := by
  cases i <;> simp [exec, execReadHolding, execReadInput, execWriteHolding, execWriteMultipleHolding,
    execUnsupported, dispatchOf, newDispatch, encode]

/-- Serving an accepted request, under the invariant (R101). -/
theorem exec_ok {i : Instr} {s : State} {d : Dispatch} (hi : i.WellFormed) (hph : s.phase = .dispatching d)
    (hst : d.stage = .validate) (h : Inv s) :
    ∃ t, exec i s = .next t ∧ EngineEffect s t ∧ PhaseOk t.cfg t.phase ∧ engineTurn t.phase = none := by
  have hp : PhaseOk s.cfg (.dispatching d) := hph ▸ h.phase
  rw [exec_eq_serve]
  exact serve_ok hph hst hp.1 h.holding (dispatchOf_words hi)

/-- A move that answers a state as the invariant wants it keeps the invariant. -/
theorem Inv.of_answer {s t : State} {x : Result} (h : Inv s)
    (hx : ∃ u, x = .next u ∧ EngineEffect s u ∧ PhaseOk u.cfg u.phase) (ht : x = .next t) : Inv t := by
  obtain ⟨u, hu, heff, hp⟩ := hx
  obtain rfl : u = t := by simpa [hu] using ht
  exact h.of_effect heff hp

/-- The engine's turn keeps the invariant, from whatever stage it starts (R90, R101). -/
theorem engineMove_inv {s t : State} (h : Inv s) (ht : engineMove s = .next t) : Inv t := by
  cases hph : s.phase with
  | dispatching d =>
    cases hst : d.stage with
    | validate =>
      simp only [engineMove, hph, hst] at ht
      split at ht
      · rename_i i hdec
        obtain ⟨u, hu, heff, hp, -⟩ := exec_ok (decode_wellFormed hdec) hph hst h
        exact h.of_answer ⟨u, hu, heff, hp⟩ ht
      · cases ht
    | hookWait i =>
      obtain rfl : s = t := by simpa [engineMove, hph, hst] using ht
      exact h
    | access i | commit =>
      rw [engineMove_goesOn hph (by simp [hst]) (by simp [hst])] at ht
      obtain ⟨u, hu, heff, hp, -⟩ := runEngine_ok h.phase h.holding
      exact h.of_answer ⟨u, hu, heff, hp⟩ ht
  | halted _ | idle | replying _ =>
    obtain rfl : s = t := by simpa [engineMove, hph] using ht
    exact h

/-- The engine's turn changes the holding file and the phase at most, in any state (R27, R95). -/
theorem engineMove_next {s t : State} (h : engineMove s = .next t) : EngineEffect s t := by
  unfold engineMove at h
  split at h
  · cases h; exact .refl s
  · cases h; exact .refl s
  · cases h; exact .refl s
  · split at h
    · split at h
      · exact exec_next h
      · cases h
    · exact runEngine_next h
    · cases h; exact .refl s
    · exact runEngine_next h

/-! ### One step -/

/-- Everything a step can do, in any state: a reset constructs the engine anew, and every other turn changes the agenda,
the holding file and the phase at most. -/
theorem step_next {s t : State} (h : step s = .next t) :
    (∃ rest, turnOf s = .restart rest ∧ t = restart (s.setAgenda rest)) ∨
      ∃ es, EngineEffect (s.setAgenda es) t := by
  cases hturn : turnOf s <;> simp only [step, hturn] at h
  case wait => cases h; exact .inr ⟨s.agenda, .refl s⟩
  case engine => exact .inr ⟨s.agenda, engineMove_next h⟩
  case accept d rest =>
    split at h
    · cases h; exact .inr ⟨rest, .phase _ _⟩
    · cases h
  case answer a rest => exact .inr ⟨rest, answerHook_next h⟩
  case take rest => cases h; exact .inr ⟨rest, .phase _ _⟩
  case restart rest => cases h; exact .inl ⟨rest, rfl, rfl⟩
  case discard rest => cases h; exact .inr ⟨rest, .refl _⟩

/-- Settles O20: reset constructs from the same configuration, and no other turn reaches it. -/
theorem configurationNeverChanges : Obligations.ConfigurationNeverChanges := by
  intro s t h
  obtain ⟨rest, -, rfl⟩ | ⟨es, heff⟩ := step_next h
  · rfl
  · exact heff.cfg

/-- Settles O17: the turns one by one. The engine's turn and the hook unit's answer keep the invariant by the laws of
the engine's steps, T1 latches a record without target, T7 and a late answer touch no cell, and reset constructs. -/
theorem stepKeepsTheInvariant : Obligations.StepKeepsTheInvariant := by
  intro s t h ht
  cases hturn : turnOf s <;> simp only [step, hturn] at ht
  case wait => cases ht; exact h
  case engine => exact engineMove_inv h ht
  case accept d rest =>
    split at ht
    · rename_i i hport
      cases ht
      have hidle : PhaseOk s.cfg .idle := (turnOf_accept hturn).1 ▸ h.phase
      exact (h.setAgenda rest).setPhase ⟨hidle, dispatchOf_ok (portDecode_wellFormed hport)⟩
    · cases ht
  case answer a rest =>
    obtain ⟨⟨d, i, hph, hst⟩, -⟩ := turnOf_answer hturn
    exact (h.setAgenda rest).of_answer (answerHook_ok hph hst h.phase) ht
  case take rest =>
    cases ht
    obtain ⟨r, hph⟩ := turnOf_take hturn
    have hreplying : PhaseOk s.cfg (.replying r) := hph ▸ h.phase
    exact (h.setAgenda rest).setPhase (p := .idle) hreplying
  case restart rest => cases ht; exact inv_restart _
  case discard rest => cases ht; exact h.setAgenda rest

/-- Settles O15: nothing is listed in either file, and the phase is the verdict of construction. -/
theorem constructedStateMeetsTheInvariant : Obligations.ConstructedStateMeetsTheInvariant :=
  ⟨inv_construct, inv_construct Config.configuration []⟩

/-! ### Runs -/

/-- What every step keeps holds at the end of every run. -/
theorem run_keeps {P : State → Prop} (hstep : ∀ s t, P s → step s = .next t → P t) :
    ∀ {n : Nat} {s t : State}, P s → Host.Core.run core n s = .next t → P t
  | 0, s, t, hs, h => by cases h; exact hs
  | n + 1, s, t, hs, h => by
    simp only [Host.Core.run] at h
    split at h
    · rename_i s' hs'
      exact run_keeps hstep (hstep s s' hs hs') h
    · cases h
    · cases h

/-- Every reachable state meets the invariant. -/
theorem Reachable.inv {t : State} (h : Reachable t) : Inv t := by
  obtain ⟨cfg, agenda, n, hrun⟩ := h
  exact run_keeps stepKeepsTheInvariant (inv_construct cfg agenda) hrun

end Sys2Proof.Machine
end

section
/-!
What construction and reset leave in the cells (R36, R170 to R175): construction passes only on legal, disjoint ranges,
and on those an empty file reads as the defaults.
-/
namespace Sys2Proof.Machine

/-! ### The checks of construction -/

theorem rangeCheck_none_iff (r : Range) : rangeCheck r = none ↔ RangeLegal r := by
  have hlimit : r.limit > spaceSize ↔ r.base.toNat + r.count.toNat > 65536 := Iff.rfl
  have hzero : r.count = 0 ↔ r.count.toNat = 0 := by simp [← BitVec.toNat_inj]
  simp only [rangeCheck, RangeLegal, hzero, hlimit]
  split_ifs <;> simp <;> omega

theorem registerCheck_none_iff (earlier : List Range) (r : Range) :
    registerCheck earlier r = none ↔ ∀ q ∈ earlier, Apart q r := by
  have hmeets (q : Range) : q.meets r.base.toNat r.limit = false ↔ Apart q r := by
    rw [← Bool.not_eq_true, meets_iff]
    simp only [Apart, covers_iff r]
    constructor
    · rintro h a ⟨hq, hlo, hhi⟩; exact h ⟨a, hlo, hhi, hq⟩
    · rintro h ⟨a, hlo, hhi, hq⟩; exact h a ⟨hq, hlo, hhi⟩
  simp [registerCheck, hmeets]

/-- The checks of a space pass exactly when its ranges are legal, disjoint, and disjoint from those registered before
them (R171 to R173). -/
theorem spaceError_none_iff (earlier rs : List Range) :
    spaceError earlier rs = none ↔ RangesLegal rs ∧ ∀ q ∈ earlier, ∀ r ∈ rs, Apart q r := by
  induction rs generalizing earlier with
  | nil => simp [spaceError, RangesLegal]
  | cons r rs ih =>
    have hcons : spaceError earlier (r :: rs) = none ↔
        rangeCheck r = none ∧ registerCheck earlier r = none ∧ spaceError (earlier ++ [r]) rs = none := by
      simp only [spaceError]
      cases rangeCheck r <;> cases registerCheck earlier r <;> simp
    rw [hcons, rangeCheck_none_iff, registerCheck_none_iff, ih]
    simp only [RangesLegal, List.forall_mem_cons, List.pairwise_cons, List.forall_mem_append,
      List.not_mem_nil, false_implies, implies_true, and_true]
    constructor
    · rintro ⟨hr, hearlier, ⟨hrs, hpair⟩, hbefore, hapart⟩
      exact ⟨⟨⟨hr, hrs⟩, hapart, hpair⟩, fun q hq => ⟨hearlier q hq, hbefore q hq⟩⟩
    · rintro ⟨⟨⟨hr, hrs⟩, hapart, hpair⟩, hbefore⟩
      exact ⟨hr, fun q hq => (hbefore q hq).1, ⟨hrs, hpair⟩, fun q hq => (hbefore q hq).2, hapart⟩

theorem constructionError_none_legal {cfg : Configuration} (h : constructionError cfg = none) : ConfigLegal cfg := by
  unfold constructionError at h
  split at h
  · cases h
  · rename_i hholding
    exact ⟨((spaceError_none_iff _ _).1 hholding).1, ((spaceError_none_iff _ _).1 h).1⟩

theorem ConfigLegal.ranges {cfg : Configuration} (h : ConfigLegal cfg) (sp : Space) : RangesLegal (cfg.ranges sp) := by
  cases sp with
  | holding => exact h.1
  | input => exact h.2

/-! ### Cells at their defaults -/

/-- An address belongs to one range at most (R44). -/
theorem RangesLegal.eq_of_covers {rs : List Range} (h : RangesLegal rs) {r q : Range} {a : Nat} (hr : r ∈ rs)
    (hq : q ∈ rs) (hra : r.covers a = true) (hqa : q.covers a = true) : q = r := by
  by_contra hne
  have hsymm : Std.Symm Apart := ⟨fun _ _ hap b hb => hap b hb.symm⟩
  exact h.2.forall hq hr hne a ⟨hqa, hra⟩

/-- Where nothing is listed, a cell holds its range's default (R26, R36). -/
theorem readCell_default {s : State} {sp : Space} {k o : Nat} {r : Range} (hl : RangesLegal (s.cfg.ranges sp))
    (hfile : s.file sp = []) (hk : (s.cfg.ranges sp)[k]? = some r) (ho : o < r.count.toNat) :
    readCell s sp k o = some r.default := by
  have hmem := List.mem_of_getElem? hk
  have hcov : r.covers (r.base.toNat + o) = true := by rw [covers_iff]; omega
  have hdflt := unlisted_of_only hmem hcov fun q hq hqc => hl.eq_of_covers hmem hq hcov hqc
  rw [readCell_eq hk ho, hfile]
  simp [Memory.read, Memory.lookup, hdflt]

/-! ### Reset -/

theorem initialPhase_halted {cfg : Configuration} {e : ConfigError} (h : constructionError cfg = some e) :
    initialPhase cfg = .halted e := by simp [initialPhase, h]

theorem initialPhase_idle {cfg : Configuration} (h : constructionError cfg = none) : initialPhase cfg = .idle := by
  simp [initialPhase, h]

theorem replyOffered_idle {s : State} (h : s.phase = .idle) : replyOffered s = none := by simp [replyOffered, h]

theorem hookCall_idle {s : State} (h : s.phase = .idle) : s.hookCall = none := by simp [State.hookCall, h]

/-- A reset that stands first on the agenda comes next where the engine waits, and a reset at once comes even before
the engine's step (R170). -/
theorem turnOf_reset {s : State} {m : Moment} {rest : List Event} (ha : s.agenda = .reset m :: rest)
    (hm : m = .atOnce ∨ engineTurn s.phase = none) : turnOf s = .restart rest := by
  cases hmove : engineTurn s.phase with
  | none => exact turnOf_cons hmove ha rfl
  | some d =>
    obtain rfl : m = .atOnce := hm.resolve_right (by simp [hmove])
    simp [turnOf, hmove, ha, resetAtOnce]

/-- Settles O13: the step is the restart; the phase is the verdict of construction, and where that passes the ranges
are disjoint, so that the empty files read as the defaults. -/
theorem resetLeavesTheTableOfResetValues : Obligations.ResetLeavesTheTableOfResetValues := by
  intro s m rest ha hm
  refine ⟨restart (s.setAgenda rest), by simp [step, turnOf_reset ha hm], rfl, rfl, rfl,
    fun e he => initialPhase_halted he, fun hpass => ?passed⟩
  case passed =>
    have hidle : (restart (s.setAgenda rest)).phase = .idle := initialPhase_idle hpass
    have hempty (sp : Space) : (restart (s.setAgenda rest)).file sp = [] := by cases sp <;> rfl
    exact ⟨hidle, replyOffered_idle hidle, hookCall_idle hidle, fun sp k r o hk ho =>
      readCell_default ((constructionError_none_legal hpass).ranges sp) (hempty sp) hk ho⟩

end Sys2Proof.Machine
end

section
/-!
Runs of the machine (R28, R30, R157): the input cells of a reachable state, and the endless wait of a halted engine.
-/
namespace Sys2Proof.Machine

/-- Settles O21: a reachable state meets the invariant, so its input file is empty, and where construction passed an
empty file reads as the defaults. -/
theorem inputCellsAreConstant : Obligations.InputCellsAreConstant := by
  intro t hreach hpass k r o hk ho
  have hlegal : RangesLegal (t.cfg.ranges .input) := (constructionError_none_legal hpass).ranges .input
  exact readCell_default hlegal hreach.inv.input hk ho

/-- A state that steps to itself is where every run from it ends. -/
theorem run_of_step_self {s : State} (h : step s = .next s) (n : Nat) : Host.Core.run core n s = .next s := by
  have hcore : core.step s = .next s := h
  induction n with
  | zero => rfl
  | succ n ih => simpa only [Host.Core.run, hcore] using ih

/-- Where the engine has no step and no event of the agenda is enabled, nobody moves (R98, R157, R177). -/
theorem turnOf_wait {s : State} (hn : engineTurn s.phase = none)
    (h : ∀ e ∈ s.agenda, eventEnabled s e = false) : turnOf s = .wait := by
  simp [turnOf, hn, nextEvent_none_iff.2 h]

/-- A halted engine enables reset alone (R30). -/
theorem eventEnabled_halted {s : State} {c : ConfigError} (hph : s.phase = .halted c) {e : Event}
    (he : ∀ m, e ≠ .reset m) : eventEnabled s e = false := by
  cases e with
  | reset m => exact absurd rfl (he m)
  | submit d => simp [eventEnabled, hph]
  | answer n a => simp [eventEnabled, hph]
  | take => simp [eventEnabled, hph]

/-- Settles O23: no event but reset is enabled, so the halted engine waits, and a wait is a step to the same state. -/
theorem haltedEngineNeverMoves : Obligations.HaltedEngineNeverMoves := by
  intro s c hph hreset
  have hwait : turnOf s = .wait := turnOf_wait (by simp [hph, engineTurn]) fun e he =>
    eventEnabled_halted hph fun m hm => hreset m (hm ▸ he)
  exact run_of_step_self (by simp [step, hwait])

end Sys2Proof.Machine
end

section
/-!
The packed range descriptor (R21): where each field lies in the 50 bits.
-/
namespace Sys2Proof

/-- The table of R21, bit by bit. -/
theorem packRange_getLsbD (r : Range) (i : Nat) : (packRange r).getLsbD i =
    if i < 16 then r.base.getLsbD i
    else if i < 32 then r.count.getLsbD (i - 16)
    else if i < 48 then r.default.getLsbD (i - 32)
    else if i = 48 then r.hasRd
    else if i = 49 then r.hasWr
    else false := by
  simp only [packRange, BitVec.getLsbD_append, BitVec.getLsbD_ofBool]
  by_cases h₁ : i < 16
  · simp [h₁]
  by_cases h₂ : i < 32
  · simp [h₁, h₂, show i - 16 < 16 by omega]
  by_cases h₃ : i < 48
  · simp [h₁, h₂, h₃, show ¬ i - 16 < 16 by omega, show i - 16 - 16 = i - 32 by omega,
      show i - 32 < 16 by omega]
  · by_cases h₄ : i = 48
    · simp [h₄]
    · simp [h₁, h₂, h₃, h₄, show ¬ i - 16 < 16 by omega, show ¬ i - 16 - 16 < 16 by omega,
        show i - 16 - 16 - 16 - 1 = 0 ↔ i = 49 by omega, show i - 16 - 16 - 16 ≠ 0 by omega]

@[simp] theorem packRange_base (r : Range) : (packRange r).extractLsb' 0 16 = r.base := by
  ext i hi
  simp [packRange_getLsbD, hi]

@[simp] theorem packRange_count (r : Range) : (packRange r).extractLsb' 16 16 = r.count := by
  ext i hi
  simp [packRange_getLsbD, show 16 + i < 32 by omega, BitVec.getLsbD_eq_getElem hi]

@[simp] theorem packRange_default (r : Range) : (packRange r).extractLsb' 32 16 = r.default := by
  ext i hi
  simp [packRange_getLsbD, show ¬ 32 + i < 16 by omega,
    show 32 + i < 48 by omega, BitVec.getLsbD_eq_getElem hi]

@[simp] theorem packRange_hasRd (r : Range) : (packRange r)[48] = r.hasRd := packRange_getLsbD r 48

@[simp] theorem packRange_hasWr (r : Range) : (packRange r)[49] = r.hasWr := packRange_getLsbD r 49

theorem unpackRange_packRange (r : Range) : unpackRange (packRange r) = r := by
  simp [unpackRange]

theorem packRange_unpackRange (v : BitVec 50) : packRange (unpackRange v) = v := by
  apply BitVec.eq_of_getLsbD_eq
  intro i hi
  simp only [packRange_getLsbD, unpackRange, BitVec.getLsbD_extractLsb']
  split_ifs with h₁ h₂ h₃ h₄ h₅
  · simp [h₁]
  · simp [show i - 16 < 16 by omega, show 16 + (i - 16) = i by omega]
  · simp [show i - 32 < 16 by omega, show 32 + (i - 32) = i by omega]
  · rw [h₄]
  · rw [h₅]
  · omega

/-- Settles O6: the five fields by their bits, and the two round trips. -/
theorem rangeDescriptorBits : Obligations.RangeDescriptorBits :=
  ⟨fun r => ⟨packRange_base r, packRange_count r, packRange_default r, packRange_hasRd r, packRange_hasWr r⟩,
    unpackRange_packRange, packRange_unpackRange⟩

end Sys2Proof
end

section
/-!
What requests leave alone (R20, R27, R29, R42, R43): a request that is no write leaves the holding file, and a ReadInput
does not depend on it.
-/
namespace Sys2Proof.Machine

/-! ### Requests that are no writes -/

/-- A request in flight is of kind `k`, and its target, once set, is in that kind's space (R42). -/
def Aimed (k : Kind) : Phase → Prop
  | .halted _ => True
  | .idle => True
  | .dispatching d => kindOf d.fc = k ∧ ∀ sp i, d.tgt = some (sp, i) → kindSpace k = some sp
  | .replying _ => True

theorem aimed_newDispatch {fc : Byte} {k : Kind} (addr qty : Word) (vals : List Word) (hk : kindOf fc = k) :
    Aimed k (.dispatching (newDispatch fc addr qty vals)) :=
  ⟨hk, by simp [newDispatch]⟩

/-- Serving a request that waits to be served is the engine's merged steps from its fresh record (R93, R101). -/
theorem serve_waiting {fc : Byte} {addr qty : Word} {vals : List Word} {s : State} {d : Dispatch}
    (hph : s.phase = .dispatching d) (hst : d.stage = .validate) : serve fc addr qty vals s =
      settle (settleFuel qty) (s.setPhase (.dispatching (newDispatch fc addr qty vals))) := by
  simp only [serve, hph, hst, runEngine, setPhase_phase]
  rfl

section
variable {s t : State} {d : Dispatch} {k : Kind}

theorem validateStep_aimed (hd : kindOf d.fc = k) (h : validateStep s d = .next t) :
    ∃ p, t = s.setPhase p ∧ Aimed k p := by
  unfold validateStep at h
  split at h
  · cases h; exact ⟨_, rfl, trivial⟩
  · rename_i sp i hval
    cases h
    obtain ⟨r, hloc⟩ := validate_ok hval (.access 0)
    have hspace : kindSpace k = some sp := hd ▸ hloc.space
    exact ⟨_, rfl, hd, by simpa using hspace⟩

theorem accessRead_aimed {i : Nat} (hd : Aimed k (.dispatching d)) (h : accessRead s d i = .next t) :
    ∃ p, t = s.setPhase p ∧ Aimed k p := by
  unfold accessRead at h
  split at h
  · cases h
  · split at h
    · cases h
    · split at h <;> (cases h; exact ⟨_, rfl, hd⟩)

/-- An access step that is no write's is a read's (R90). -/
theorem accessStep_of_not_write {i : Nat} (hk : kindHook (kindOf d.fc) ≠ some .write)
    (h : accessStep s d i = .next t) : accessRead s d i = .next t := by
  unfold accessStep at h
  cases hkind : kindOf d.fc <;> simp_all [kindHook]

/-- A commit step that is no write's is a read's (R90). -/
theorem commitStep_of_not_write (hk : kindHook (kindOf d.fc) ≠ some .write)
    (h : commitStep s d = .next t) : commitRead s d = .next t := by
  unfold commitStep at h
  cases hkind : kindOf d.fc <;> simp_all [kindHook]

/-- An engine step of a request that is no write changes the phase alone (R27, R117). -/
theorem engineStep_aimed (hk : kindHook k ≠ some .write) (hp : Aimed k s.phase)
    (hturn : engineTurn s.phase = some d) (h : engineStep s d = .next t) : ∃ p, t = s.setPhase p ∧ Aimed k p := by
  obtain ⟨hph, -⟩ := engineTurn_some hturn
  have hd : Aimed k (.dispatching d) := hph ▸ hp
  have hkd : kindHook (kindOf d.fc) ≠ some .write := hd.1.symm ▸ hk
  unfold engineStep at h
  split at h
  · exact validateStep_aimed hd.1 h
  · split at h
    · exact accessRead_aimed hd (accessStep_of_not_write hkd h)
    · split at h
      · cases h; exact ⟨_, rfl, hd⟩
      · cases h
  · cases h; exact ⟨s.phase, rfl, hp⟩
  · have hcommit := commitStep_of_not_write hkd h
    cases hcommit; exact ⟨_, rfl, trivial⟩

theorem settle_aimed {n : Nat} (hk : kindHook k ≠ some .write) (hp : Aimed k s.phase) (h : settle n s = .next t) :
    ∃ p, t = s.setPhase p ∧ Aimed k p :=
  settle_keeps (P := fun u => ∃ p, u = s.setPhase p ∧ Aimed k p)
    (fun _ _ _ hturn hu hstep => by
      obtain ⟨q, rfl, hq⟩ := hu
      obtain ⟨p, rfl, hp⟩ := engineStep_aimed hk hq hturn hstep
      exact ⟨p, rfl, hp⟩)
    ⟨s.phase, rfl, hp⟩ h

/-- Serving a request that is no write changes the phase alone, in any state. -/
theorem serve_of_not_write {fc : Byte} {addr qty : Word} {vals : List Word}
    (hk : kindHook (kindOf fc) ≠ some .write) (h : serve fc addr qty vals s = .next t) : ∃ p, t = s.setPhase p := by
  by_cases hwaits : ∃ d, s.phase = .dispatching d ∧ d.stage = .validate
  · obtain ⟨d, hph, hst⟩ := hwaits
    rw [serve_waiting hph hst] at h
    obtain ⟨p, rfl, -⟩ := settle_aimed hk (aimed_newDispatch addr qty vals rfl) h
    exact ⟨p, rfl⟩
  · rw [serve_busy fun d hph hst => hwaits ⟨d, hph, hst⟩] at h
    cases h; exact ⟨s.phase, rfl⟩

end

/-- Settles O58: no request reaches past the holding file and the phase, and one that is no write changes the phase
alone. -/
theorem requestsLeaveTheRestAlone : Obligations.RequestsLeaveTheRestAlone := by
  refine ⟨fun i s t h => ?every_request, fun addr qty fc s t hfc h => ?no_write⟩
  case every_request =>
    have heff := exec_next h
    exact ⟨heff.cfg, heff.input, heff.agenda, heff.restarts⟩
  case no_write =>
    have hkind : kindOf fc = .unsupported := (kindOf_unsupported_iff fc).2 (by simpa using hfc)
    obtain ⟨p, rfl⟩ : ∃ p, t = s.setPhase p := by
      rcases h with h | h | h
      · exact serve_of_not_write (by decide) h
      · exact serve_of_not_write (by decide) h
      · exact serve_of_not_write (by simp [hkind, kindHook]) h
    rfl

/-! ### Two runs of a ReadInput from different holding files -/

@[simp] theorem readCell_input_setHolding (s : State) (m : Memory) (k o : Nat) :
    readCell (s.setHolding m) .input k o = readCell s .input k o := by simp [readCell]

section
variable {s t : State} {d : Dispatch} (m : Memory)

/-- The target of a request is the one its record holds (R110, R130). -/
theorem target_some {sp : Space} {k o : Nat} {r : Range} (h : target s d = some (sp, k, r, o)) :
    d.tgt = some (sp, k) := by
  unfold target at h
  split at h
  · cases h
  · split at h
    · cases h
    · split at h <;> simp_all

theorem validateStep_setHolding (h : validateStep s d = .next t) :
    validateStep (s.setHolding m) d = .next (t.setHolding m) := by
  unfold validateStep at h ⊢
  cases hval : validate s.cfg d with
  | error c => simp only [hval, setHolding_cfg] at h ⊢; cases h; rfl
  | ok x => simp only [hval, setHolding_cfg] at h ⊢; cases h; rfl

/-- A read step of a request aimed at the input space reads no holding cell (R29, R43). -/
theorem accessRead_setHolding {i : Nat} (hd : Aimed .readInput (.dispatching d)) (h : accessRead s d i = .next t) :
    accessRead (s.setHolding m) d i = .next (t.setHolding m) := by
  cases htgt : target s d with
  | none => simp [accessRead, htgt] at h
  | some x =>
    obtain ⟨sp, k, r, o⟩ := x
    obtain rfl : Space.input = sp := by simpa [kindSpace] using hd.2 sp k (target_some htgt)
    simp only [accessRead, target_setHolding, htgt, readCell_input_setHolding] at h ⊢
    split at h
    · cases h
    · split at h <;> (cases h; simp_all)

theorem engineStep_setHolding (hd : Aimed .readInput (.dispatching d)) (h : engineStep s d = .next t) :
    engineStep (s.setHolding m) d = .next (t.setHolding m) := by
  have hkind : kindOf d.fc = .readInput := hd.1
  cases hst : d.stage with
  | validate =>
    simp only [engineStep, hst] at h ⊢
    exact validateStep_setHolding m h
  | access i =>
    simp only [engineStep, hst, accessStep, hkind] at h ⊢
    split_ifs at h ⊢
    · exact accessRead_setHolding m hd h
    · cases h; rfl
  | hookWait i => simp only [engineStep, hst] at h ⊢; cases h; rfl
  | commit => simp only [engineStep, hst, commitStep, hkind, commitRead] at h ⊢; cases h; rfl

theorem settle_setHolding {n : Nat} (hp : Aimed .readInput s.phase) (h : settle n s = .next t) :
    settle n (s.setHolding m) = .next (t.setHolding m) := by
  induction n generalizing s with
  | zero => simp only [settle] at h ⊢; cases h; rfl
  | succ n ih =>
    cases hturn : engineTurn s.phase with
    | none =>
      rw [settle_wait hturn] at h
      cases h; exact settle_wait hturn
    | some d =>
      cases hstep : engineStep s d with
      | next s' =>
        rw [settle_step hturn hstep] at h
        obtain ⟨p, rfl, hp'⟩ := engineStep_aimed (by decide) hp hturn hstep
        have hd : Aimed .readInput (.dispatching d) := (engineTurn_some hturn).1 ▸ hp
        rw [settle_step (s := s.setHolding m) hturn (engineStep_setHolding m hd hstep)]
        exact ih hp' h
      | fault f => simp [settle, hturn, hstep] at h
      | refused x => simp [settle, hturn, hstep] at h

end

/-- Settles O59: validation looks at the configuration alone, and every later step of a ReadInput reads cells of the
input file alone, so the two runs agree step by step. -/
theorem readInputIgnoresTheHoldingFile : Obligations.ReadInputIgnoresTheHoldingFile := by
  intro addr qty s t m h
  change serve 0x04 addr qty [] s = .next t at h
  change serve 0x04 addr qty [] (s.setHolding m) = .next (t.setHolding m)
  by_cases hwaits : ∃ d, s.phase = .dispatching d ∧ d.stage = .validate
  · obtain ⟨d, hph, hst⟩ := hwaits
    rw [serve_waiting hph hst] at h
    rw [serve_waiting (s := s.setHolding m) hph hst]
    exact settle_setHolding m (aimed_newDispatch addr qty [] (by decide)) h
  · have hbusy : ∀ d, s.phase = .dispatching d → d.stage ≠ .validate := fun d hph hst => hwaits ⟨d, hph, hst⟩
    rw [serve_busy hbusy] at h
    cases h; exact serve_busy hbusy

end Sys2Proof.Machine
end

section
/-!
No step faults under the invariant (spec/20_memory.md R47, spec/40_dispatch.md R90): a record that the invariant allows
holds a request, and each turn answers a next state or refuses at the port.
-/
namespace Sys2Proof.Machine

/-- The decoder has a request for every well-formed descriptor (R63, R64). -/
theorem decode_of_wellFormed {d : Descriptor} (h : d.WellFormed) : ∃ i, decode d = .ok i := by
  simp only [Descriptor.WellFormed, Descriptor.calledFor] at h
  cases hk : kindOf (headerFc d.header) <;> simp only [hk, dataWords] at h
  case readHolding | readInput =>
    have hnil : d.words = [] := List.eq_nil_of_length_eq_zero h
    simp [decode, hk, hnil]
  case writeHolding =>
    obtain ⟨v, hv⟩ := List.length_eq_one_iff.1 h
    simp [decode, hk, hv]
  case writeMultipleHolding => simp [decode, hk, h]
  case unsupported => simp [decode, hk]

/-- A record with as many data words as its fields call for holds a well-formed descriptor (R31, R64). -/
theorem requestOf_wellFormed {d : Dispatch} (h : d.vals.length = dataWords (kindOf d.fc) d.qty) :
    (requestOf d).WellFormed := by
  simpa [Descriptor.WellFormed, Descriptor.calledFor, requestOf] using h

/-- The engine's turn answers a next state under the invariant, from whatever stage it starts (R90, R103). -/
theorem engineMove_answers {s : State} (h : Inv s) : ∃ t, engineMove s = .next t := by
  cases hph : s.phase with
  | dispatching d =>
    cases hst : d.stage with
    | validate =>
      have hp : PhaseOk s.cfg (.dispatching d) := hph ▸ h.phase
      obtain ⟨-, hvals, -⟩ := hp
      obtain ⟨i, hdec⟩ := decode_of_wellFormed (requestOf_wellFormed hvals)
      obtain ⟨t, ht, -⟩ := exec_ok (decode_wellFormed hdec) hph hst h
      exact ⟨t, by simp [engineMove, hph, hst, hdec, ht]⟩
    | hookWait i => exact ⟨s, by simp [engineMove, hph, hst]⟩
    | access i | commit =>
      obtain ⟨t, ht, -⟩ := runEngine_ok h.phase h.holding
      exact ⟨t, by rw [engineMove_goesOn hph (by simp [hst]) (by simp [hst]), ht]⟩
  | halted _ | idle | replying _ => exact ⟨s, by simp [engineMove, hph]⟩

/-- Settles O18: only the engine's turn and a hook unit's answer could fault, and under the invariant each of the two
answers a next state. -/
theorem noStepFaultsUnderTheInvariant : Obligations.NoStepFaultsUnderTheInvariant := by
  intro s f h hfault
  cases hturn : turnOf s <;> simp only [step, hturn] at hfault
  case engine =>
    obtain ⟨t, ht⟩ := engineMove_answers h
    simp [ht] at hfault
  case answer a rest =>
    obtain ⟨⟨d, i, hph, hst⟩, -⟩ := turnOf_answer hturn
    obtain ⟨t, ht, -⟩ := answerHook_ok (a := a) (s := s.setAgenda rest) hph hst h.phase
    simp [ht] at hfault
  case accept d rest => split at hfault <;> cases hfault
  case wait | take | restart | discard => cases hfault

end Sys2Proof.Machine
end

section
/-!
The address decoder of a legal space (spec/20_memory.md R44 to R50): construction and legality, the one range that
covers an address, the range that holds a span, and the kinds of its failures.
-/
namespace Sys2Proof.Machine

/-! ### Construction -/

/-- Settles O11: the two spaces are checked one after the other, each by `spaceError_none_iff`. -/
theorem constructionPassesExactlyOnLegalRanges : Obligations.ConstructionPassesExactlyOnLegalRanges := by
  refine fun cfg => ⟨constructionError_none_legal, fun ⟨hholding, hinput⟩ => ?legal_passes⟩
  case legal_passes =>
    have hpass {rs : List Range} (h : RangesLegal rs) : spaceError [] rs = none :=
      (spaceError_none_iff [] rs).2 ⟨h, by simp⟩
    simp [constructionError, hpass hholding, hpass hinput]

/-! ### One address -/

theorem RangesLegal.tail {r : Range} {rs : List Range} (h : RangesLegal (r :: rs)) : RangesLegal rs :=
  ⟨fun q hq => h.1 q (List.mem_cons_of_mem r hq), h.2.of_cons⟩

/-- In a legal space a range that covers the address is the one `resolve` finds, at its own index (R46). -/
theorem resolve_of_covers {rs : List Range} {a k : Nat} {r : Range} (hl : RangesLegal rs) (hk : rs[k]? = some r)
    (hc : r.covers a = true) : resolve rs a = some (k, a - r.base.toNat) := by
  induction rs generalizing k with
  | nil => simp at hk
  | cons q rs ih =>
    cases k with
    | zero =>
      obtain rfl : q = r := by simpa using hk
      simp [resolve, hc]
    | succ k =>
      have hk' : rs[k]? = some r := by simpa using hk
      have hapart : Apart q r := List.rel_of_pairwise_cons hl.2 (List.mem_of_getElem? hk')
      have hq : ¬ q.covers a = true := fun hq => hapart a ⟨hq, hc⟩
      simp [resolve, hq, ih hl.tail hk']

/-- Where one range alone covers an address, `resolve` leads to that range and the offset in it, wherever in the list it
stands (R46). -/
theorem resolve_of_only {rs : List Range} {r : Range} {a : Nat} (hr : r ∈ rs) (hc : r.covers a = true)
    (only : ∀ q ∈ rs, q.covers a = true → q = r) :
    (resolve rs a).map (fun ko => (rs[ko.1]?, ko.2)) = some (some r, a - r.base.toNat) := by
  cases h : resolve rs a with
  | none => simp [resolve_none_iff.1 h r hr] at hc
  | some ko =>
    obtain ⟨q, hq, hqc, ho⟩ := resolve_some (k := ko.1) (o := ko.2) h
    obtain rfl := only q (List.mem_of_getElem? hq) hqc
    simp [hq, ho]

/-- Settles O31: what `resolve` answers covers the address, a covering range is found because no other covers the
address, and a permuted list has the same ranges. -/
theorem resolveFindsTheUniqueRange : Obligations.ResolveFindsTheUniqueRange := by
  intro rs a hl
  refine ⟨fun k o => ⟨fun h => ?found_covers, ?covering_found⟩, ?fails, fun rs' hperm => ?permuted⟩
  case found_covers =>
    obtain ⟨r, hk, hc, ho⟩ := resolve_some h
    obtain ⟨hlo, hhi⟩ := (covers_iff r a).1 hc
    exact ⟨r, hk, hlo, hhi, ho⟩
  case covering_found =>
    rintro ⟨r, hk, hlo, hhi, rfl⟩
    exact resolve_of_covers hl hk ((covers_iff r a).2 ⟨hlo, hhi⟩)
  case fails =>
    simp only [resolve_none_iff, ← covers_iff, Bool.not_eq_true]
  case permuted =>
    by_cases hcov : ∃ r ∈ rs, r.covers a = true
    · obtain ⟨r, hr, hc⟩ := hcov
      have only : ∀ q ∈ rs, q.covers a = true → q = r := fun q hq hqc => hl.eq_of_covers hr hq hc hqc
      rw [resolve_of_only hr hc only,
        resolve_of_only (hperm.mem_iff.1 hr) hc fun q hq => only q (hperm.mem_iff.2 hq)]
    · have hnone : resolve rs a = none := resolve_none_iff.2 (by simpa using hcov)
      have hnone' : resolve rs' a = none :=
        resolve_none_iff.2 fun q hq => resolve_none_iff.1 hnone q (hperm.mem_iff.2 hq)
      rw [hnone, hnone']
      rfl

/-! ### A span of addresses -/

/-- A span that no range holds has no place in the space, whatever the ranges (R48). -/
theorem resolveSpan_error {rs : List Range} {a q : Nat}
    (h : ¬ ∃ r ∈ rs, r.base.toNat ≤ a ∧ a + q ≤ r.base.toNat + r.count.toNat) :
    ∃ e, resolveSpan rs a q = .error e := by
  cases hres : resolveSpan rs a q with
  | error e => exact ⟨e, rfl⟩
  | ok ko =>
    obtain ⟨r, hk, hlo, hhi, -⟩ := resolveSpan_ok (k := ko.1) (o := ko.2) hres
    exact absurd ⟨r, List.mem_of_getElem? hk, hlo, hhi⟩ h

/-- Settles O32: what the span decoder answers holds the span, and in a legal space it finds a range that does. -/
theorem resolveSpanAcceptsExactlyWholeSpans : Obligations.ResolveSpanAcceptsExactlyWholeSpans := by
  refine fun rs a q hl _ h1 => ⟨fun k o => ⟨resolveSpan_ok, ?holding_found⟩, resolveSpan_error⟩
  case holding_found =>
    rintro ⟨r, hk, hlo, hhi, rfl⟩
    exact resolveSpan_of_legal hl hk hlo hhi h1

/-- Settles O34: a legal range ends at 65536 at most, so none holds a span that runs past it. -/
theorem spansDoNotWrap : Obligations.SpansDoNotWrap := by
  intro rs a q hl _ hpast
  refine resolveSpan_error ?none_holds
  case none_holds =>
    rintro ⟨r, hr, -, hhi⟩
    have hlegal := (hl.1 r hr).2
    omega

/-! ### The kinds of failure -/

/-- A span touches a range exactly when one of its addresses in the space is mapped (R48). -/
theorem spanTouches_iff {rs : List Range} {a q : Nat} : spanTouches rs a q = true ↔
    ∃ b, a ≤ b ∧ b < a + q ∧ b < 65536 ∧ resolve rs b ≠ none := by
  have hmapped (b : Nat) : resolve rs b ≠ none ↔ ∃ r ∈ rs, r.covers b = true := by simp [resolve_none_iff]
  simp only [spanTouches, List.any_eq_true, meets_iff, lt_min_iff, hmapped]
  constructor
  · rintro ⟨r, hr, b, hlo, ⟨hhi, htop⟩, hc⟩
    exact ⟨b, hlo, hhi, htop, r, hr, hc⟩
  · rintro ⟨b, hlo, hhi, htop, r, hr, hc⟩
    exact ⟨r, hr, b, hlo, ⟨hhi, htop⟩, hc⟩

/-- The failure is `Unmapped` exactly when the span touches no range (R49): a mapped start is touched itself. -/
theorem resolveSpan_unmapped_iff {rs : List Range} {a q : Nat} (ha : a < 65536) (h1 : 1 ≤ q) :
    resolveSpan rs a q = .error .unmapped ↔ spanTouches rs a q = false := by
  cases hres : resolve rs a with
  | none => cases htouch : spanTouches rs a q <;> simp [resolveSpan, hres, htouch]
  | some ko =>
    obtain ⟨r, hk, -⟩ := resolve_some (k := ko.1) (o := ko.2) hres
    have htouch : spanTouches rs a q = true := spanTouches_iff.2 ⟨a, le_rfl, by omega, ha, by simp [hres]⟩
    simp only [resolveSpan, hres, hk, htouch]
    split_ifs <;> simp

/-- In a legal space the failure is `SpanCrossesBoundary` exactly when the span touches a range and none holds it
(R49). -/
theorem resolveSpan_crosses_iff {rs : List Range} {a q : Nat} (hl : RangesLegal rs) (ha : a < 65536) (h1 : 1 ≤ q) :
    resolveSpan rs a q = .error .spanCrossesBoundary ↔ spanTouches rs a q = true ∧
      ¬ ∃ r ∈ rs, r.base.toNat ≤ a ∧ a + q ≤ r.base.toNat + r.count.toNat := by
  have hunmapped := resolveSpan_unmapped_iff (rs := rs) ha h1
  constructor
  · intro h
    refine ⟨by simpa [h] using hunmapped, ?_⟩
    rintro ⟨r, hr, hlo, hhi⟩
    obtain ⟨k, hk⟩ := List.mem_iff_getElem?.1 hr
    simp [resolveSpan_of_legal hl hk hlo hhi h1] at h
  · rintro ⟨htouch, hnone⟩
    obtain ⟨e, he⟩ := resolveSpan_error hnone
    cases e with
    | unmapped => simp [hunmapped.1 he] at htouch
    | spanCrossesBoundary => exact he

/-- Settles O33: the two kinds by whether the span touches a range; validation turns either into the same exception. -/
theorem addressErrorKinds : Obligations.AddressErrorKinds := by
  refine ⟨fun rs a q hl ha h1 => ⟨?unmapped, ?crosses⟩, fun cfg d sp e hsp hq he => ?same_reply⟩
  case unmapped =>
    rw [resolveSpan_unmapped_iff ha h1, ← Bool.not_eq_true, spanTouches_iff]
    push Not
    rfl
  case crosses =>
    rw [resolveSpan_crosses_iff hl ha h1, spanTouches_iff]
  case same_reply =>
    simp [validate, hsp, hq, he]

end Sys2Proof.Machine
end

section
/-!
A request served without a hook call takes three steps (T1, the engine's turn, T7; spec/40_dispatch.md R90): what such
steps show, and the run of two equal reads (spec/20_memory.md R54, spec/70_reset_and_hazards.md R184).
-/
namespace Sys2Proof.Machine

/-- From `s` the port accepts `q`, the engine goes through to the reply `r` without a hook call, and the host takes it:
three steps, over `s₁` and `s₂`, to `t`. -/
structure ServedAtOnce (q : Descriptor) (r : Reply) (s s₁ s₂ t : State) : Prop where
  accepted : ∃ rest, turnOf s = .accept q rest
  accept_step : step s = .next s₁
  moves : turnOf s₁ = .engine
  engine_step : step s₁ = .next s₂
  taken : ∃ rest, turnOf s₂ = .take rest
  offered : replyOffered s₂ = some r
  take_step : step s₂ = .next t

section
variable {q : Descriptor} {r : Reply} {s s₁ s₂ t : State} (h : ServedAtOnce q r s s₁ s₂ t) (n : Nat)
include h

theorem ServedAtOnce.run_eq : Host.Core.run core (n + 3) s = Host.Core.run core n t := by
  have h₀ : core.step s = .next s₁ := h.accept_step
  have h₁ : core.step s₁ = .next s₂ := h.engine_step
  have h₂ : core.step s₂ = .next t := h.take_step
  simp only [Host.Core.run, h₀, h₁, h₂]

theorem ServedAtOnce.requestsAccepted_eq : requestsAccepted (n + 3) s = q :: requestsAccepted n t := by
  obtain ⟨rest, haccept⟩ := h.accepted
  obtain ⟨rest', htake⟩ := h.taken
  simp [requestsAccepted, haccept, h.accept_step, h.moves, h.engine_step, htake, h.take_step]

theorem ServedAtOnce.transactions_eq : transactions (n + 3) s none = (q, r) :: transactions n t none := by
  obtain ⟨rest, haccept⟩ := h.accepted
  obtain ⟨rest', htake⟩ := h.taken
  simp [transactions, pendingAfter, haccept, h.accept_step, h.moves, h.engine_step, htake, h.offered,
    h.take_step]

/-- Before its three steps are over no reply has been taken. -/
theorem ServedAtOnce.transactions_before {m : Nat} (hm : m < 3) : transactions m s none = [] := by
  obtain ⟨rest, haccept⟩ := h.accepted
  obtain _ | _ | _ | m := m
  · rfl
  · simp [transactions, haccept, h.accept_step]
  · simp [transactions, haccept, h.accept_step, h.moves, h.engine_step]
  · omega

theorem ServedAtOnce.callsAnswered_eq : callsAnswered (n + 3) s = callsAnswered n t := by
  obtain ⟨rest, haccept⟩ := h.accepted
  obtain ⟨rest', htake⟩ := h.taken
  simp [callsAnswered, haccept, h.accept_step, h.moves, h.engine_step, htake, h.take_step]

end

/-- The run of two requests served at once, one after the other, ends after six steps (R184). -/
theorem endOfRun_two {q₁ q₂ : Descriptor} {r₁ r₂ : Reply} {s s₁ s₂ t t₁ t₂ u : State}
    (hs : ServedAtOnce q₁ r₁ s s₁ s₂ t) (ht : ServedAtOnce q₂ r₂ t t₁ t₂ u) (hidle : u.phase = .idle) :
    EndOfRun [q₁, q₂] s 6 u := by
  refine ⟨⟨?run, hidle, ?accepted, ?answered⟩, fun m hm v => ?not_before⟩
  case run => rw [hs.run_eq 3, ht.run_eq 0]; rfl
  case accepted => rw [hs.requestsAccepted_eq 3, ht.requestsAccepted_eq 0]; rfl
  case answered => rw [hs.transactions_eq 3, ht.transactions_eq 0]; rfl
  case not_before =>
    rintro ⟨-, -, -, hboth⟩
    obtain hlt | ⟨j, rfl⟩ : m < 3 ∨ ∃ j, m = j + 3 := by
      by_cases hlt : m < 3
      · exact .inl hlt
      · exact .inr ⟨m - 3, by omega⟩
    · simp [hs.transactions_before hlt] at hboth
    · simp [hs.transactions_eq, ht.transactions_before (m := j) (by omega)] at hboth

/-! ### The three steps of a request -/

theorem decode_of_portDecode {d : Descriptor} {i : Instr} (h : portDecode d = .ok i) : decode d = .ok i := by
  by_cases hd : d.WellFormed
  · rwa [portDecode_of_wellFormed hd] at h
  · simp [portDecode_of_illFormed hd] at h

section
variable {s t : State} {i : Instr} {r : Reply} {rest : List Event}

/-- T1: an idle engine accepts the request that stands first on the agenda (R93). -/
theorem step_submit {d : Descriptor} (hidle : s.phase = .idle) (ha : s.agenda = .submit d :: rest)
    (hport : portDecode d = .ok i) : turnOf s = .accept d rest ∧
      step s = .next ((s.setAgenda rest).setPhase (.dispatching (dispatchOf i))) := by
  have hturn : turnOf s = .accept d rest :=
    turnOf_cons (by simp [hidle, engineTurn]) ha (eventEnabled_submit.2 hidle)
  exact ⟨hturn, by simp [step, hturn, hport]⟩

/-- The step after T1 runs the accepted request, unless a reset comes before it (R90, R101). -/
theorem step_accepted (hph : s.phase = .dispatching (dispatchOf i)) (hreset : resetAtOnce s.agenda = none)
    (hdec : decode (encode i) = .ok i) : turnOf s = .engine ∧ step s = exec i s := by
  have hturn : turnOf s = .engine := turnOf_moves (by rw [hph]; exact engineTurn_validate rfl) hreset
  exact ⟨hturn, by simp [step, hturn, engineMove_accepted hph hdec]⟩

/-- T7: the host takes the reply (R99). -/
theorem step_take (hph : s.phase = .replying r) (ha : s.agenda = .take :: rest) :
    turnOf s = .take rest ∧ step s = .next ((s.setAgenda rest).setPhase .idle) := by
  have hturn : turnOf s = .take rest :=
    turnOf_cons (by simp [hph, engineTurn]) ha (eventEnabled_take.2 ⟨r, hph⟩)
  exact ⟨hturn, by simp [step, hturn]⟩

/-- A request that `exec` takes through to its reply, with its take next on the agenda, is served at once. -/
theorem servedAtOnce_of_exec (hidle : s.phase = .idle) (ha : s.agenda = .submit (encode i) :: .take :: rest)
    (hport : portDecode (encode i) = .ok i)
    (hexec : exec i ((s.setAgenda (.take :: rest)).setPhase (.dispatching (dispatchOf i))) = .next t)
    (hreply : t.phase = .replying r) :
    ∃ s₁, ServedAtOnce (encode i) r s s₁ t ((t.setAgenda rest).setPhase .idle) := by
  obtain ⟨haccept, hsubmit⟩ := step_submit hidle ha hport
  obtain ⟨hmoves, hserve⟩ := step_accepted
    (s := (s.setAgenda (.take :: rest)).setPhase (.dispatching (dispatchOf i))) rfl rfl (decode_of_portDecode hport)
  have hagenda : t.agenda = .take :: rest := (exec_next hexec).agenda
  obtain ⟨htake, hdone⟩ := step_take hreply hagenda
  have hoffered : replyOffered t = some r := by simp [replyOffered, hreply]
  exact ⟨_, ⟨⟨_, haccept⟩, hsubmit, hmoves, hserve.trans hexec, ⟨rest, htake⟩, hoffered, hdone⟩⟩

end

/-! ### The reads -/

@[simp] theorem spaceCells_setAgenda (s : State) (es : List Event) (sp : Space) :
    spaceCells (s.setAgenda es) sp = spaceCells s sp := by
  cases sp <;> rfl

@[simp] theorem rawCells_setPhase (s : State) (p : Phase) (sp : Space) (k o n : Nat) :
    rawCells (s.setPhase p) sp k o n = rawCells s sp k o n := by
  induction n generalizing o with
  | zero => rfl
  | succ n ih => simp [rawCells, ih]

/-- The port gives a read request back (R63, R93). -/
theorem portDecode_readRequest (sp : Space) (addr qty : Word) :
    portDecode (encode (readRequest sp addr qty)) = .ok (readRequest sp addr qty) := by
  cases sp <;>
    simp [portDecode, Descriptor.WellFormed, Descriptor.calledFor, decode, readRequest, encode, kindOf, dataWords]

theorem exec_readRequest (sp : Space) (addr qty : Word) (s : State) :
    exec (readRequest sp addr qty) s = serve (readCode sp) addr qty [] s := by
  cases sp <;> rfl

theorem kindSpace_readCode (sp : Space) : kindSpace (kindOf (readCode sp)) = some sp := by
  cases sp <;> rfl

theorem kindHook_readCode (sp : Space) : kindHook (kindOf (readCode sp)) = some .read := by
  cases sp <;> rfl

theorem quantityLegal_readCode {cfg : Configuration} {sp : Space} {q : Nat} :
    quantityLegal cfg (kindOf (readCode sp)) q = true ↔ 1 ≤ q ∧ q ≤ cfg.qmaxRead := by
  cases sp <;> simp [readCode, kindOf, quantityLegal]

section
variable {s : State} {sp : Space} {addr qty : Word} {k : Nat} {r : Range} {vals : List Word}

/-- An accepted read of a range without a read hook goes through to its reply (R111, R112, R119). -/
theorem exec_read_plain (hph : s.phase = .dispatching (dispatchOf (readRequest sp addr qty)))
    (h1 : 1 ≤ qty.toNat) (hmax : qty.toNat ≤ s.cfg.qmaxRead) (hspan : SpanInRange s.cfg sp addr qty k r)
    (hh : r.hasRd = false) (hvals : rawCells s sp k (addr.toNat - r.base.toNat) qty.toNat = some vals) :
    exec (readRequest sp addr qty) s = .next (s.setPhase (.replying (.readOk (readCode sp) vals))) := by
  obtain ⟨hloc, hserve⟩ := serve_located (vals := []) hph (dispatchOf_stage _) (kindSpace_readCode sp) h1
    (quantityLegal_readCode.2 ⟨h1, hmax⟩) hspan
  rw [exec_readRequest, hserve]
  simpa [newDispatch] using settle_read_plain (n := 0) (i := 0) (m := qty.toNat) hh hloc (kindHook_readCode sp) rfl
    (Nat.zero_add _) hvals

/-- A read of a range without a read hook that stands next on the agenda, with its take, is served at once: only the
agenda is used up. -/
theorem read_servedAtOnce {rest : List Event} (hidle : s.phase = .idle)
    (ha : s.agenda = .submit (encode (readRequest sp addr qty)) :: .take :: rest)
    (h1 : 1 ≤ qty.toNat) (hmax : qty.toNat ≤ s.cfg.qmaxRead) (hspan : SpanInRange s.cfg sp addr qty k r)
    (hh : r.hasRd = false) (hvals : rawCells s sp k (addr.toNat - r.base.toNat) qty.toNat = some vals) :
    ∃ s₁ s₂, ServedAtOnce (encode (readRequest sp addr qty)) (.readOk (readCode sp) vals) s s₁ s₂
      (s.setAgenda rest) := by
  have hexec := exec_read_plain (s := (s.setAgenda (.take :: rest)).setPhase
    (.dispatching (dispatchOf (readRequest sp addr qty)))) rfl h1 hmax hspan hh (by simpa using hvals)
  obtain ⟨s₁, hserved⟩ := servedAtOnce_of_exec hidle ha (portDecode_readRequest sp addr qty) hexec rfl
  have hend : (s.setAgenda rest).setPhase .idle = s.setAgenda rest :=
    state_ext rfl rfl rfl hidle.symm rfl rfl
  exact ⟨s₁, _, hend ▸ hserved⟩

end

/-- Settles O54: each of the two reads is served at once, the second from the state of the first but for the agenda, so
it gathers the same cells. -/
theorem repeatedReadGetsTheSameReply : Obligations.RepeatedReadGetsTheSameReply := by
  rintro s sp addr qty k r q hidle h1 hmax hspan hh rfl ha
  have hinside : addr.toNat - r.base.toNat + qty.toNat ≤ r.count.toNat := by
    have hbase := hspan.base
    have hlimit := hspan.limit
    omega
  obtain ⟨vals, hvals, hlen, -⟩ := rawCells_span (s := s) hspan.range hinside
  obtain ⟨s₁, s₂, hfirst⟩ := read_servedAtOnce hidle ha h1 hmax hspan hh hvals
  obtain ⟨t₁, t₂, hsecond⟩ := read_servedAtOnce
    (s := s.setAgenda [.submit (encode (readRequest sp addr qty)), .take]) (rest := []) hidle rfl h1 hmax hspan hh
    ((rawCells_setAgenda ..).trans hvals)
  refine ⟨endOfRun_two hfirst hsecond hidle, ?no_call, vals, hlen, ?observed⟩
  case no_call => rw [hfirst.callsAnswered_eq 3, hsecond.callsAnswered_eq 0]; rfl
  case observed =>
    have hreplies := (hfirst.transactions_eq 3).trans (congrArg _ (hsecond.transactions_eq 0))
    have hcells := spaceCells_setAgenda s []
    simp only [observation, hreplies]
    exact congrArg₂ (Observation.mk _) (hcells .holding) (hcells .input)

end Sys2Proof.Machine
end

section
/-!
The request descriptor (R60 to R65, R93): its number, and the two round trips of decoder, encoder and port.
-/
namespace Sys2Proof.Machine

/-! ### The header -/

theorem mkHeader_toNat (fc : Byte) (addr qty : Word) :
    (mkHeader fc addr qty).toNat = fc.toNat * 2 ^ 32 + addr.toNat * 2 ^ 16 + qty.toNat := by
  have happend (n : Nat) (w : Word) : n <<< 16 ||| w.toNat = n * 2 ^ 16 + w.toNat := by
    rw [← Nat.shiftLeft_add_eq_or_of_lt w.isLt, Nat.shiftLeft_eq]
  simp only [mkHeader, BitVec.toNat_append, happend]
  omega

/-- Settles O3: the second clause is the number of an append; the first follows, since a header is made of its fields. -/
theorem headerIsTheNumberOfItsFields : Obligations.HeaderIsTheNumberOfItsFields :=
  ⟨fun h => by simpa only [mkHeader_fields] using mkHeader_toNat (headerFc h) (headerAddr h) (headerQty h),
    mkHeader_toNat⟩

/-! ### Well-formed requests and their descriptors -/

theorem not_mem_supportedCodes_iff {fc : Byte} : fc ∉ supportedCodes ↔ kindOf fc = .unsupported := by
  rw [kindOf_unsupported_iff, List.contains_eq_mem, decide_eq_false_iff_not]

@[simp] theorem wellFormed_writeMultipleHolding {addr qty : Word} {values : List Word} :
    (Instr.writeMultipleHolding addr qty values).WellFormed ↔ values.length = qty.toNat := by
  simp [Instr.WellFormed, Instr.wellFormed]

@[simp] theorem wellFormed_unsupported {fc : Byte} {addr qty : Word} :
    (Instr.unsupported fc addr qty).WellFormed ↔ kindOf fc = .unsupported := by
  simp [Instr.WellFormed, Instr.wellFormed, kindOf_unsupported_iff]

theorem encode_wellFormed {i : Instr} (h : i.WellFormed) : (encode i).WellFormed := dispatchOf_words h

/-- R63, R100: an unsupported code is decoded whatever words follow the header. -/
theorem decode_of_unsupported {d : Descriptor} (hk : kindOf (headerFc d.header) = .unsupported) :
    decode d = .ok (.unsupported (headerFc d.header) (headerAddr d.header) (headerQty d.header)) := by
  simp [decode, hk]

theorem decode_encode {i : Instr} (h : i.WellFormed) : decode (encode i) = .ok i := by
  cases i with
  | readHolding addr qty | readInput addr qty | writeHolding addr qty value => simp [decode, encode, kindOf]
  | writeMultipleHolding addr qty values =>
    have hlen : values.length = qty.toNat := wellFormed_writeMultipleHolding.1 h
    simp [decode, encode, kindOf, hlen]
  | unsupported fc addr qty =>
    have hk : kindOf fc = .unsupported := wellFormed_unsupported.1 h
    simp [decode, encode, hk]

/-- Settles O1, constructor by constructor; a WriteMultipleHolding has the `qty` words its header calls for, and the code
of an unsupported request selects no other row of the table. -/
theorem decodeOfEncodeIsIdentity : Obligations.DecodeOfEncodeIsIdentity := fun _ => decode_encode

/-- Settles O5: each word is the descriptor of its request. -/
theorem sampleWordsDecode : Obligations.SampleWordsDecode :=
  ⟨decode_encode (i := .readHolding 100 2) rfl, decode_encode (i := .readInput 200 2) rfl,
    decode_encode (i := .writeHolding 3 1 0x1234) rfl, decode_encode (i := .writeMultipleHolding 8 2 [5, 6]) rfl,
    decode_encode (i := .unsupported 0x83 0 1) rfl⟩

/-- R63: a code is one of the four of the table or selects no kind. -/
theorem supported_or_unsupported (fc : Byte) :
    fc = 0x03 ∨ fc = 0x04 ∨ fc = 0x06 ∨ fc = 0x10 ∨ kindOf fc = .unsupported := by
  by_cases h : fc ∈ supportedCodes
  · simpa [supportedCodes, or_assoc] using Or.inl h
  · simp [not_mem_supportedCodes_iff.1 h]

/-- R63, R64: what the decoder accepts is the descriptor of its request, but for the words of an unsupported code. -/
theorem encode_of_decode {d : Descriptor} {i : Instr} (h : decode d = .ok i) :
    encode i = { header := d.header, words := if headerFc d.header ∈ supportedCodes then d.words else [] } := by
  obtain ⟨header, words⟩ := d
  rw [← mkHeader_fields header] at h ⊢
  generalize headerFc header = fc, headerAddr header = addr, headerQty header = qty at h ⊢
  obtain rfl | rfl | rfl | rfl | hk := supported_or_unsupported fc
  · cases words with
    | cons w ws => simp [decode, kindOf] at h
    | nil =>
      obtain rfl : .readHolding addr qty = i := by simpa [decode, kindOf] using h
      simp [encode, supportedCodes]
  · cases words with
    | cons w ws => simp [decode, kindOf] at h
    | nil =>
      obtain rfl : .readInput addr qty = i := by simpa [decode, kindOf] using h
      simp [encode, supportedCodes]
  · match words with
    | [] | _ :: _ :: _ => simp [decode, kindOf] at h
    | [v] =>
      obtain rfl : .writeHolding addr qty v = i := by simpa [decode, kindOf] using h
      simp [encode, supportedCodes]
  · by_cases hlen : words.length = qty.toNat
    · obtain rfl : .writeMultipleHolding addr qty words = i := by simpa [decode, kindOf, hlen] using h
      simp [encode, supportedCodes]
    · simp [decode, kindOf, hlen] at h
  · obtain rfl : .unsupported fc addr qty = i := by simpa [decode, hk] using h
    simp [encode, not_mem_supportedCodes_iff.2 hk]

/-- R93: the port accepts exactly the well-formed descriptors. -/
theorem portDecode_ok_iff_wellFormed {d : Descriptor} : (∃ i, portDecode d = .ok i) ↔ d.WellFormed := by
  refine ⟨fun ⟨i, hport⟩ => ?_, fun h => ?_⟩
  · by_contra h
    simp [portDecode_of_illFormed h] at hport
  · rw [portDecode_of_wellFormed h]
    exact decode_of_wellFormed h

/-- R64: an accepted descriptor with a supported code is that of its request, words included. -/
theorem encode_of_decode_supported {d : Descriptor} {i : Instr} (hfc : headerFc d.header ∈ supportedCodes)
    (h : decode d = .ok i) : encode i = d := by
  rw [encode_of_decode h, if_pos hfc]

/-- R93: a well-formed descriptor with an unsupported code has no words. -/
theorem words_of_unsupported {d : Descriptor} (hfc : headerFc d.header ∉ supportedCodes) (h : d.WellFormed) :
    d.words = [] := by
  simpa [Descriptor.WellFormed, Descriptor.calledFor, not_mem_supportedCodes_iff.1 hfc, dataWords] using h

/-- R93: the port accepts the descriptors of well-formed requests, each as that request, and no other. -/
theorem portDecode_iff {d : Descriptor} {i : Instr} : portDecode d = .ok i ↔ i.WellFormed ∧ encode i = d := by
  constructor
  · intro hport
    have hdec : decode d = .ok i := decode_of_portDecode hport
    refine ⟨decode_wellFormed hdec, ?_⟩
    by_cases hfc : headerFc d.header ∈ supportedCodes
    · exact encode_of_decode_supported hfc hdec
    · rw [encode_of_decode hdec, if_neg hfc, ← words_of_unsupported hfc (portDecode_ok_iff_wellFormed.1 ⟨i, hport⟩)]
  · rintro ⟨hi, rfl⟩
    rw [portDecode_of_wellFormed (encode_wellFormed hi), decode_encode hi]

/-- Settles O2: `encode_of_decode` for the decoder, and for the port the round trip both ways. -/
theorem encodeOfDecodeIsIdentity : Obligations.EncodeOfDecodeIsIdentity := by
  refine ⟨fun d i h => ⟨decode_wellFormed h, ?_⟩, fun _ _ => portDecode_iff⟩
  rw [encode_of_decode h]
  exact ⟨rfl, rfl⟩

/-- Settles O4: the four numbers, and which descriptors decoder and port accept; a descriptor of a supported code that
decodes is its request's, and that has the words its header calls for. -/
theorem requestLengthDecidesDecoding : Obligations.RequestLengthDecidesDecoding := by
  refine ⟨fun qty => ⟨rfl, rfl, rfl, rfl⟩, fun fc qty hfc => ?no_words, fun d hfc => ⟨?length, decode_of_wellFormed⟩,
    fun d hfc => decode_of_unsupported (not_mem_supportedCodes_iff.1 hfc), fun _ => portDecode_ok_iff_wellFormed⟩
  case no_words => rw [not_mem_supportedCodes_iff.1 hfc, dataWords]
  case length =>
    rintro ⟨i, hdec⟩
    exact encode_of_decode_supported hfc hdec ▸ encode_wellFormed (decode_wellFormed hdec)

end Sys2Proof.Machine
end

section
/-!
The reply descriptor (R66, R67): the number of its field `a`, and the round trip both ways.
-/
namespace Sys2Proof.Machine

/-- R151: the four codes and the four kinds name each other. -/
theorem exceptionOfCode_eq_some_iff {b : Byte} {c : ExceptionKind} :
    exceptionOfCode b = some c ↔ exceptionCode c = b := by
  constructor
  · intro h
    simp only [exceptionOfCode] at h
    split_ifs at h with h₁ h₂ h₃ h₄ <;> cases h
    · exact h₁.symm
    · exact h₂.symm
    · exact h₃.symm
    · exact h₄.symm
  · rintro rfl
    cases c <;> rfl

theorem exceptionOfCode_exceptionCode (c : ExceptionKind) : exceptionOfCode (exceptionCode c) = some c :=
  exceptionOfCode_eq_some_iff.2 rfl

/-- R66: the exception code as the 16-bit field `a`. -/
theorem exceptionCode_setWidth_toNat (c : ExceptionKind) :
    ((exceptionCode c).setWidth 16).toNat = (exceptionCode c).toNat := by
  cases c <;> rfl

theorem decodeReply_encodeReply (r : Reply) : decodeReply (encodeReply r) = some r := by
  cases r with
  | exception fc c =>
    have hbyte : (exceptionCode c).toNat % 65536 < 256 :=
      (Nat.mod_le _ _).trans_lt (exceptionCode c).isLt
    simp [encodeReply, decodeReply, exceptionOfCode_exceptionCode, hbyte]
  | readOk fc vals => simp [encodeReply, decodeReply]
  | writeSingleOk addr value => simp [encodeReply, decodeReply]
  | writeMultipleOk addr qty => simp [encodeReply, decodeReply]

/-- R66: the tag has two bits, one value for each kind of reply. -/
theorem replyTag_cases (k : BitVec 2) : k = 0 ∨ k = 1 ∨ k = 2 ∨ k = 3 := by
  revert k
  decide

theorem encodeReply_decodeReply {p : Rsp} {r : Reply} (h : decodeReply p = some r) : encodeReply r = p := by
  obtain ⟨kind, fc, a, b, data⟩ := p
  obtain rfl | rfl | rfl | rfl := replyTag_cases kind
  · obtain ⟨⟨rfl, rfl⟩, rfl⟩ : (b = none ∧ a = BitVec.ofNat 16 data.length) ∧ .readOk fc data = r := by
      simpa [decodeReply] using h
    rfl
  · cases b with
    | none => simp [decodeReply] at h
    | some value =>
      obtain ⟨⟨rfl, rfl⟩, rfl⟩ : (fc = 0x06 ∧ data = []) ∧ .writeSingleOk a value = r := by
        simpa [decodeReply] using h
      rfl
  · cases b with
    | none => simp [decodeReply] at h
    | some qty =>
      obtain ⟨⟨rfl, rfl⟩, rfl⟩ : (fc = 0x10 ∧ data = []) ∧ .writeMultipleOk a qty = r := by
        simpa [decodeReply] using h
      rfl
  · obtain ⟨⟨rfl, rfl, ha⟩, c, hc, rfl⟩ : (b = none ∧ data = [] ∧ a.toNat < 256) ∧
        ∃ c, exceptionCode c = a.setWidth 8 ∧ .exception fc c = r := by
      simpa [decodeReply, exceptionOfCode_eq_some_iff] using h
    have hwidth : (a.setWidth 8).setWidth 16 = a := by
      rw [← BitVec.toNat_inj, BitVec.toNat_setWidth, BitVec.toNat_setWidth]
      omega
    simp only [encodeReply, hc, hwidth]

/-- Settles O7: the fields by the table of R66, a count and an exception code being numbers of 16 bits. -/
theorem replyDescriptorRoundTrip : Obligations.ReplyDescriptorRoundTrip := by
  refine ⟨fun fc vals => ⟨rfl, rfl, fun hlen => ?count, rfl, rfl⟩, fun _ _ => rfl, fun _ _ => rfl,
    fun fc c => ⟨rfl, rfl, ?code, rfl, rfl⟩, decodeReply_encodeReply, fun _ _ => encodeReply_decodeReply⟩
  case count => simpa [encodeReply] using hlen
  case code => exact exceptionCode_setWidth_toNat c

end Sys2Proof.Machine
end

section
/-!
The PDU layouts beside the engine (R80 to R84): the bytes of words, the frame parser on the PDUs of requests, and the PDU
of a read reply.
-/
namespace Sys2Proof.Machine

/-! ### The bytes of words -/

@[simp] theorem wordOf_highByte_lowByte (w : Word) : wordOf (highByte w) (lowByte w) = w := by
  rw [wordOf, highByte, lowByte, BitVec.extractLsb'_append_extractLsb'_eq_extractLsb' (by rfl)]
  exact BitVec.extractLsb'_eq_self

theorem highByte_toNat (w : Word) : (highByte w).toNat = w.toNat / 256 := by
  have hlt : w.toNat < 65536 := w.isLt
  rw [highByte, BitVec.extractLsb'_toNat, Nat.shiftRight_eq_div_pow]
  omega

@[simp] theorem wordsOfBytes_wordsBytes (ws : List Word) : wordsOfBytes (wordsBytes ws) = some ws := by
  induction ws with
  | nil => rfl
  | cons w ws ih => simp [wordsBytes, wordsOfBytes, ih]

@[simp] theorem wordsBytes_length (ws : List Word) : (wordsBytes ws).length = 2 * ws.length := by
  induction ws with
  | nil => rfl
  | cons w ws ih => simp only [wordsBytes, List.length_cons, ih]; omega

/-- R84: the byte `2i` is the more significant one of word `i`. -/
theorem wordsBytes_getElem?_even (ws : List Word) (i : Nat) : (wordsBytes ws)[2 * i]? = ws[i]?.map highByte := by
  induction ws generalizing i with
  | nil => rfl
  | cons w ws ih =>
    cases i with
    | zero => rfl
    | succ i => simpa [wordsBytes, Nat.mul_succ] using ih i

/-- R80, R83: the byte count of at most 127 words is twice their number. -/
theorem byteCount_toNat {n : Nat} (h : n < 128) : (byteCount n).toNat = 2 * n := by
  simp only [byteCount, BitVec.toNat_ofNat]
  omega

/-! ### Requests and read replies -/

theorem parseValues_wordsBytes {addr qty : Word} {values : List Word} (hlen : values.length = qty.toNat)
    (hmax : qty.toNat < 128) :
    parseValues addr qty (byteCount qty.toNat) (wordsBytes values) =
      some { header := mkHeader 0x10 addr qty, words := values } := by
  simp [parseValues, byteCount_toNat hmax, hlen]

/-- Settles O8: the PDU of each kind, and what the parser reads back from it. -/
theorem wireRequestRoundTrip : Obligations.WireRequestRoundTrip := by
  intro i hi hfits
  cases i with
  | readHolding addr qty | readInput addr qty =>
    exact ⟨_, rfl, by simp [wordBytes, parsePdu, kindOf, encode]⟩
  | writeHolding addr qty value =>
    obtain rfl : qty = 1 := hfits
    exact ⟨_, rfl, by simp [wordBytes, parsePdu, kindOf, encode]⟩
  | writeMultipleHolding addr qty values =>
    have hmax : qty.toNat ≤ 123 := hfits
    have hvalues := parseValues_wordsBytes (addr := addr) (wellFormed_writeMultipleHolding.1 hi) (by omega)
    exact ⟨_, rfl, by simpa [wordBytes, parsePdu, kindOf, encode] using hvalues⟩
  | unsupported fc addr qty => exact hfits.elim

/-- Settles O9: the byte count and the bytes of the values. -/
theorem wireReadReplyLayout : Obligations.WireReadReplyLayout := by
  intro fc vals hmax
  refine ⟨byteCount vals.length, wordsBytes vals, rfl, byteCount_toNat (by omega), wordsBytes_length vals,
    wordsOfBytes_wordsBytes vals, fun i hi => ?order⟩
  case order => rw [wordsBytes_getElem?_even, List.getElem?_eq_getElem hi]; simp [highByte_toNat]

end Sys2Proof.Machine
end

section
/-!
The request port and the reply port (R68, R69).
-/
namespace Sys2Proof.Machine

theorem requestReady_iff {s : State} : requestReady s = true ↔ s.phase = .idle := by
  cases hph : s.phase <;> simp [requestReady, hph]

/-- Settles O26: the port's signal, what T1 needs of the phase, and that `exec` is `serve`, which waits for a request in
stage `Validate`. -/
theorem requestPortIsReadyExactlyInIdle : Obligations.RequestPortIsReadyExactlyInIdle :=
  ⟨fun _ => requestReady_iff, fun _ _ _ haccept => (turnOf_accept haccept).1,
    fun s i hbusy => (exec_eq_serve i s).trans (serve_busy hbusy)⟩

theorem replyOffered_replying {s : State} {r : Reply} (h : s.phase = .replying r) : replyOffered s = some r := by
  simp [replyOffered, h]

/-- Settles O27: the step is T7. -/
theorem takingTheReplyMakesTheEngineIdle : Obligations.TakingTheReplyMakesTheEngineIdle :=
  fun _ _ _ hph ha => ⟨replyOffered_replying hph, (step_take hph ha).2⟩

end Sys2Proof.Machine
end

section
/-!
Refusals (R93; logs 6 and 27): the port's is the only one. The engine's steps and a hook unit's answer go on or fault.
-/
namespace Sys2Proof.Machine

section
variable {s : State} {d : Dispatch} (x : Refusal)

theorem accessRead_ne_refused (i : Nat) : accessRead s d i ≠ .refused x := by
  unfold accessRead
  repeat' split
  all_goals simp

theorem settleValue_ne_refused (k o i : Nat) (v : Word) : settleValue s d k o i v ≠ .refused x := by
  unfold settleValue
  repeat' split
  all_goals simp

theorem accessWrite_ne_refused (i : Nat) : accessWrite s d i ≠ .refused x := by
  unfold accessWrite
  repeat' split
  all_goals simp [settleValue_ne_refused]

theorem answerWrite_ne_refused (i : Nat) (v : Word) : answerWrite s d i v ≠ .refused x := by
  unfold answerWrite
  split
  · simp
  · exact settleValue_ne_refused x _ _ _ _

theorem commitWrite_ne_refused : commitWrite s d ≠ .refused x := by
  unfold commitWrite
  repeat' split
  all_goals simp

theorem engineStep_ne_refused : engineStep s d ≠ .refused x := by
  cases hst : d.stage with
  | validate =>
    obtain ⟨p, hp⟩ := validateStep_next s d
    simp [engineStep, hst, hp]
  | access i =>
    simp only [engineStep, hst, accessStep]
    cases kindOf d.fc <;> split_ifs <;> simp [accessRead_ne_refused, accessWrite_ne_refused]
  | hookWait i => simp [engineStep, hst]
  | commit =>
    simp only [engineStep, hst, commitStep, commitRead]
    cases kindOf d.fc <;> simp [commitWrite_ne_refused]

theorem settle_ne_refused (n : Nat) : settle n s ≠ .refused x := by
  induction n generalizing s with
  | zero => simp [settle]
  | succ n ih =>
    simp only [settle]
    split
    · simp
    · split
      · exact ih
      · simp
      · rename_i hstep; exact absurd hstep (engineStep_ne_refused _)

theorem runEngine_ne_refused : runEngine s ≠ .refused x := by
  unfold runEngine
  split
  · simp
  · simp
  · simp
  · exact settle_ne_refused x _

theorem exec_ne_refused (i : Instr) : exec i s ≠ .refused x := by
  by_cases hwaits : ∃ d, s.phase = .dispatching d ∧ d.stage = .validate
  · obtain ⟨d, hph, hst⟩ := hwaits
    rw [exec_eq_serve, serve_waiting hph hst]
    exact settle_ne_refused x _
  · rw [exec_eq_serve, serve_busy fun d hph hst => hwaits ⟨d, hph, hst⟩]
    simp

theorem engineMove_ne_refused : engineMove s ≠ .refused x := by
  unfold engineMove
  repeat' split
  all_goals simp [exec_ne_refused, runEngine_ne_refused]

theorem acceptAnswer_ne_refused (i : Nat) (v : Word) : acceptAnswer s d i v ≠ .refused x := by
  unfold acceptAnswer
  cases kindOf d.fc <;> simp [answerRead, answerWrite_ne_refused]

theorem answerHook_ne_refused (a : HookAnswer) : answerHook a s ≠ .refused x := by
  unfold answerHook
  repeat' split
  all_goals simp [acceptAnswer_ne_refused]

end

/-- R93: what the port refuses is a descriptor of another length than its header calls for, and it says both
numbers. -/
theorem portDecode_error_iff {d : Descriptor} {e : DecodeError} : portDecode d = .error e ↔
    ¬ d.WellFormed ∧ e = .wrongWordCount d.calledFor d.words.length := by
  by_cases hd : d.WellFormed
  · obtain ⟨i, hdec⟩ := decode_of_wellFormed hd
    simp [portDecode_of_wellFormed hd, hdec, hd]
  · simp [portDecode_of_illFormed hd, hd, eq_comm]

/-- Settles O19: of the turns only T1 can refuse, by what the port makes of the descriptor. -/
theorem onlyIllFormedRequestsAreRefused : Obligations.OnlyIllFormedRequestsAreRefused := by
  refine fun s x => ⟨fun h => ?refusal_at_port, ?ill_formed_refused⟩
  case refusal_at_port =>
    cases hturn : turnOf s <;> simp only [step, hturn] at h
    case engine => exact absurd h (engineMove_ne_refused x)
    case answer a rest => exact absurd h (answerHook_ne_refused x a)
    case accept d rest =>
      split at h
      · cases h
      · rename_i e hport
        cases h
        obtain ⟨hd, rfl⟩ := portDecode_error_iff.1 hport
        exact ⟨d, rest, rfl, hd, rfl⟩
    case wait | take | restart | discard => cases h
  case ill_formed_refused =>
    rintro ⟨d, rest, hturn, hd, rfl⟩
    simp [step, hturn, portDecode_of_illFormed hd]

end Sys2Proof.Machine
end

section
/-!
The request state machine seen from outside (R90, R93, R97, R99, R101, R183): T1 and the run of the accepted request,
the hook unit's answer, and a reply that is not taken.
-/
namespace Sys2Proof.Machine

/-- Settles O29: T1 by the port's decoder, which gives back the descriptor of its request, and the engine's turn. -/
theorem stepRunsTheDecodedRequest : Obligations.StepRunsTheDecodedRequest := by
  refine ⟨fun s d rest hidle ha => ?turn, fun s d rest hturn hd => ?latched,
    fun s i hi hacc hreset => (step_accepted hacc hreset (decode_encode hi)).2⟩
  case turn => exact turnOf_cons (by simp [hidle, engineTurn]) ha (eventEnabled_submit.2 hidle)
  case latched =>
    obtain ⟨i, hport⟩ := portDecode_ok_iff_wellFormed.2 hd
    obtain ⟨hi, rfl⟩ := portDecode_iff.1 hport
    exact ⟨i, _, decode_encode hi, hi, by simp only [step, hturn, hport]; rfl, rfl, rfl, rfl, rfl, rfl, rfl, rfl, rfl⟩

section
variable {s : State} {d : Dispatch} {i : Nat} {a : HookAnswer} {rest : List Event}

/-- The answer to the outstanding call is enabled (T5). -/
theorem eventEnabled_answer_outstanding (hph : s.phase = .dispatching d) (hst : d.stage = .hookWait i) :
    eventEnabled s (.answer s.restarts a) = true :=
  eventEnabled_answer.2 ⟨by simp [hph], .inr ⟨rfl, callOutstanding_iff.2 ⟨d, i, hph, hst⟩⟩⟩

/-- T5: the answer to the outstanding call that stands first on the agenda comes next. -/
theorem step_answer (hph : s.phase = .dispatching d) (hst : d.stage = .hookWait i)
    (ha : s.agenda = .answer s.restarts a :: rest) :
    turnOf s = .answer a rest ∧ step s = answerHook a (s.setAgenda rest) := by
  have hturn : turnOf s = .answer a rest := by
    rw [turnOf_cons (hph ▸ engineTurn_hookWait hst) ha (eventEnabled_answer_outstanding hph hst)]
    simp [eventTurn]
  exact ⟨hturn, by simp [step, hturn]⟩

theorem answerHook_fail (hph : s.phase = .dispatching d) (hst : d.stage = .hookWait i) :
    answerHook .fail s = .next (s.setPhase (.replying (.exception d.fc .serverDeviceFailure))) := by
  simp [answerHook, hph, hst]

theorem answerHook_ok_eq (hph : s.phase = .dispatching d) (hst : d.stage = .hookWait i) (v : Word) :
    answerHook (.ok v) s = acceptAnswer s d i v := by
  simp [answerHook, hph, hst]

end

/-- Settles O30: in `HookWait` the request is not enabled, so the answer behind it is the first event that is. -/
theorem waitingRequestDoesNotBlockTheAnswer : Obligations.WaitingRequestDoesNotBlockTheAnswer := by
  intro s d i q a rest hph hst ha
  have hsubmit : eventEnabled s (.submit q) = false := by simp [eventEnabled, hph]
  have hnext : nextEvent s s.agenda = some (.answer s.restarts a, .submit q :: rest) := by
    simp [ha, nextEvent, hsubmit, eventEnabled_answer_outstanding hph hst]
  have hturn : turnOf s = .answer a (.submit q :: rest) := by
    simp [turnOf, hph, engineTurn_hookWait hst, hnext, eventTurn]
  simp only [step, hturn]

/-- Settles O38: the answer comes next, and a `Fail` stores nothing. -/
theorem hookFailureGetsServerDeviceFailure : Obligations.HookFailureGetsServerDeviceFailure := by
  intro s d i rest hph hst ha
  rw [(step_answer hph hst ha).2, answerHook_fail (s := s.setAgenda rest) hph hst]
  rfl

/-! ### A reply that is not taken -/

/-- Of a replying engine's agenda without take and reset only a late answer is enabled (R99, R170). -/
theorem eventEnabled_replying {s : State} {r : Reply} {e : Event} (hph : s.phase = .replying r) (ht : e ≠ .take)
    (hr : ∀ m, e ≠ .reset m) (he : eventEnabled s e = true) : ∃ n a, e = .answer n a ∧ n ≠ s.restarts := by
  cases e with
  | answer n a =>
    have hlate : n < s.restarts := by simpa [hph, callOutstanding] using (eventEnabled_answer.1 he).2
    exact ⟨n, a, rfl, hlate.ne⟩
  | submit d => simp [eventEnabled, hph] at he
  | take => exact absurd rfl ht
  | reset m => exact absurd rfl (hr m)

/-- A step of a replying engine whose reply is not taken takes a late answer from the agenda at most. -/
theorem step_untaken {s : State} {r : Reply} (hph : s.phase = .replying r) (ht : Event.take ∉ s.agenda)
    (hr : ∀ m, Event.reset m ∉ s.agenda) : ∃ es, step s = .next (s.setAgenda es) ∧ es ⊆ s.agenda ∧
      ∀ d, Event.submit d ∈ s.agenda → Event.submit d ∈ es := by
  have hwaits : engineTurn s.phase = none := by simp [hph, engineTurn]
  cases hnext : nextEvent s s.agenda with
  | none =>
    have hturn : turnOf s = .wait := by simp [turnOf, hwaits, hnext]
    exact ⟨s.agenda, by simp only [step, hturn]; rfl, List.Subset.refl _, fun _ => id⟩
  | some x =>
    obtain ⟨e, rest⟩ := x
    obtain ⟨hen, pre, post, hagenda, rfl, -⟩ := nextEvent_some hnext
    have hmem : e ∈ s.agenda := by simp [hagenda]
    obtain ⟨n, a, rfl, hlate⟩ := eventEnabled_replying hph (fun h => ht (h ▸ hmem)) (fun m h => hr m (h ▸ hmem)) hen
    have hturn : turnOf s = .discard (pre ++ post) := by simp [turnOf, hwaits, hnext, eventTurn, hlate]
    refine ⟨pre ++ post, by simp only [step, hturn], ?_, fun d hd => by simpa [hagenda] using hd⟩
    simp [hagenda]

/-- Settles O25, by induction over the steps: each keeps the reply, drops no request and adds no event. -/
theorem untakenReplyStopsTheEngine : Obligations.UntakenReplyStopsTheEngine := by
  intro s r hph ht hr n
  induction n generalizing s with
  | zero => exact ⟨s.agenda, rfl, fun _ => id⟩
  | succ n ih =>
    obtain ⟨es, hstep, hsub, hkeep⟩ := step_untaken hph ht hr
    obtain ⟨fs, hrun, hkeep'⟩ := ih (s.setAgenda es) hph (fun h => ht (hsub h)) fun m h => hr m (hsub h)
    have hcore : core.step s = .next (s.setAgenda es) := hstep
    exact ⟨fs, by simp only [Host.Core.run, hcore]; exact hrun, fun d hd => hkeep' d (hkeep d hd)⟩

end Sys2Proof.Machine
end

section
/-!
Requests that validation rejects (R94, R97, R100, R153): the reply is the exception of the first check that fails, and
nothing else changes.
-/
namespace Sys2Proof.Machine

@[simp] theorem dispatchOf_readHolding (addr qty : Word) :
    dispatchOf (.readHolding addr qty) = newDispatch 0x03 addr qty [] := by simp [dispatchOf, encode]

@[simp] theorem dispatchOf_readInput (addr qty : Word) :
    dispatchOf (.readInput addr qty) = newDispatch 0x04 addr qty [] := by simp [dispatchOf, encode]

@[simp] theorem dispatchOf_writeHolding (addr qty value : Word) :
    dispatchOf (.writeHolding addr qty value) = newDispatch 0x06 addr qty [value] := by simp [dispatchOf, encode]

@[simp] theorem dispatchOf_writeMultipleHolding (addr qty : Word) (values : List Word) :
    dispatchOf (.writeMultipleHolding addr qty values) = newDispatch 0x10 addr qty values := by
  simp [dispatchOf, encode]

@[simp] theorem dispatchOf_unsupported (fc : Byte) (addr qty : Word) :
    dispatchOf (.unsupported fc addr qty) = newDispatch fc addr qty [] := by simp [dispatchOf, encode]

/-! ### The three checks -/

section
variable {cfg : Configuration} {d : Dispatch} {sp : Space}

theorem validate_unsupported (h : d.fc ∉ supportedCodes) : validate cfg d = .error .illegalFunction := by
  simp [validate, not_mem_supportedCodes_iff.1 h, kindSpace]

theorem validate_illegalQuantity (hsp : kindSpace (kindOf d.fc) = some sp)
    (hq : quantityLegal cfg (kindOf d.fc) d.qty.toNat = false) : validate cfg d = .error .illegalDataValue := by
  simp [validate, hsp, hq]

theorem validate_illegalAddress (hl : RangesLegal (cfg.ranges sp)) (hsp : kindSpace (kindOf d.fc) = some sp)
    (hq : quantityLegal cfg (kindOf d.fc) d.qty.toNat = true) (h : ¬ ∃ k r, SpanInRange cfg sp d.addr d.qty k r) :
    validate cfg d = .error .illegalDataAddress := by
  obtain ⟨e, he⟩ : ∃ e, resolveSpan (cfg.ranges sp) d.addr.toNat d.qty.toNat = .error e := by
    refine resolveSpan_error ?_
    rintro ⟨r, hr, hlo, hhi⟩
    obtain ⟨k, hk⟩ := List.mem_iff_getElem?.1 hr
    exact h ⟨k, r, hl, hk, hlo, hhi⟩
  exact addressErrorKinds.2 cfg d sp e hsp hq he

end

section
variable {i : Instr} {fc : Byte} {addr qty : Word} {vals : List Word} {s : State} {d : Dispatch} {sp : Space}
  (hrec : dispatchOf i = newDispatch fc addr qty vals)
include hrec

/-- A request that validation rejects ends with that exception at once, whatever record waits in its place. -/
theorem exec_rejected {c : ExceptionKind} (hph : s.phase = .dispatching d) (hst : d.stage = .validate)
    (h : validate s.cfg (newDispatch fc addr qty vals) = .error c) :
    exec i s = .next { s with phase := .replying (.exception fc c) } := by
  rw [exec_eq_serve, hrec]
  exact serve_rejected hph hst h

theorem exec_illegalQuantity (hacc : Accepted s i) (hsp : kindSpace (kindOf fc) = some sp)
    (hq : quantityLegal s.cfg (kindOf fc) qty.toNat = false) :
    exec i s = .next { s with phase := .replying (.exception fc .illegalDataValue) } :=
  exec_rejected hrec hacc rfl (validate_illegalQuantity hsp hq)

theorem exec_illegalAddress (hacc : Accepted s i) (hl : ConfigLegal s.cfg) (hsp : kindSpace (kindOf fc) = some sp)
    (hq : quantityLegal s.cfg (kindOf fc) qty.toNat = true) (h : ¬ ∃ k r, SpanInRange s.cfg sp addr qty k r) :
    exec i s = .next { s with phase := .replying (.exception fc .illegalDataAddress) } :=
  exec_rejected hrec hacc rfl (validate_illegalAddress (hl.ranges sp) hsp hq h)

end

/-! ### The exceptions -/

theorem exec_unsupported {fc : Byte} {s : State} {d : Dispatch} (addr qty : Word) (hfc : fc ∉ supportedCodes)
    (hph : s.phase = .dispatching d) (hst : d.stage = .validate) : exec (.unsupported fc addr qty) s =
      .next { s with phase := .replying (.exception fc .illegalFunction) } :=
  exec_rejected (dispatchOf_unsupported fc addr qty) hph hst (validate_unsupported hfc)

/-- Settles O35: the code is checked first, so neither address, quantity nor data words matter. -/
theorem unsupportedCodeGetsIllegalFunction : Obligations.UnsupportedCodeGetsIllegalFunction := by
  refine ⟨fun fc addr qty s hfc hacc => exec_unsupported addr qty hfc hacc rfl,
    fun s d hph hst hfc hreset => ?any_record⟩
  case any_record =>
    have hturn : turnOf s = .engine := turnOf_moves (hph ▸ engineTurn_validate hst) hreset
    have hdec : decode (requestOf d) = .ok (.unsupported d.fc d.addr d.qty) := by
      simpa [requestOf] using decode_of_unsupported (d := requestOf d)
        (by simpa [requestOf] using not_mem_supportedCodes_iff.1 hfc)
    simpa only [step, hturn, engineMove, hph, hst, hdec] using exec_unsupported d.addr d.qty hfc hph hst

/-- Settles O36: the limits of the four kinds. -/
theorem illegalQuantityGetsIllegalDataValue : Obligations.IllegalQuantityGetsIllegalDataValue := by
  refine fun addr qty value values s => ⟨fun hq hacc => ?read_holding, fun hq hacc => ?read_input,
    fun hq hacc => ?write_holding, fun hq hacc => ?write_multiple⟩
  case read_holding =>
    exact exec_illegalQuantity (dispatchOf_readHolding addr qty) hacc rfl (decide_eq_false hq)
  case read_input =>
    exact exec_illegalQuantity (dispatchOf_readInput addr qty) hacc rfl (decide_eq_false hq)
  case write_holding =>
    exact exec_illegalQuantity (dispatchOf_writeHolding addr qty value) hacc rfl (decide_eq_false hq)
  case write_multiple =>
    exact exec_illegalQuantity (dispatchOf_writeMultipleHolding addr qty values) hacc rfl (decide_eq_false hq)

/-- Settles O37: the four kinds, each in its space; a WriteHolding's quantity is 1. -/
theorem spanOutsideARangeGetsIllegalDataAddress : Obligations.SpanOutsideARangeGetsIllegalDataAddress := by
  refine fun addr qty value values s hl => ⟨fun hacc h h1 hmax => ?read_holding, fun hacc h h1 hmax => ?read_input,
    fun hacc h => ?write_holding, fun hacc h h1 hmax => ?write_multiple⟩
  case read_holding =>
    exact exec_illegalAddress (dispatchOf_readHolding addr qty) hacc hl rfl (decide_eq_true ⟨h1, hmax⟩) h
  case read_input =>
    exact exec_illegalAddress (dispatchOf_readInput addr qty) hacc hl rfl (decide_eq_true ⟨h1, hmax⟩) h
  case write_holding =>
    exact exec_illegalAddress (dispatchOf_writeHolding addr 1 value) hacc hl rfl rfl h
  case write_multiple =>
    exact exec_illegalAddress (dispatchOf_writeMultipleHolding addr qty values) hacc hl rfl
      (decide_eq_true ⟨h1, hmax⟩) h

end Sys2Proof.Machine
end

section
/-!
The transition table (R90, R92, R101): where an access, a commit and an answer lead, and which wait the engine's
merged steps reach from each stage.
-/
namespace Sys2Proof.Machine

theorem kindHook_none_iff {k : Kind} : kindHook k = none ↔ k = .unsupported := by
  cases k <;> simp [kindHook]

/-- The target range of a request in flight has the hook of the request's kind, so that each of its accesses is a call
(R92, R113, R133). -/
def callsHook (s : State) (d : Dispatch) : Bool :=
  match kindHook (kindOf d.fc), target s d with
  | some h, some (_, _, r, _) => rangeHasHook r h
  | _, _ => false

/-- `t` is `s` after the value `v` of element `i` has joined the values of `d`: nothing else but the holding file
differs, where a write may have stored it (R114, R115, R133, R134). -/
def ElementDone (s : State) (d : Dispatch) (i : Nat) (v : Word) (t : State) : Prop :=
  ∃ m, t = (s.setHolding m).setPhase (.dispatching { d with acc := d.acc ++ [v], stage := .access (i + 1) })

section
variable {s t : State} {d : Dispatch} {i : Nat}

theorem callsHook_eq {h : HookKind} {sp : Space} {k o : Nat} {r : Range} (hk : kindHook (kindOf d.fc) = some h)
    (ht : target s d = some (sp, k, r, o)) : callsHook s d = rangeHasHook r h := by
  simp [callsHook, hk, ht]

/-- Whether an access is a call does not change while the request is in flight. -/
theorem ElementDone.callsHook_eq {v : Word} (h : ElementDone s d i v t) :
    callsHook t { d with acc := d.acc ++ [v], stage := .access (i + 1) } = callsHook s d := by
  obtain ⟨m, rfl⟩ := h
  rfl

theorem writeTarget_some {k o : Nat} {r : Range} (h : writeTarget s d = some (k, r, o)) :
    target s d = some (.holding, k, r, o) := by
  unfold writeTarget at h
  split at h
  · rename_i htgt
    cases h
    exact htgt
  · cases h
  · cases h

theorem settleValue_done {k o : Nat} {v : Word} (h : settleValue s d k o i v = .next t) : ElementDone s d i v t := by
  unfold settleValue at h
  split at h
  · cases h
    exact ⟨s.holding, rfl⟩
  · split at h
    · cases h
    · rename_i hstore
      obtain ⟨a, -, rfl⟩ := writeCell_some hstore
      cases h
      exact ⟨_, rfl⟩

/-- What an access step reaches (T3): the call of element `i` in a range with the hook, its value without (R114,
R133). -/
def AccessResult (s : State) (d : Dispatch) (i : Nat) (t : State) : Prop :=
  (callsHook s d = true ∧ t = s.setPhase (.dispatching { d with stage := .hookWait i })) ∨
    (callsHook s d = false ∧ ∃ v, ElementDone s d i v t)

theorem accessRead_result (hk : kindHook (kindOf d.fc) = some .read) (h : accessRead s d i = .next t) :
    AccessResult s d i t := by
  unfold accessRead at h
  split at h
  · cases h
  · rename_i htgt
    have hhook := callsHook_eq hk htgt
    split at h
    · cases h
    · rename_i raw hraw
      split at h
      · rename_i hrd
        cases h
        exact .inl ⟨hhook.trans hrd, rfl⟩
      · rename_i hrd
        cases h
        exact .inr ⟨hhook.trans (Bool.eq_false_of_not_eq_true hrd), raw, s.holding, rfl⟩

theorem accessWrite_result (hk : kindHook (kindOf d.fc) = some .write) (h : accessWrite s d i = .next t) :
    AccessResult s d i t := by
  unfold accessWrite at h
  split at h
  · cases h
  · rename_i htgt
    have hhook := callsHook_eq hk (writeTarget_some htgt)
    split at h
    · cases h
    · rename_i v hv
      split at h
      · rename_i hwr
        cases h
        exact .inl ⟨hhook.trans hwr, rfl⟩
      · rename_i hwr
        exact .inr ⟨hhook.trans (Bool.eq_false_of_not_eq_true hwr), v, settleValue_done h⟩

theorem accessStep_result (h : accessStep s d i = .next t) : AccessResult s d i t := by
  cases hk : kindHook (kindOf d.fc) with
  | none => simp [accessStep, kindHook_none_iff.1 hk] at h
  | some hook =>
    cases hook with
    | read => exact accessRead_result hk (accessStep_read hk ▸ h)
    | write => exact accessWrite_result hk (accessStep_write hk ▸ h)

/-- The commit ends with a reply (T6; R116, R135). -/
theorem commitStep_replies (h : commitStep s d = .next t) : ∃ r, t.phase = .replying r := by
  cases hk : kindHook (kindOf d.fc) with
  | none => simp [commitStep, kindHook_none_iff.1 hk] at h
  | some hook =>
    cases hook with
    | read =>
      rw [commitStep_read hk] at h
      cases h
      exact ⟨_, rfl⟩
    | write =>
      rw [commitStep_write hk] at h
      unfold commitWrite at h
      repeat' split at h
      all_goals cases h
      exact ⟨_, rfl⟩

/-- An `Ok` goes on with the next address (T5; R115, R134). -/
theorem acceptAnswer_done {v : Word} (h : acceptAnswer s d i v = .next t) : ElementDone s d i v t := by
  cases hk : kindHook (kindOf d.fc) with
  | none => simp [acceptAnswer, kindHook_none_iff.1 hk] at h
  | some hook =>
    cases hook with
    | read =>
      rw [acceptAnswer_read hk] at h
      cases h
      exact ⟨s.holding, rfl⟩
    | write =>
      rw [acceptAnswer_write hk] at h
      unfold answerWrite at h
      split at h
      · cases h
      · exact settleValue_done h

end

/-! ### The wait that the merged steps reach -/

/-- The first call the engine can make from a stage is for element `j`. -/
def FirstCall (st : Stage) (j : Nat) : Prop := st = .validate ∧ j = 0 ∨ st = .access j

/-- A stage that the engine's own steps reach from the stage `st`: it comes past an element only if accesses are no
calls. -/
def StageFrom (st : Stage) (hooked : Bool) : Stage → Prop
  | .validate => st = .validate
  | .access j => FirstCall st j ∨ hooked = false
  | .hookWait j => FirstCall st j
  | .commit => True

/-- A state that the engine's own steps reach from a request in the stage `st`. -/
def MovedFrom (st : Stage) (s : State) : Prop :=
  match s.phase with
  | .halted _ => False
  | .idle => False
  | .dispatching d => StageFrom st (callsHook s d) d.stage
  | .replying _ => True

section
variable {s t : State} {d : Dispatch} {st : Stage}

theorem movedFrom_of_replying {r : Reply} (h : s.phase = .replying r) : MovedFrom st s := by simp [MovedFrom, h]

theorem movedFrom_dispatching {x : Stage} (h : s.phase = .dispatching d) (hst : d.stage = x) :
    MovedFrom st s ↔ StageFrom st (callsHook s d) x := by simp [MovedFrom, h, hst]

theorem movedFrom_setPhase : MovedFrom st (s.setPhase (.dispatching d)) ↔ StageFrom st (callsHook s d) d.stage :=
  Iff.rfl

theorem movedFrom_newDispatch (fc : Byte) (addr qty : Word) (vals : List Word) :
    MovedFrom .validate (s.setPhase (.dispatching (newDispatch fc addr qty vals))) :=
  movedFrom_setPhase.2 rfl

/-- Every stage the engine moves in is where it starts from. -/
theorem stageFrom_self {b : Bool} (h : ∀ i, d.stage ≠ .hookWait i) : StageFrom d.stage b d.stage := by
  cases hst : d.stage with
  | validate => rfl
  | access i => exact .inl (.inr rfl)
  | hookWait i => exact absurd hst (h i)
  | commit => trivial

theorem engineStep_movedFrom (hp : MovedFrom st s) (hd : engineTurn s.phase = some d)
    (h : engineStep s d = .next t) : MovedFrom st t := by
  obtain ⟨hph, hout⟩ := engineTurn_some hd
  cases hst : d.stage with
  | validate =>
    have hstart : st = .validate := (movedFrom_dispatching hph hst).1 hp
    simp only [engineStep, hst, validateStep] at h
    split at h
    · cases h
      exact movedFrom_of_replying rfl
    · cases h
      exact movedFrom_setPhase.2 (Or.inl (Or.inl ⟨hstart, rfl⟩))
  | access i =>
    have hreach : FirstCall st i ∨ callsHook s d = false := (movedFrom_dispatching hph hst).1 hp
    simp only [engineStep, hst] at h
    split_ifs at h
    · obtain ⟨hcall, rfl⟩ | ⟨hplain, v, hdone⟩ := accessStep_result h
      · exact movedFrom_setPhase.2 (hreach.resolve_right (by simp [hcall]))
      · have hplain' := hdone.callsHook_eq.trans hplain
        obtain ⟨m, rfl⟩ := hdone
        exact movedFrom_setPhase.2 (Or.inr hplain')
    · cases h
      exact movedFrom_setPhase.2 trivial
  | hookWait i => simp [callOutstanding, hph, hst] at hout
  | commit =>
    obtain ⟨r, hr⟩ := commitStep_replies (by simpa only [engineStep, hst] using h)
    exact movedFrom_of_replying hr

theorem settle_movedFrom {n : Nat} (hp : MovedFrom st s) (h : settle n s = .next t) : MovedFrom st t :=
  settle_keeps (fun _ _ _ hd hp hstep => engineStep_movedFrom hp hd hstep) hp h

/-- The engine's turn runs the decoded request of a record in stage `Validate`, and goes on from a later stage. -/
theorem engineMove_runs (hph : s.phase = .dispatching d) (hw : ∀ i, d.stage ≠ .hookWait i)
    (h : engineMove s = .next t) : (d.stage = .validate ∧ ∃ q : Instr, q.WellFormed ∧ exec q s = .next t) ∨
      runEngine s = .next t := by
  by_cases hst : d.stage = .validate
  · simp only [engineMove, hph, hst] at h
    split at h
    · rename_i q hdec
      exact .inl ⟨hst, q, decode_wellFormed hdec, h⟩
    · cases h
  · exact .inr (engineMove_goesOn hph hst hw ▸ h)

/-- The engine's turn, from whatever stage it starts. -/
theorem engineMove_movedFrom (hph : s.phase = .dispatching d) (hw : ∀ i, d.stage ≠ .hookWait i)
    (h : engineMove s = .next t) : MovedFrom d.stage t := by
  obtain ⟨hst, q, -, hexec⟩ | hrun := engineMove_runs hph hw h
  · rw [exec_eq_serve, serve_waiting hph hst] at hexec
    exact hst ▸ settle_movedFrom (movedFrom_newDispatch ..) hexec
  · simp only [runEngine, hph] at hrun
    exact settle_movedFrom ((movedFrom_dispatching hph rfl).2 (stageFrom_self hw)) hrun

/-- Under the invariant the engine's turn ends where it waits for another agent (R101). -/
theorem engineMove_waits (hs : Inv s) (hph : s.phase = .dispatching d) (hw : ∀ i, d.stage ≠ .hookWait i)
    (h : engineMove s = .next t) : engineTurn t.phase = none := by
  obtain ⟨hst, q, hq, hexec⟩ | hrun := engineMove_runs hph hw h
  · obtain ⟨u, hu, -, -, hwait⟩ := exec_ok hq hph hst hs
    cases hu.symm.trans hexec
    exact hwait
  · obtain ⟨u, hu, -, -, hwait⟩ := runEngine_ok hs.phase hs.holding
    cases hu.symm.trans hrun
    exact hwait

/-- Where the engine's own steps have come to a wait, there is a reply or the first call. -/
theorem MovedFrom.reply_or_call (h : MovedFrom st t) (hwait : engineTurn t.phase = none) :
    (∃ r, t.phase = .replying r) ∨ ∃ d' j, t.phase = .dispatching d' ∧ d'.stage = .hookWait j ∧ FirstCall st j := by
  cases hph : t.phase with
  | halted e => simp [MovedFrom, hph] at h
  | idle => simp [MovedFrom, hph] at h
  | replying r => exact .inl ⟨r, rfl⟩
  | dispatching d' =>
    cases hst : d'.stage with
    | hookWait j => exact .inr ⟨d', j, rfl, hst, (movedFrom_dispatching hph hst).1 h⟩
    | validate => simp [hph, engineTurn_validate hst] at hwait
    | access j => simp [hph, engineTurn_access hst] at hwait
    | commit => simp [hph, engineTurn_commit hst] at hwait

/-- The answer to the outstanding call ends the request or goes on with the next address (T5). -/
theorem answerHook_leads {a : HookAnswer} {i : Nat} (hph : s.phase = .dispatching d) (hst : d.stage = .hookWait i)
    (h : answerHook a s = .next t) : (∃ r, t.phase = .replying r) ∨
      ∃ d', t.phase = .dispatching d' ∧ d'.stage = .access (i + 1) := by
  cases a with
  | fail =>
    rw [answerHook_fail hph hst] at h
    cases h
    exact .inl ⟨_, rfl⟩
  | ok v =>
    rw [answerHook_ok_eq hph hst] at h
    obtain ⟨m, rfl⟩ := acceptAnswer_done h
    exact .inr ⟨_, rfl, rfl⟩

end

/-- Settles O22, turn by turn: the engine's turn keeps `MovedFrom` and under the invariant comes to a wait. -/
theorem turnsFollowTheTransitionTable : Obligations.TurnsFollowTheTransitionTable := by
  refine fun s t hs ht => ⟨fun hturn => ?wait, fun d rest hturn => ⟨(turnOf_accept hturn).1, ?accept⟩,
    fun hturn => ?engine, fun a rest hturn => ?answer, fun rest hturn => ⟨turnOf_take hturn, ?take⟩,
    fun rest hturn => ?restart, fun rest hturn => ?discard⟩
  all_goals simp only [step, hturn] at ht
  case wait => cases ht; rfl
  case accept =>
    split at ht
    · rename_i i hport
      cases ht
      exact ⟨dispatchOf i, rfl, rfl⟩
    · cases ht
  case engine =>
    obtain ⟨-, d, hph, hw⟩ := turnOf_engine hturn
    exact ⟨d, hph, (engineMove_movedFrom hph hw ht).reply_or_call (engineMove_waits hs hph hw ht)⟩
  case answer =>
    obtain ⟨⟨d, i, hph, hst⟩, -⟩ := turnOf_answer hturn
    exact ⟨d, i, hph, hst, answerHook_leads (s := s.setAgenda rest) hph hst ht⟩
  case take => cases ht; rfl
  case restart => cases ht; rfl
  case discard => cases ht; rfl

end Sys2Proof.Machine
end

section
/-!
The calls of a request in a range with its hook (R92, R97, R113, R133): T1, and then one engine's turn and one answer
for each address, ascending.
-/
namespace Sys2Proof.Machine

/-- Settles O45: T4 after the last address, and T6. -/
theorem commitOfARead : Obligations.CommitOfARead := by
  refine fun s d hk => ⟨fun hst => ?to_commit, fun hst => ?reply⟩
  case to_commit =>
    simp only [engineStep, hst, lt_irrefl, if_false, if_true]
    rfl
  case reply =>
    simp only [engineStep, hst, commitStep_read hk]
    rfl

/-! ### One call and its answer -/

/-- The engine's turn in `s` makes the call `c`, and the called unit's answer in `s₁` leads to `t`. -/
structure CallAnswered (c : HookCall) (s s₁ t : State) : Prop where
  moves : turnOf s = .engine
  engine_step : step s = .next s₁
  call : s₁.hookCall = some c
  answered : ∃ a rest, turnOf s₁ = .answer a rest
  answer_step : step s₁ = .next t

section
variable {c : HookCall} {s s₁ t : State} (h : CallAnswered c s s₁ t) (n : Nat)
include h

theorem CallAnswered.callsAnswered_eq : callsAnswered (n + 2) s = c :: callsAnswered n t := by
  obtain ⟨a, rest, hanswer⟩ := h.answered
  simp [callsAnswered, h.moves, h.engine_step, hanswer, h.call, h.answer_step]

theorem CallAnswered.run_eq : Host.Core.run core (n + 2) s = Host.Core.run core n t := by
  have h₀ : core.step s = .next s₁ := h.engine_step
  have h₁ : core.step s₁ = .next t := h.answer_step
  simp only [Host.Core.run, h₀, h₁]

end

/-! ### A request whose accesses are calls -/

/-- A request in flight, located in a range that has the hook of the request's kind. -/
structure Hooked (cfg : Configuration) (d : Dispatch) (h : HookKind) (sp : Space) (k : Nat) (r : Range) : Prop where
  located : Located cfg d k r sp
  words : d.vals.length = dataWords (kindOf d.fc) d.qty
  kind : kindHook (kindOf d.fc) = some h
  hook : rangeHasHook r h = true

/-- The call for element `i` of a span from `addr` (R92). -/
def elementCall (h : HookKind) (sp : Space) (k : Nat) (addr : Word) (i : Nat) (v : Word) : HookCall where
  space := sp
  range := k
  kind := h
  addr := BitVec.ofNat 16 (addr.toNat + i)
  value := v

/-- It is the engine's turn, and it makes the call for element `i` of `d`, where `d` has that element. -/
structure AboutToCall (s : State) (d : Dispatch) (i : Nat) : Prop where
  moves : ∃ e, engineTurn s.phase = some e
  calls : i < d.qty.toNat → engineMove s = .next (s.setPhase (.dispatching { d with stage := .hookWait i }))

/-- The stage and the gathered values do not matter. -/
theorem Hooked.of {cfg : Configuration} {d : Dispatch} {h : HookKind} {sp : Space} {k : Nat} {r : Range}
    (hd : Hooked cfg d h sp k r) (st : Stage) (acc : List Word) :
    Hooked cfg { d with stage := st, acc := acc } h sp k r :=
  ⟨located_of hd.located st acc, hd.words, hd.kind, hd.hook⟩

section
variable {s : State} {d : Dispatch} {h : HookKind} {sp : Space} {k i : Nat} {r : Range}

/-- The merged steps from `Access(i)` end at once with the call for element `i` (R114, R133). -/
theorem settle_hooked (hd : Hooked s.cfg d h sp k r) (hst : d.stage = .access i) (hi : i < d.qty.toNat) (n : Nat) :
    settle (n + 1) (s.setPhase (.dispatching d)) =
      .next (s.setPhase (.dispatching { d with stage := .hookWait i })) := by
  cases h with
  | read => exact settle_read_hooked hd.located hd.kind hst hi hd.hook
  | write => exact settle_write_hooked hd.located hd.kind hd.words hst hi hd.hook

theorem aboutToCall_access (hd : Hooked s.cfg d h sp k r) (hst : d.stage = .access i) :
    AboutToCall (s.setPhase (.dispatching d)) d i where
  moves := ⟨d, engineTurn_access hst⟩
  calls hi := by
    rw [engineMove_goesOn rfl (by simp [hst]) (by simp [hst])]
    exact settle_hooked hd hst hi _

/-- The value of a call outstanding for element `i` is the hook value of that element (R113, R133). -/
theorem hookCall_hookWait {v : Word} (hd : Hooked s.cfg d h sp k r)
    (hv : hookValue s d h sp k (d.addr.toNat - r.base.toNat) i = some v) :
    (s.setPhase (.dispatching { d with stage := .hookWait i })).hookCall = some (elementCall h sp k d.addr i v) := by
  have htgt : target s { d with stage := .hookWait i } = some (sp, k, r, d.addr.toNat - r.base.toNat) :=
    target_located (located_of hd.located _ _)
  have hvalue : hookValue (s.setPhase (.dispatching { d with stage := .hookWait i })) { d with stage := .hookWait i }
      h sp k (d.addr.toNat - r.base.toNat) i = some v := by
    cases h <;> simpa [hookValue] using hv
  simp [State.hookCall, hd.kind, htgt, hvalue, elementCall, spanAddr]

/-- An `Ok` joins the values and leaves every hook value of the request: a read stores nothing, and a write's are its
data words (R115, R134, R140). -/
theorem acceptAnswer_hooked (hd : Hooked s.cfg d h sp k r) (hi : i < d.qty.toNat) (v : Word) :
    ∃ t, acceptAnswer s d i v = .next t ∧ ElementDone s d i v t ∧
      ∀ o j, hookValue t d h sp k o j = hookValue s d h sp k o j := by
  cases h with
  | read => exact ⟨_, acceptAnswer_read hd.kind, ⟨s.holding, rfl⟩, fun o j => readCell_setPhase s _ sp k (o + j)⟩
  | write =>
    obtain rfl := located_write_space hd.located hd.kind
    obtain ⟨t, ht⟩ : ∃ t, acceptAnswer s d i v = .next t := by
      have hinside : d.addr.toNat - r.base.toNat + i < r.count.toNat := by
        have := located_offset hd.located
        omega
      rw [acceptAnswer_write hd.kind, answerWrite, writeTarget_located hd.located hd.kind]
      simp only [settleValue, writeCell_eq v hd.located.range hinside]
      split <;> exact ⟨_, rfl⟩
    exact ⟨t, ht, acceptAnswer_done ht, fun _ _ => rfl⟩

end

/-! ### The calls left -/

/-- The request `d` in `s` is about to make a call for each of the values `vs`, from element `i` on. -/
structure CallsLeft (s : State) (d : Dispatch) (h : HookKind) (sp : Space) (k : Nat) (r : Range) (i : Nat)
    (vs : List Word) : Prop where
  hooked : Hooked s.cfg d h sp k r
  about : AboutToCall s d i
  inside : i + vs.length ≤ d.qty.toNat
  values : ∀ j < vs.length, hookValue s d h sp k (d.addr.toNat - r.base.toNat) (i + j) = vs[j]?

section
variable {s : State} {d : Dispatch} {h : HookKind} {sp : Space} {k i : Nat} {r : Range} {v : Word} {vs : List Word}
  {rest : List Event} (hc : CallsLeft s d h sp k r i (v :: vs))
include hc

theorem CallsLeft.lt : i < d.qty.toNat := by
  have := hc.inside
  rw [List.length_cons] at this
  omega

/-- The engine's turn, with the answer `a` next on the agenda, and that answer. -/
theorem CallsLeft.callAnswered {a : HookAnswer} {t : State} (ha : s.agenda = .answer s.restarts a :: rest)
    (ht : answerHook a ((s.setAgenda rest).setPhase (.dispatching { d with stage := .hookWait i })) = .next t) :
    CallAnswered (elementCall h sp k d.addr i v) s (s.setPhase (.dispatching { d with stage := .hookWait i })) t := by
  obtain ⟨e, he⟩ := hc.about.moves
  have hturn : turnOf s = .engine := turnOf_moves he (by rw [ha]; rfl)
  have hcall := hookCall_hookWait hc.hooked (v := v) (hc.values 0 (Nat.zero_lt_succ _))
  obtain ⟨hanswer, hstep⟩ :=
    step_answer (s := s.setPhase (.dispatching { d with stage := .hookWait i })) rfl rfl ha
  exact ⟨hturn, by simp only [step, hturn, hc.about.calls hc.lt], hcall, ⟨a, rest, hanswer⟩, hstep.trans ht⟩

/-- A `Fail` ends the request (R97). -/
theorem CallsLeft.failed (ha : s.agenda = .answer s.restarts .fail :: rest) :
    ∃ s₁ t, CallAnswered (elementCall h sp k d.addr i v) s s₁ t ∧
      t.phase = .replying (.exception d.fc .serverDeviceFailure) :=
  ⟨_, _, hc.callAnswered ha (answerHook_fail rfl rfl), rfl⟩

/-- After an `Ok` the calls of the next elements are left (R115, R134). -/
theorem CallsLeft.goes_on {w : Word} (ha : s.agenda = .answer s.restarts (.ok w) :: rest) :
    ∃ s₁ t, CallAnswered (elementCall h sp k d.addr i v) s s₁ t ∧
      CallsLeft t { d with acc := d.acc ++ [w], stage := .access (i + 1) } h sp k r (i + 1) vs ∧
      t.agenda = rest ∧ t.restarts = s.restarts := by
  obtain ⟨t, ht, ⟨m, rfl⟩, hsame⟩ := acceptAnswer_hooked
    (s := (s.setAgenda rest).setPhase (.dispatching { d with stage := .hookWait i }))
    (hc.hooked.of (.hookWait i) d.acc) hc.lt w
  have hd := hc.hooked.of (.access (i + 1)) (d.acc ++ [w])
  have hinside : i + 1 + vs.length ≤ d.qty.toNat := by
    have := hc.inside
    rw [List.length_cons] at this
    omega
  refine ⟨_, _, hc.callAnswered ha ((answerHook_ok_eq rfl rfl w).trans ht),
    ⟨hd, aboutToCall_access hd rfl, hinside, fun j hj => (hsame _ _).trans ?_⟩, rfl, rfl⟩
  have hnext := hc.values (j + 1) (Nat.succ_lt_succ hj)
  rwa [List.getElem?_cons_succ, show i + (j + 1) = i + 1 + j by omega] at hnext

end

theorem hookCall_replying {s : State} {x : Reply} (h : s.phase = .replying x) : s.hookCall = none := by
  simp [State.hookCall, h]

/-- The run of `n` steps ends with the request answered by ServerDeviceFailure and no call outstanding (R97). -/
def EndsFailed (n : Nat) (s : State) (fc : Byte) : Prop :=
  ∃ t, Host.Core.run core n s = .next t ∧ t.phase = .replying (.exception fc .serverDeviceFailure) ∧ t.hookCall = none

/-- The calls left are answered one after the other, by induction over the answers, of which only the last may
fail. -/
theorem CallsLeft.calls {s : State} {d : Dispatch} {h : HookKind} {sp : Space} {k i : Nat} {r : Range}
    {vs : List Word} {answers : List HookAnswer} {more : List Event} (hc : CallsLeft s d h sp k r i vs)
    (hlen : answers.length ≤ vs.length) (hfail : ∀ a ∈ answers.dropLast, a ≠ .fail)
    (ha : s.agenda = answers.map (.answer s.restarts) ++ more) :
    callsAnswered (2 * answers.length) s =
        (vs.take answers.length).mapIdx (fun j => elementCall h sp k d.addr (i + j)) ∧
      (answers.getLast? = some .fail → EndsFailed (2 * answers.length) s d.fc) := by
  induction answers generalizing s d i vs with
  | nil => simp [callsAnswered]
  | cons a as ih =>
    obtain _ | ⟨v, vs⟩ := vs
    · simp at hlen
    cases a with
    | fail =>
      obtain rfl : as = [] := by
        by_contra hne
        exact hfail .fail (by simp [List.dropLast_cons_of_ne_nil hne]) rfl
      obtain ⟨s₁, t, hround, hreply⟩ := hc.failed ha
      refine ⟨(hround.callsAnswered_eq 0).trans (by simp [callsAnswered]), fun _ => ?_⟩
      exact ⟨t, hround.run_eq 0, hreply, hookCall_replying hreply⟩
    | ok w =>
      obtain ⟨s₁, t, hround, hleft, hagenda, hrestarts⟩ := hc.goes_on ha
      have hfail' : ∀ b ∈ as.dropLast, b ≠ .fail := fun b hb => by
        have hne : as ≠ [] := by rintro rfl; simp at hb
        exact hfail b (by simp [List.dropLast_cons_of_ne_nil hne, hb])
      obtain ⟨hcalls, hfailed⟩ := ih hleft (by simpa using hlen) hfail' (by rw [hagenda, hrestarts]; rfl)
      refine ⟨(hround.callsAnswered_eq (2 * as.length)).trans ?_, fun hlast => ?_⟩
      · rw [hcalls, List.length_cons, List.take_succ_cons, List.mapIdx_cons]
        simp only [Nat.add_assoc, Nat.add_comm 1, Nat.add_zero]
      · obtain ⟨u, hrun, hreply⟩ := hfailed (by cases as <;> simp_all)
        exact ⟨u, (hround.run_eq _).trans hrun, hreply⟩

/-! ### From the port on -/

/-- A request that validation passes into a range with the hook of its kind (R94). -/
structure HookedRequest (cfg : Configuration) (q : Instr) (h : HookKind) (sp : Space) (k : Nat) (r : Range) :
    Prop where
  wellFormed : q.WellFormed
  space : kindSpace (kindOf (dispatchOf q).fc) = some sp
  kind : kindHook (kindOf (dispatchOf q).fc) = some h
  positive : 1 ≤ (dispatchOf q).qty.toNat
  quantity : quantityLegal cfg (kindOf (dispatchOf q).fc) (dispatchOf q).qty.toNat = true
  span : SpanInRange cfg sp (dispatchOf q).addr (dispatchOf q).qty k r
  hook : rangeHasHook r h = true

section
variable {s : State} {q : Instr} {h : HookKind} {sp : Space} {k : Nat} {r : Range} {vs : List Word}
  {answers : List HookAnswer} {more : List Event} (hq : HookedRequest s.cfg q h sp k r)
include hq

/-- The request just accepted has all its calls left. -/
theorem HookedRequest.callsLeft (hph : s.phase = .dispatching (dispatchOf q))
    (hvs : vs.length = (dispatchOf q).qty.toNat) (hvalues : ∀ j < vs.length,
      hookValue s (dispatchOf q) h sp k ((dispatchOf q).addr.toNat - r.base.toNat) j = vs[j]?) :
    CallsLeft s { dispatchOf q with tgt := some (sp, k), stage := .access 0 } h sp k r 0 vs := by
  obtain ⟨hloc, hserve⟩ :=
    serve_located (vals := (dispatchOf q).vals) hph rfl hq.space hq.positive hq.quantity hq.span
  have hd : Hooked s.cfg { dispatchOf q with tgt := some (sp, k), stage := .access 0 } h sp k r :=
    ⟨hloc, dispatchOf_words hq.wellFormed, hq.kind, hq.hook⟩
  refine ⟨hd, ⟨⟨_, by rw [hph]; exact engineTurn_validate rfl⟩, fun hi => ?_⟩, by rw [Nat.zero_add, hvs],
    fun j hj => ?_⟩
  · rw [engineMove_accepted hph (decode_encode hq.wellFormed), exec_eq_serve, hserve]
    exact settle_hooked hd rfl hi _
  · rw [Nat.zero_add]
    exact hvalues j hj

/-- The calls of a request from its acceptance on: one for each answer, ascending. -/
theorem HookedRequest.calls (hidle : s.phase = .idle) (hvs : vs.length = (dispatchOf q).qty.toNat)
    (hvalues : ∀ j < vs.length,
      hookValue s (dispatchOf q) h sp k ((dispatchOf q).addr.toNat - r.base.toNat) j = vs[j]?)
    (hlen : answers.length ≤ vs.length) (hfail : ∀ a ∈ answers.dropLast, a ≠ .fail)
    (ha : s.agenda = .submit (encode q) :: (answers.map (.answer s.restarts) ++ more)) :
    callsAnswered (2 * answers.length + 1) s =
        (vs.take answers.length).mapIdx (elementCall h sp k (dispatchOf q).addr) ∧
      (answers.getLast? = some .fail → EndsFailed (2 * answers.length + 1) s (dispatchOf q).fc) := by
  obtain ⟨hturn, hstep⟩ := step_submit hidle ha (portDecode_iff.2 ⟨hq.wellFormed, rfl⟩)
  have hleft := HookedRequest.callsLeft (s := (s.setAgenda (answers.map (.answer s.restarts) ++ more)).setPhase
    (.dispatching (dispatchOf q))) hq rfl hvs hvalues
  obtain ⟨hcalls, hfailed⟩ := hleft.calls hlen hfail rfl
  have hcore : core.step s = .next _ := hstep
  refine ⟨?_, fun hlast => ?_⟩
  · simp [callsAnswered, hturn, hstep, hcalls]
  · simpa only [EndsFailed, Host.Core.run, hcore] using hfailed hlast

end

/-! ### Reads and writes -/

@[simp] theorem dispatchOf_readRequest (sp : Space) (addr qty : Word) :
    dispatchOf (readRequest sp addr qty) = newDispatch (readCode sp) addr qty [] := by
  cases sp
  · exact dispatchOf_readHolding addr qty
  · exact dispatchOf_readInput addr qty

theorem WriteRequest.dispatchOf_eq {cfg : Configuration} {q : Instr} {fc : Byte} {addr qty : Word}
    {values : List Word} {echo : Reply} (h : WriteRequest cfg q fc addr qty values echo) :
    dispatchOf q = newDispatch fc addr qty values := by
  cases h with
  | single _ value => exact dispatchOf_writeHolding addr 1 value
  | multiple => exact dispatchOf_writeMultipleHolding addr qty values

theorem WriteRequest.length_eq {cfg : Configuration} {q : Instr} {fc : Byte} {addr qty : Word}
    {values : List Word} {echo : Reply} (h : WriteRequest cfg q fc addr qty values echo) :
    values.length = qty.toNat := by
  cases h with
  | single => rfl
  | multiple _ _ _ len => exact len

section
variable {cfg : Configuration} {sp : Space} {addr qty : Word} {k : Nat} {r : Range}

theorem HookedRequest.of_newDispatch {q : Instr} {h : HookKind} {fc : Byte} {vals : List Word} (hwf : q.WellFormed)
    (hrec : dispatchOf q = newDispatch fc addr qty vals) (hsp : kindSpace (kindOf fc) = some sp)
    (hk : kindHook (kindOf fc) = some h) (h1 : 1 ≤ qty.toNat) (hl : quantityLegal cfg (kindOf fc) qty.toNat = true)
    (hspan : SpanInRange cfg sp addr qty k r) (hh : rangeHasHook r h = true) : HookedRequest cfg q h sp k r :=
  ⟨hwf, by rwa [hrec], by rwa [hrec], by rwa [hrec], by rwa [hrec], by rwa [hrec], hh⟩

theorem hookedRequest_read (h1 : 1 ≤ qty.toNat) (hmax : qty.toNat ≤ cfg.qmaxRead)
    (hspan : SpanInRange cfg sp addr qty k r) (hh : r.hasRd = true) :
    HookedRequest cfg (readRequest sp addr qty) .read sp k r :=
  .of_newDispatch (portDecode_iff.1 (portDecode_readRequest sp addr qty)).1 (dispatchOf_readRequest sp addr qty)
    (kindSpace_readCode sp) (kindHook_readCode sp) h1 (quantityLegal_readCode.2 ⟨h1, hmax⟩) hspan hh

theorem hookedRequest_write {q : Instr} {fc : Byte} {values : List Word} {echo : Reply}
    (h : WriteRequest cfg q fc addr qty values echo) (hspan : SpanInRange cfg .holding addr qty k r)
    (hh : r.hasWr = true) : HookedRequest cfg q .write .holding k r := by
  have hrec := h.dispatchOf_eq
  cases h with
  | single => exact .of_newDispatch rfl hrec rfl rfl le_rfl rfl hspan hh
  | multiple _ _ _ len low high =>
    exact .of_newDispatch (wellFormed_writeMultipleHolding.2 len) hrec rfl rfl low (decide_eq_true ⟨low, high⟩)
      hspan hh

end

theorem SpanInRange.inside {cfg : Configuration} {sp : Space} {addr qty : Word} {k : Nat} {r : Range}
    (h : SpanInRange cfg sp addr qty k r) : addr.toNat - r.base.toNat + qty.toNat ≤ r.count.toNat := by
  have hbase := h.base
  have hlimit := h.limit
  omega

/-- Settles O55: the value of each call is the raw cell. -/
theorem readHookCallsAscend : Obligations.ReadHookCallsAscend := by
  intro s sp addr qty k r raws answers more hidle h1 hmax hspan hh hraws hlen hfail ha
  obtain ⟨vs, hvs, hcount, hcells⟩ := rawCells_span (s := s) hspan.range hspan.inside
  obtain rfl : vs = raws := Option.some.inj (hvs.symm.trans hraws)
  have hcalls := (hookedRequest_read h1 hmax hspan hh).calls (vs := vs) hidle
    (by rw [dispatchOf_readRequest]; exact hcount)
    (by rw [dispatchOf_readRequest]; exact fun j hj => (hcells j (hcount ▸ hj)).symm) (hcount ▸ hlen) hfail ha
  rw [dispatchOf_readRequest] at hcalls
  exact hcalls

/-- Settles O56: the value of each call is the data word. -/
theorem writeHookCallsAscend : Obligations.WriteHookCallsAscend := by
  intro s q fc addr qty values echo k r answers more hidle _ hreq hspan hh hlen hfail ha
  have hcalls := (hookedRequest_write hreq hspan hh).calls (vs := values) hidle
    (by rw [hreq.dispatchOf_eq]; exact hreq.length_eq)
    (by rw [hreq.dispatchOf_eq]; exact fun _ _ => rfl) (hreq.length_eq ▸ hlen) hfail ha
  rw [hreq.dispatchOf_eq] at hcalls
  exact hcalls

end Sys2Proof.Machine
end

section
/-!
The read path (R111 to R119): the access step and the answer step of a read, what a read of a plain range replies, and
the first call of a read of a hooked one.
-/
namespace Sys2Proof.Machine

/-! ### One address of a located read -/

section
variable {s : State} {d : Dispatch} {i k : Nat} {r : Range} {sp : Space} {raw : Word}

theorem readCell_located (hr : Located s.cfg d k r sp) (hi : i < d.qty.toNat) :
    ∃ raw, readCell s sp k (d.addr.toNat - r.base.toNat + i) = some raw := by
  have hinside := located_offset hr
  exact readCell_some hr.range (by omega)

/-- T3 of a read (R114): the call of the read hook where there is one, the raw cell gathered where there is none. -/
theorem engineStep_read (hr : Located s.cfg d k r sp) (hk : kindHook (kindOf d.fc) = some .read)
    (hst : d.stage = .access i) (hi : i < d.qty.toNat)
    (hraw : readCell s sp k (d.addr.toNat - r.base.toNat + i) = some raw) : engineStep s d =
      .next (s.setPhase (.dispatching (if r.hasRd then { d with stage := .hookWait i }
        else { d with acc := d.acc ++ [raw], stage := .access (i + 1) }))) := by
  simp only [engineStep, hst, hi, if_true, accessStep_read hk, accessRead, target_located hr, hraw]
  cases r.hasRd <;> rfl

/-- The call outstanding in `HookWait(i)` of a read carries the raw cell (R113). -/
theorem hookCall_read (hr : Located s.cfg d k r sp) (hk : kindHook (kindOf d.fc) = some .read)
    (hraw : readCell s sp k (d.addr.toNat - r.base.toNat + i) = some raw) :
    (s.setPhase (.dispatching { d with stage := .hookWait i })).hookCall =
      some (elementCall .read sp k d.addr i raw) := by
  have htgt : target s { d with stage := .hookWait i } = some (sp, k, r, d.addr.toNat - r.base.toNat) :=
    target_located (located_of hr _ _)
  simp [State.hookCall, hk, htgt, hookValue, hraw, elementCall, spanAddr]

/-- No address of a span in a legal range wraps to 0 (R50), so the call's 16 bits hold it whole. -/
theorem elementCall_addr (hr : Located s.cfg d k r sp) (hl : RangesLegal (s.cfg.ranges sp)) (hi : i < d.qty.toNat)
    (h : HookKind) (v : Word) : (elementCall h sp k d.addr i v).addr.toNat = d.addr.toNat + i := by
  have hspan : d.addr.toNat + d.qty.toNat ≤ r.base.toNat + r.count.toNat := hr.limit
  have htop := (hl.1 r (List.mem_of_getElem? hr.range)).2
  simp only [elementCall, BitVec.toNat_ofNat]
  omega

/-- T5 of a read (R115). -/
theorem answerHook_read (hph : s.phase = .dispatching d) (hst : d.stage = .hookWait i)
    (hk : kindHook (kindOf d.fc) = some .read) (v : Word) : answerHook (.ok v) s =
      .next (s.setPhase (.dispatching { d with acc := d.acc ++ [v], stage := .access (i + 1) })) := by
  rw [answerHook_ok_eq hph hst, acceptAnswer_read hk]
  rfl

end

/-- Settles O43: the cell is there because the span is inside the range; with a hook the call reports it, without one it
is gathered. -/
theorem accessStepOfARead : Obligations.AccessStepOfARead := by
  intro s d i k r sp hr hl hk hst hi
  obtain ⟨raw, hraw⟩ := readCell_located hr hi
  have hstep := engineStep_read hr hk hst hi hraw
  refine ⟨raw, hraw, fun hh => ?called, fun hh => ?gathered⟩
  case called =>
    rw [hh] at hstep
    exact ⟨_, _, hstep, rfl, hookCall_read hr hk hraw, rfl, rfl, rfl, elementCall_addr hr hl hi .read raw, rfl⟩
  case gathered =>
    rw [hh] at hstep
    exact hstep

/-- Settles O44: the two answers of the called unit. -/
theorem answerStepOfAReadHook : Obligations.AnswerStepOfAReadHook :=
  fun _ _ _ v hph hst hk => ⟨answerHook_read hph hst hk v, answerHook_fail hph hst⟩

/-! ### An accepted read up to its reply or its first call -/

/-- The record of the read of a span in range `k`, once validation has set the target (R94, R110). -/
def validatedRead (sp : Space) (addr qty : Word) (k : Nat) : Dispatch :=
  { newDispatch (readCode sp) addr qty [] with tgt := some (sp, k), stage := .access 0 }

section
variable {s : State} {sp : Space} {addr qty : Word} {k : Nat} {r : Range}

/-- An accepted read that passes validation is located, and `exec` goes on from `Access(0)` (R94, R111, R112). -/
theorem exec_read_located (hacc : Accepted s (readRequest sp addr qty)) (h1 : 1 ≤ qty.toNat)
    (hmax : qty.toNat ≤ s.cfg.qmaxRead) (hspan : SpanInRange s.cfg sp addr qty k r) :
    Located s.cfg (validatedRead sp addr qty k) k r sp ∧ exec (readRequest sp addr qty) s =
      settle (qty.toNat + 2) (s.setPhase (.dispatching (validatedRead sp addr qty k))) := by
  rw [exec_readRequest]
  exact serve_located hacc (dispatchOf_stage _) (kindSpace_readCode sp) h1 (quantityLegal_readCode.2 ⟨h1, hmax⟩) hspan

/-- An accepted read of a range with a read hook calls it for the first address (R113, R114). -/
theorem exec_read_hooked (hacc : Accepted s (readRequest sp addr qty)) (h1 : 1 ≤ qty.toNat)
    (hmax : qty.toNat ≤ s.cfg.qmaxRead) (hspan : SpanInRange s.cfg sp addr qty k r) (hh : r.hasRd = true) :
    Located s.cfg (validatedRead sp addr qty k) k r sp ∧ exec (readRequest sp addr qty) s =
      .next (s.setPhase (.dispatching { validatedRead sp addr qty k with stage := .hookWait 0 })) := by
  obtain ⟨hloc, hexec⟩ := exec_read_located hacc h1 hmax hspan
  exact ⟨hloc, hexec.trans (settle_read_hooked hloc (kindHook_readCode sp) rfl h1 hh)⟩

/-- An accepted read of a range without a read hook replies with the cells of its span, in either space. -/
theorem exec_read_cells (hacc : Accepted s (readRequest sp addr qty)) (h1 : 1 ≤ qty.toNat)
    (hmax : qty.toNat ≤ s.cfg.qmaxRead) (hspan : SpanInRange s.cfg sp addr qty k r) (hh : r.hasRd = false) :
    ∃ vals, exec (readRequest sp addr qty) s = .next (s.setPhase (.replying (.readOk (readCode sp) vals))) ∧
      vals.length = qty.toNat ∧ ∀ i < qty.toNat,
        vals[i]? = readCell s sp k (addr.toNat - r.base.toNat + i) ∧
        vals[i]? = Memory.read (s.cfg.ranges sp) (s.file sp) (addr.toNat + i) := by
  have hinside := hspan.inside
  obtain ⟨vals, hvals, hlen, hcells⟩ := rawCells_span (s := s) hspan.range hinside
  refine ⟨vals, exec_read_plain hacc h1 hmax hspan hh hvals, hlen, fun i hi => ⟨hcells i hi, ?_⟩⟩
  have hbase := hspan.base
  rw [hcells i hi, readCell_eq hspan.range (by omega),
    show r.base.toNat + (addr.toNat - r.base.toNat + i) = addr.toNat + i by omega]

end

/-- Settles O40: `exec_read_cells` in the holding space. -/
theorem readHoldingRepliesWithTheCells : Obligations.ReadHoldingRepliesWithTheCells :=
  fun _ _ _ _ _ hacc h1 hmax hspan hh => exec_read_cells (sp := .holding) hacc h1 hmax hspan hh

/-- Settles O41: `exec_read_cells` in the input space. -/
theorem readInputRepliesWithTheCells : Obligations.ReadInputRepliesWithTheCells :=
  fun _ _ _ _ _ hacc h1 hmax hspan hh => exec_read_cells (sp := .input) hacc h1 hmax hspan hh

/-- Settles O42: validation passes, and the access step of the first address is a call. -/
theorem hookedReadCallsTheReadHook : Obligations.HookedReadCallsTheReadHook := by
  intro sp addr qty s k r hacc h1 hmax hspan hh
  obtain ⟨hloc, hexec⟩ := exec_read_hooked hacc h1 hmax hspan hh
  obtain ⟨raw, hraw⟩ := readCell_located (i := 0) hloc h1
  refine ⟨_, raw, hexec, rfl, hraw, (hookCall_read hloc (kindHook_readCode sp) hraw).trans ?_⟩
  simp [elementCall, validatedRead, newDispatch]

end Sys2Proof.Machine
end

section
/-!
A whole read with the hook answers it gets (R98, R101, R119), and the read of a word just written (R118).
-/
namespace Sys2Proof.Machine

/-! ### A read of a plain range -/

section
variable {s : State} {sp : Space} {addr qty : Word} {k : Nat} {r : Range} {vals : List Word} {rest : List Event}

/-- A read of a range without a read hook that stands next on the agenda replies after two steps: T1 and the engine's
turn. -/
theorem run_read_plain (hidle : s.phase = .idle) (ha : s.agenda = .submit (encode (readRequest sp addr qty)) :: rest)
    (hreset : resetAtOnce rest = none) (h1 : 1 ≤ qty.toNat) (hmax : qty.toNat ≤ s.cfg.qmaxRead)
    (hspan : SpanInRange s.cfg sp addr qty k r) (hh : r.hasRd = false)
    (hvals : rawCells s sp k (addr.toNat - r.base.toNat) qty.toNat = some vals) : Host.Core.run core 2 s =
      .next ((s.setAgenda rest).setPhase (.replying (.readOk (readCode sp) vals))) := by
  have hport := portDecode_readRequest sp addr qty
  have hsubmit : core.step s = .next _ := (step_submit hidle ha hport).2
  have hserve : core.step ((s.setAgenda rest).setPhase (.dispatching (dispatchOf (readRequest sp addr qty)))) = _ :=
    (step_accepted rfl hreset (decode_of_portDecode hport)).2.trans
      (exec_read_plain rfl h1 hmax hspan hh (by simpa using hvals))
  simp only [Host.Core.run, hsubmit, hserve]
  rfl

end

/-! ### A call that is not answered -/

/-- Where the engine waits and only late answers are enabled, a step takes one of them from the agenda at most. -/
theorem step_onlyLate {s : State} (hwaits : engineTurn s.phase = none)
    (h : ∀ e ∈ s.agenda, eventEnabled s e = true → ∃ n a, e = .answer n a ∧ n ≠ s.restarts) :
    ∃ es, step s = .next (s.setAgenda es) ∧ es ⊆ s.agenda := by
  cases hnext : nextEvent s s.agenda with
  | none =>
    have hturn : turnOf s = .wait := by simp [turnOf, hwaits, hnext]
    exact ⟨s.agenda, by simp only [step, hturn]; rfl, List.Subset.refl _⟩
  | some x =>
    obtain ⟨e, rest⟩ := x
    obtain ⟨hen, pre, post, hagenda, rfl, -⟩ := nextEvent_some hnext
    obtain ⟨n, a, rfl, hlate⟩ := h e (by simp [hagenda]) hen
    have hturn : turnOf s = .discard (pre ++ post) := by simp [turnOf, hwaits, hnext, eventTurn, hlate]
    exact ⟨pre ++ post, by simp only [step, hturn], by simp [hagenda]⟩

/-- In `HookWait` a request and a take are not enabled (R93, R99). -/
theorem eventEnabled_hookWait {s : State} {d : Dispatch} {e : Event} (hph : s.phase = .dispatching d)
    (hr : ∀ m, e ≠ .reset m) (ha : ∀ a, e ≠ .answer s.restarts a) (he : eventEnabled s e = true) :
    ∃ n a, e = .answer n a ∧ n ≠ s.restarts := by
  cases e with
  | answer n a => exact ⟨n, a, rfl, fun h => ha a (h ▸ rfl)⟩
  | submit q => simp [eventEnabled, hph] at he
  | take => simp [eventEnabled, hph] at he
  | reset m => exact absurd rfl (hr m)

/-- Without its answer and without reset a call is outstanding for ever: only the agenda changes (R98). -/
theorem run_unanswered {s : State} {d : Dispatch} {i : Nat} (hph : s.phase = .dispatching d)
    (hst : d.stage = .hookWait i) (hr : ∀ m, Event.reset m ∉ s.agenda)
    (ha : ∀ a, Event.answer s.restarts a ∉ s.agenda) (n : Nat) :
    ∃ es, Host.Core.run core n s = .next (s.setAgenda es) := by
  induction n generalizing s with
  | zero => exact ⟨s.agenda, rfl⟩
  | succ n ih =>
    obtain ⟨es, hstep, hsub⟩ := step_onlyLate (hph ▸ engineTurn_hookWait hst) fun e he =>
      eventEnabled_hookWait hph (fun m h => hr m (h ▸ he)) (fun a h => ha a (h ▸ he))
    obtain ⟨fs, hrun⟩ := ih (s := s.setAgenda es) hph (fun m h => hr m (hsub h)) fun a h => ha a (hsub h)
    have hcore : core.step s = .next (s.setAgenda es) := hstep
    exact ⟨fs, by simp only [Host.Core.run, hcore]; exact hrun⟩

/-! ### The ends of the read path -/

/-- A run from `s` ends a read with the function code `fc` as `x` says, `more` following the answers on the agenda; only
the agenda and the phase change (R119). -/
def ReadEnds (s : State) (fc : Byte) (more : List Event) : PathEnd → Prop
  | .done acc rest => ∃ n, Host.Core.run core n s =
      .next ((s.setAgenda (rest.map (.answer s.restarts) ++ more)).setPhase (.replying (.readOk fc acc)))
  | .failed _ rest => ∃ n, Host.Core.run core n s =
      .next ((s.setAgenda (rest.map (.answer s.restarts) ++ more)).setPhase
        (.replying (.exception fc .serverDeviceFailure)))
  | .hangs acc => (∀ m, Event.reset m ∉ more) → (∀ a, Event.answer s.restarts a ∉ more) →
      ∃ m d, d.stage = .hookWait acc.length ∧ d.acc = acc ∧ ∀ n, m ≤ n → ∃ es, Host.Core.run core n s =
        .next ((s.setAgenda es).setPhase (.dispatching d))

/-- One step before a read that ends as `x` says. -/
theorem ReadEnds.of_step {s : State} {es : List Event} {p : Phase} {fc : Byte} {more : List Event} {x : PathEnd}
    (hstep : step s = .next ((s.setAgenda es).setPhase p)) (h : ReadEnds ((s.setAgenda es).setPhase p) fc more x) :
    ReadEnds s fc more x := by
  have hrun (n : Nat) : Host.Core.run core (n + 1) s = Host.Core.run core n ((s.setAgenda es).setPhase p) := by
    have hcore : core.step s = _ := hstep
    simp only [Host.Core.run, hcore]
  cases x with
  | done acc rest | failed acc rest =>
    obtain ⟨n, hn⟩ := h
    exact ⟨n + 1, (hrun n).trans hn⟩
  | hangs acc =>
    intro hr ha
    obtain ⟨m, d, hst, hacc, hn⟩ := h hr ha
    refine ⟨m + 1, d, hst, hacc, fun n hle => ?_⟩
    obtain ⟨n, rfl⟩ : ∃ j, n = j + 1 := ⟨n - 1, by omega⟩
    obtain ⟨fs, hfs⟩ := hn n (by omega)
    exact ⟨fs, (hrun n).trans hfs⟩

/-- Without a hook every value is the plain one and no answer is drawn (R114). -/
theorem pathLoop_plain (acc vs : List Word) (answers : List HookAnswer) :
    pathLoop false acc vs answers = .done (acc ++ vs) answers := by
  induction vs generalizing acc with
  | nil => simp [pathLoop]
  | cons v vs ih => simp [pathLoop, draw, ih]

/-- Answers of hook units hold up no step of the engine. -/
theorem resetAtOnce_answers {more : List Event} (h : resetAtOnce more = none) (n : Nat) (answers : List HookAnswer) :
    resetAtOnce (answers.map (.answer n) ++ more) = none := by
  cases answers with
  | nil => exact h
  | cons a as => rfl

/-! ### A hooked read from a call on -/

section
variable {s : State} {d : Dispatch} {i k : Nat} {r : Range} {sp : Space}

/-- The engine's turn in `Access(i)` of a hooked read (R101): the call of the next element, or after the last one the
reply. -/
theorem step_read_access (hr : Located s.cfg d k r sp) (hk : kindHook (kindOf d.fc) = some .read)
    (hh : r.hasRd = true) (hph : s.phase = .dispatching d) (hst : d.stage = .access i) (hi : i ≤ d.qty.toNat)
    (hreset : resetAtOnce s.agenda = none) : step s =
      .next (s.setPhase (if i < d.qty.toNat then .dispatching { d with stage := .hookWait i }
        else .replying (.readOk d.fc d.acc))) := by
  have hturn : turnOf s = .engine := turnOf_moves (hph ▸ engineTurn_access hst) hreset
  have hself : s = s.setPhase (.dispatching d) := state_ext rfl rfl rfl hph rfl rfl
  have hmove : step s = settle (d.qty.toNat + 1 + 2) (s.setPhase (.dispatching d)) := by
    simp only [step, hturn]
    rw [engineMove_goesOn hph (by simp [hst]) (by simp [hst]), hself]
    rfl
  rw [hmove]
  split
  · rename_i hlt
    exact settle_read_hooked hr hk hst hlt hh
  · obtain rfl : i = d.qty.toNat := by omega
    exact settle_last hst (commitStep_read hk) rfl

/-- What the outstanding call of a hooked read leads to, where `hgo` says it of the run after an `Ok` (R115). -/
theorem readEnds_call {v : Word} {vs : List Word} {answers : List HookAnswer} {more : List Event}
    (hk : kindHook (kindOf d.fc) = some .read) (hph : s.phase = .dispatching d) (hst : d.stage = .hookWait i)
    (hlen : d.acc.length = i) (ha : s.agenda = answers.map (.answer s.restarts) ++ more)
    (hgo : ∀ w rest, ReadEnds ((s.setAgenda (rest.map (.answer s.restarts) ++ more)).setPhase
      (.dispatching { d with acc := d.acc ++ [w], stage := .access (i + 1) })) d.fc more
      (pathLoop true (d.acc ++ [w]) vs rest)) :
    ReadEnds s d.fc more (pathLoop true d.acc (v :: vs) answers) := by
  obtain _ | ⟨_ | _, rest⟩ := answers
  case nil =>
    intro hr hans
    refine ⟨0, d, hst.trans (hlen ▸ rfl), rfl, fun n _ => ?_⟩
    obtain ⟨es, hes⟩ := run_unanswered hph hst (ha ▸ hr) (ha ▸ hans) n
    exact ⟨es, hes.trans (congrArg _ (state_ext rfl rfl rfl hph rfl rfl))⟩
  case cons.ok w =>
    have hanswer := answerHook_read (s := s.setAgenda (rest.map (.answer s.restarts) ++ more)) hph hst hk w
    exact .of_step ((step_answer hph hst ha).2.trans hanswer) (hgo w rest)
  case cons.fail =>
    have hanswer := answerHook_fail (s := s.setAgenda (rest.map (.answer s.restarts) ++ more)) hph hst
    exact .of_step ((step_answer hph hst ha).2.trans hanswer) ⟨0, rfl⟩

/-- A hooked read from `Access(i)` on ends as the loop over the values left says, by induction over these values. -/
theorem readEnds_access {vs : List Word} {answers : List HookAnswer} {more : List Event}
    (hr : Located s.cfg d k r sp) (hk : kindHook (kindOf d.fc) = some .read) (hh : r.hasRd = true)
    (hph : s.phase = .dispatching d) (hst : d.stage = .access i) (hlen : d.acc.length = i)
    (hleft : i + vs.length = d.qty.toNat) (ha : s.agenda = answers.map (.answer s.restarts) ++ more)
    (hreset : resetAtOnce more = none) : ReadEnds s d.fc more (pathLoop true d.acc vs answers) := by
  induction vs generalizing s d i answers with
  | nil =>
    have hlast : i = d.qty.toNat := hleft
    have hstep := step_read_access hr hk hh hph hst hlast.le (ha ▸ resetAtOnce_answers hreset _ _)
    rw [if_neg hlast.not_lt] at hstep
    exact .of_step hstep ⟨0, by rw [ha]; rfl⟩
  | cons v vs ih =>
    rw [List.length_cons] at hleft
    have hlt : i < d.qty.toNat := by omega
    have hstep := step_read_access hr hk hh hph hst hlt.le (ha ▸ resetAtOnce_answers hreset _ _)
    rw [if_pos hlt] at hstep
    refine .of_step hstep (readEnds_call (d := { d with stage := .hookWait i }) hk rfl rfl hlen ha fun w rest => ?_)
    exact ih (d := { d with acc := d.acc ++ [w], stage := .access (i + 1) }) (located_of hr _ _) hk rfl rfl
      (by simp [hlen]) ((Nat.add_right_comm ..).trans hleft) rfl

end

/-- Settles O46: a plain range draws no answer and replies at once; in a hooked one T1 and the engine's turn lead to the
first call. -/
theorem readRequestIsTheReadPathFunction : Obligations.ReadRequestIsTheReadPathFunction := by
  intro s sp addr qty k r raws answers more hidle h1 hmax hspan hraws ha hreset
  suffices ReadEnds s (readCode sp) more (pathLoop r.hasRd [] raws answers) by
    revert this
    cases pathLoop r.hasRd [] raws answers <;> exact id
  have hengine := resetAtOnce_answers hreset s.restarts answers
  cases hh : r.hasRd with
  | false =>
    rw [pathLoop_plain]
    exact ⟨2, run_read_plain hidle ha hengine h1 hmax hspan hh hraws⟩
  | true =>
    have hport := portDecode_readRequest sp addr qty
    refine .of_step (step_submit hidle ha hport).2 ?_
    obtain ⟨hloc, hcall⟩ := exec_read_hooked
      (s := (s.setAgenda (answers.map (.answer s.restarts) ++ more)).setPhase
        (.dispatching (dispatchOf (readRequest sp addr qty)))) rfl h1 hmax hspan hh
    refine .of_step ((step_accepted rfl hengine (decode_of_portDecode hport)).2.trans hcall) ?_
    obtain ⟨vs, hvs, hlen, -⟩ := rawCells_span (s := s) hspan.range hspan.inside
    obtain rfl : vs = raws := Option.some.inj (hvs.symm.trans hraws)
    obtain ⟨v, vs, rfl⟩ := List.exists_cons_of_length_pos (h1.trans_eq hlen.symm)
    refine readEnds_call (d := { validatedRead sp addr qty k with stage := .hookWait 0 }) (kindHook_readCode sp) rfl
      rfl rfl rfl fun w rest => ?_
    exact readEnds_access (d := { validatedRead sp addr qty k with acc := [w], stage := .access 1 })
      (located_of hloc _ _) (kindHook_readCode sp) hh rfl rfl rfl ((Nat.add_comm 1 _).trans hlen) rfl hreset

/-! ### A write to a plain range, and the read after it -/

section
variable {q : Instr} {fc : Byte} {addr qty : Word} {values : List Word} {echo : Reply}

/-- What validation asks of a write request and the number of its data words (R64, R94). -/
theorem WriteRequest.validates {cfg : Configuration} (h : WriteRequest cfg q fc addr qty values echo) :
    kindSpace (kindOf fc) = some .holding ∧ kindHook (kindOf fc) = some .write ∧ 1 ≤ qty.toNat ∧
      quantityLegal cfg (kindOf fc) qty.toNat = true ∧ values.length = dataWords (kindOf fc) qty := by
  cases h with
  | single => exact ⟨rfl, rfl, le_rfl, rfl, rfl⟩
  | multiple _ _ _ len low high => exact ⟨rfl, rfl, low, decide_eq_true ⟨low, high⟩, len⟩

theorem WriteRequest.echoReply_eq {cfg : Configuration} (h : WriteRequest cfg q fc addr qty values echo) :
    echoReply (newDispatch fc addr qty values) = some echo := by
  cases h <;> rfl

/-- An accepted write of a range without a write hook stores its words in address order, leaves every other cell, and
goes through to its echo (R131, R132, R135, R139). -/
theorem exec_write_plain {s : State} {k : Nat} {r : Range} (hreq : WriteRequest s.cfg q fc addr qty values echo)
    (hacc : Accepted s q) (hw : Memory.wf s.cfg.holding s.holding = true)
    (hspan : SpanInRange s.cfg .holding addr qty k r) (hh : r.hasWr = false) :
    ∃ m, exec q s = .next ((s.setHolding m).setPhase (.replying echo)) ∧ Memory.wf s.cfg.holding m = true ∧
      ∀ a, Memory.read s.cfg.holding m a =
        if addr.toNat ≤ a ∧ a < addr.toNat + qty.toNat then values[a - addr.toNat]?
        else Memory.read s.cfg.holding s.holding a := by
  obtain ⟨hsp, hk, h1, hq, hwords⟩ := hreq.validates
  obtain ⟨hloc, hserve⟩ := serve_located (vals := values) hacc rfl hsp h1 hq hspan
  obtain ⟨m, hstore, hsettle⟩ := settle_write_plain (n := 0) hh hw hloc hk hwords rfl (Nat.zero_add _) hreq.echoReply_eq
  obtain ⟨m', hstore', hwf, hread⟩ := writeCells_span hspan.range (hreq.length_eq ▸ hspan.inside) hw
  obtain rfl : m = m' := congrArg State.holding (Option.some.inj (hstore.symm.trans hstore'))
  rw [hreq.length_eq, Nat.add_sub_cancel' hspan.base] at hread
  refine ⟨m, ?_, hwf, hread⟩
  rw [exec_eq_serve, hreq.dispatchOf_eq]
  exact hserve.trans (by simpa [newDispatch] using hsettle)

end

/-- Settles O57: the write and the take are three steps, the read of the same address two more. -/
theorem writeThenReadReturnsTheWord : Obligations.WriteThenReadReturnsTheWord := by
  intro s addr value k r rest hidle hw hmax hspan hrd hwr ha hreset
  obtain ⟨m, hexec, -, hread⟩ := exec_write_plain
    (s := (s.setAgenda (.take :: .submit (encode (.readHolding addr 1)) :: rest)).setPhase
      (.dispatching (dispatchOf (.writeHolding addr 1 value)))) (.single addr value) rfl hw hspan hwr
  obtain ⟨s₁, hserved⟩ := servedAtOnce_of_exec hidle ha (portDecode_iff.2 ⟨rfl, rfl⟩) hexec rfl
  refine ⟨m, (hserved.run_eq 2).trans (run_read_plain (sp := .holding) rfl rfl hreset le_rfl hmax hspan hrd ?_)⟩
  have hcell : Memory.read s.cfg.holding m addr.toNat = some value := by simpa using hread addr.toNat
  have hinside : addr.toNat - r.base.toNat + 1 ≤ r.count.toNat := hspan.inside
  have hraw := readCell_eq (s := s.setHolding m) (sp := .holding) hspan.range hinside
  rw [Nat.add_sub_cancel' hspan.base] at hraw
  simp [rawCells, hraw, hcell]

end Sys2Proof.Machine
end

section
/-!
The write path (R130 to R140): the settled value, the access, answer and commit steps of a write under both policies,
and an accepted write up to its echo or its first call.
-/
namespace Sys2Proof.Machine

/-! ### One value of a located write -/

/-- `x` goes on to the next address with the value `v` of element `i` settled: under PREFIX its cell is stored at once
(R133, R134, R136). -/
def SettlesValue (s : State) (d : Dispatch) (k o i : Nat) (v : Word) (x : Result) : Prop :=
  (s.cfg.failPolicy = .atomic →
    x = .next (s.setPhase (.dispatching { d with acc := d.acc ++ [v], stage := .access (i + 1) }))) ∧
  (s.cfg.failPolicy = .prefixed → ∃ s', writeCell s k (o + i) v = some s' ∧
    x = .next (s'.setPhase (.dispatching { d with acc := d.acc ++ [v], stage := .access (i + 1) })))

section
variable {s : State} {d : Dispatch} {i k : Nat} {r : Range} {v : Word} (hr : Located s.cfg d k r .holding)
include hr

theorem settleValue_located (hi : i < d.qty.toNat) : SettlesValue s d k (d.addr.toNat - r.base.toNat) i v
    (settleValue s d k (d.addr.toNat - r.base.toNat) i v) := by
  have hinside := located_offset hr
  have hcell := writeCell_eq v hr.range (o := d.addr.toNat - r.base.toNat + i) (by omega)
  refine ⟨fun hp => ?atomic, fun hp => ⟨_, hcell, ?prefixed⟩⟩
  case atomic => simp only [settleValue, hp]
  case prefixed => simp only [settleValue, hp, hcell]

/-- T3 of a write (R133): the call of the write hook where there is one, the incoming value settled where there is
none. -/
theorem engineStep_write (hk : kindHook (kindOf d.fc) = some .write) (hst : d.stage = .access i)
    (hi : i < d.qty.toNat) (hv : d.vals[i]? = some v) : engineStep s d =
      if r.hasWr then .next (s.setPhase (.dispatching { d with stage := .hookWait i }))
      else settleValue s d k (d.addr.toNat - r.base.toNat) i v := by
  simp only [engineStep, hst, hi, if_true, accessStep_write hk, accessWrite, writeTarget_located hr hk, hv]

/-- The call outstanding in `HookWait(i)` of a write carries the incoming value (R133). -/
theorem hookCall_write (hk : kindHook (kindOf d.fc) = some .write) (hv : d.vals[i]? = some v) :
    (s.setPhase (.dispatching { d with stage := .hookWait i })).hookCall =
      some (elementCall .write .holding k d.addr i v) := by
  have htgt : target s { d with stage := .hookWait i } = some (.holding, k, r, d.addr.toNat - r.base.toNat) :=
    target_located (located_of hr _ _)
  simp [State.hookCall, hk, htgt, hookValue, hv, elementCall, spanAddr]

/-- T5 of a write (R134). -/
theorem answerHook_write (hph : s.phase = .dispatching d) (hst : d.stage = .hookWait i)
    (hk : kindHook (kindOf d.fc) = some .write) :
    answerHook (.ok v) s = settleValue s d k (d.addr.toNat - r.base.toNat) i v := by
  simp only [answerHook_ok_eq hph hst, acceptAnswer_write hk, answerWrite, writeTarget_located hr hk]

end

/-- Settles O50: with a hook the call carries the incoming value, without one that value is settled. -/
theorem accessStepOfAWrite : Obligations.AccessStepOfAWrite := by
  intro s d i k r v hr hl hk hst hi hv
  have hstep := engineStep_write hr hk hst hi hv
  obtain ⟨hatomic, hprefixed⟩ := settleValue_located (v := v) hr hi
  refine ⟨fun hh => ?called, fun hh hp => ?atomic, fun hh hp => ?prefixed⟩ <;> rw [hh] at hstep
  case called =>
    exact ⟨_, _, hstep, rfl, hookCall_write hr hk hv, rfl, rfl, rfl, elementCall_addr hr hl hi .write v, rfl⟩
  case atomic => exact hstep.trans (hatomic hp)
  case prefixed =>
    obtain ⟨s', hcell, hsettle⟩ := hprefixed hp
    exact ⟨s', hcell, hstep.trans hsettle⟩

/-- Settles O51: the hook's value is settled as it stands, and a `Fail` stores nothing. -/
theorem answerStepOfAWriteHook : Obligations.AnswerStepOfAWriteHook := by
  intro s d i k r v hph hst hi hr hk
  obtain ⟨hatomic, hprefixed⟩ := settleValue_located (v := v) hr hi
  rw [answerHook_write hr hph hst hk]
  exact ⟨hatomic, hprefixed, answerHook_fail hph hst⟩

/-! ### The cells of a span and the commit -/

/-- `m` is the holding file of `s` with the words `ws` in the `n` cells from address `a` on. -/
def StoredFrom (s : State) (a n : Nat) (ws : List Word) (m : Memory) : Prop :=
  ∀ b, Memory.read s.cfg.holding m b =
    if a ≤ b ∧ b < a + n then ws[b - a]? else Memory.read s.cfg.holding s.holding b

section
variable {s : State} {d : Dispatch} {k : Nat} {r : Range}

/-- Values for the first addresses of a located span can be stored, and nothing else changes (R135). -/
theorem writeCells_located {ws : List Word} (hr : Located s.cfg d k r .holding)
    (hw : Memory.wf s.cfg.holding s.holding = true) (hlen : ws.length ≤ d.qty.toNat) :
    ∃ m, writeCells s k (d.addr.toNat - r.base.toNat) ws = some (s.setHolding m) ∧
      Memory.wf s.cfg.holding m = true ∧ StoredFrom s d.addr.toNat ws.length ws m := by
  have hinside := located_offset hr
  have h := writeCells_span (o := d.addr.toNat - r.base.toNat) (vs := ws) hr.range (by omega) hw
  rwa [Nat.add_sub_cancel' hr.base] at h

theorem commitCells_atomic {o : Nat} (hp : s.cfg.failPolicy = .atomic) :
    commitCells s d k o = writeCells s k o d.acc := by
  simp only [commitCells, hp]

theorem commitCells_prefixed {o : Nat} (hp : s.cfg.failPolicy = .prefixed) : commitCells s d k o = some s := by
  simp only [commitCells, hp]

/-- T6 of a write (R135, R139). -/
theorem engineStep_commit_write {t : State} {e : Reply} (hr : Located s.cfg d k r .holding)
    (hk : kindHook (kindOf d.fc) = some .write) (hst : d.stage = .commit) (he : echoReply d = some e)
    (ht : commitCells s d k (d.addr.toNat - r.base.toNat) = some t) :
    engineStep s d = .next (t.setPhase (.replying e)) := by
  simp only [engineStep, hst, commitStep_write hk, commitWrite, writeTarget_located hr hk, he, ht]

/-- The echo holds the request's own fields (R139). -/
theorem echoReply_fields {e : Reply} (he : echoReply d = some e) :
    (d.fc = 0x06 → ∃ v, d.vals[0]? = some v ∧ e = .writeSingleOk d.addr v) ∧
      (d.fc = 0x10 → e = .writeMultipleOk d.addr d.qty) := by
  refine ⟨fun hfc => ?single, fun hfc => ?multiple⟩
  case single =>
    simp only [echoReply, hfc, show kindOf 0x06 = .writeHolding from rfl, Option.map_eq_some_iff] at he
    obtain ⟨v, hv, rfl⟩ := he
    exact ⟨v, by rwa [← List.head?_eq_getElem?], rfl⟩
  case multiple =>
    simp only [echoReply, hfc, show kindOf 0x10 = .writeMultipleHolding from rfl, Option.some.injEq] at he
    exact he.symm

end

/-- Settles O52: under ATOMIC the commit stores the gathered values, under PREFIX they are in their cells. -/
theorem commitOfAWrite : Obligations.CommitOfAWrite := by
  intro s d k r hr hk hwords hlen hw hst
  obtain ⟨e, he⟩ := echoReply_some hwords hk
  obtain ⟨hsingle, hmultiple⟩ := echoReply_fields he
  refine ⟨e, hsingle, hmultiple, fun hp => ?atomic, fun hp => ?prefixed⟩
  case atomic =>
    obtain ⟨m, hstore, -, hcells⟩ := writeCells_located hr hw hlen.le
    exact ⟨m, engineStep_commit_write hr hk hst he ((commitCells_atomic hp).trans hstore), hlen ▸ hcells⟩
  case prefixed => exact engineStep_commit_write hr hk hst he (commitCells_prefixed hp)

/-! ### An accepted write up to its reply or its first call -/

/-- Settles O47: the write of a plain span of one address. -/
theorem writeHoldingStoresTheWord : Obligations.WriteHoldingStoresTheWord := by
  intro addr value s k r hacc hw hspan hh
  obtain ⟨m, hexec, hwf, hread⟩ := exec_write_plain (.single addr value) hacc hw hspan hh
  refine ⟨m, hexec, hwf, fun a => (hread a).trans ?_⟩
  have hone : (1 : Word).toNat = 1 := rfl
  by_cases ha : a = addr.toNat
  · simp [ha]
  · rw [if_neg ha, if_neg (by omega)]

/-- Settles O48: the write of a plain span. -/
theorem writeMultipleHoldingStoresTheWords : Obligations.WriteMultipleHoldingStoresTheWords :=
  fun addr qty values _ _ _ hacc hlen h1 hmax hw hspan hh =>
    exec_write_plain (.multiple addr qty values hlen h1 hmax) hacc hw hspan hh

/-- A request whose validation passes, with its target range (R94). -/
structure ValidRequest (cfg : Configuration) (q : Instr) (sp : Space) (k : Nat) (r : Range) : Prop where
  wellFormed : q.WellFormed
  space : kindSpace (kindOf (dispatchOf q).fc) = some sp
  positive : 1 ≤ (dispatchOf q).qty.toNat
  quantity : quantityLegal cfg (kindOf (dispatchOf q).fc) (dispatchOf q).qty.toNat = true
  span : SpanInRange cfg sp (dispatchOf q).addr (dispatchOf q).qty k r

/-- The record of a request once validation has set its target (T2). -/
def validatedRecord (q : Instr) (sp : Space) (k : Nat) : Dispatch :=
  { dispatchOf q with tgt := some (sp, k), stage := .access 0 }

section
variable {s : State} {q : Instr} {sp : Space} {k : Nat} {r : Range}

theorem ValidRequest.located (hq : ValidRequest s.cfg q sp k r) : Located s.cfg (validatedRecord q sp k) k r sp :=
  ⟨hq.space, hq.quantity, rfl, hq.span.range, hq.span.base, hq.span.limit⟩

/-- An accepted request whose validation passes goes on from `Access(0)` (R94, R101). -/
theorem ValidRequest.exec_eq (hq : ValidRequest s.cfg q sp k r) (hacc : Accepted s q) : exec q s =
    settle ((dispatchOf q).qty.toNat + 2) (s.setPhase (.dispatching (validatedRecord q sp k))) := by
  rw [exec_eq_serve]
  exact (serve_located hacc rfl hq.space hq.positive hq.quantity hq.span).2

theorem HookedRequest.valid {h : HookKind} (hq : HookedRequest s.cfg q h sp k r) : ValidRequest s.cfg q sp k r :=
  ⟨hq.wellFormed, hq.space, hq.positive, hq.quantity, hq.span⟩

theorem HookedRequest.hooked {h : HookKind} (hq : HookedRequest s.cfg q h sp k r) :
    Hooked s.cfg (validatedRecord q sp k) h sp k r :=
  ⟨hq.valid.located, dispatchOf_words hq.wellFormed, hq.kind, hq.hook⟩

/-- An accepted request into a range with its hook goes through to the call for its first address (R113, R133). -/
theorem HookedRequest.exec_eq {h : HookKind} (hq : HookedRequest s.cfg q h sp k r) (hacc : Accepted s q) :
    exec q s = .next (s.setPhase (.dispatching { validatedRecord q sp k with stage := .hookWait 0 })) :=
  (hq.valid.exec_eq hacc).trans (settle_hooked hq.hooked rfl hq.positive _)

end

/-- The record of a write of a span in range `k`, once validation has set the target (R94, R130). -/
def validatedWrite (fc : Byte) (addr qty : Word) (values : List Word) (k : Nat) : Dispatch :=
  { newDispatch fc addr qty values with tgt := some (.holding, k), stage := .access 0 }

section
variable {q : Instr} {fc : Byte} {addr qty : Word} {values : List Word} {echo : Reply}

theorem WriteRequest.validatedRecord_eq {cfg : Configuration} (h : WriteRequest cfg q fc addr qty values echo)
    (k : Nat) : validatedRecord q .holding k = validatedWrite fc addr qty values k := by
  rw [validatedRecord, h.dispatchOf_eq, validatedWrite]

theorem WriteRequest.qty_pos {cfg : Configuration} (h : WriteRequest cfg q fc addr qty values echo) :
    0 < qty.toNat := by
  obtain ⟨-, -, hpos, -, -⟩ := h.validates
  exact hpos

/-- An accepted write of a range with a write hook calls it for the first address (R133). -/
theorem exec_write_hooked {s : State} {k : Nat} {r : Range} (hreq : WriteRequest s.cfg q fc addr qty values echo)
    (hacc : Accepted s q) (hspan : SpanInRange s.cfg .holding addr qty k r) (hh : r.hasWr = true) :
    Hooked s.cfg (validatedWrite fc addr qty values k) .write .holding k r ∧ exec q s =
      .next (s.setPhase (.dispatching { validatedWrite fc addr qty values k with stage := .hookWait 0 })) := by
  have hq := hookedRequest_write hreq hspan hh
  rw [← hreq.validatedRecord_eq]
  exact ⟨hq.hooked, hq.exec_eq hacc⟩

end

/-- Settles O49: the access step of the first address is a call. -/
theorem hookedWriteCallsTheWriteHook : Obligations.HookedWriteCallsTheWriteHook := by
  intro q fc addr qty values echo s k r hreq hacc hspan hh
  obtain ⟨hd, hexec⟩ := exec_write_hooked hreq hacc hspan hh
  have hv : values[0]? = some (values[0]'(hreq.length_eq ▸ hreq.qty_pos)) := List.getElem?_eq_getElem _
  refine ⟨_, _, hexec, rfl, hv, (hookCall_write hd.located hd.kind hv).trans ?_⟩
  simp [elementCall, validatedWrite, newDispatch]

end Sys2Proof.Machine
end

section
/-!
A whole write with the hook answers it gets (R98, R101, R136, R137, R142): the holding file while it is in flight, the
engine's turns and the answers, and the ends of the write path.
-/
namespace Sys2Proof.Machine

/-! ### A hooked write in flight -/

/-- What a write from address `a` on that has settled the values `acc`, and has not committed, leaves in the holding
file `m` (R136): nothing under ATOMIC, those values under PREFIX. -/
def LeavesCells (s : State) (a : Nat) (acc : List Word) (m : Memory) : Prop :=
  (s.cfg.failPolicy = .atomic → m = s.holding) ∧ (s.cfg.failPolicy = .prefixed → StoredFrom s a acc.length acc m)

/-- `s` with the write `d` in flight, what it has settled in the cells as the policy wants it, and the agenda `es`. -/
def writeInFlight (s : State) (k : Nat) (r : Range) (es : List Event) (d : Dispatch) : State :=
  ((s.setHolding (flightCells s k (d.addr.toNat - r.base.toNat) d.acc)).setAgenda es).setPhase (.dispatching d)

/-- Before its first value is settled a write has changed no cell. -/
theorem writeInFlight_nil {s : State} {k : Nat} {r : Range} {es : List Event} {d : Dispatch} (h : d.acc = []) :
    writeInFlight s k r es d = (s.setAgenda es).setPhase (.dispatching d) := by
  simp [writeInFlight, h]

section
variable {s : State} {d : Dispatch} {k : Nat} {r : Range} {es : List Event}
  (hd : Hooked s.cfg d .write .holding k r) (hw : Memory.wf s.cfg.holding s.holding = true)
include hd

/-- The engine's turn in `Access(i)` of a hooked write, before its last value is settled (R133). -/
theorem step_write_calls {i : Nat} (hst : d.stage = .access i) (hi : i < d.qty.toNat)
    (hreset : resetAtOnce es = none) : step (writeInFlight s k r es d) =
      .next (writeInFlight s k r es { d with stage := .hookWait i }) := by
  have hturn : turnOf (writeInFlight s k r es d) = .engine := turnOf_moves (engineTurn_access hst) hreset
  have habout := aboutToCall_access
    (s := (s.setHolding (flightCells s k (d.addr.toNat - r.base.toNat) d.acc)).setAgenda es) hd hst
  simp only [step, hturn]
  exact habout.calls hi

include hw

theorem flightCells_leaves (hlen : d.acc.length ≤ d.qty.toNat) :
    LeavesCells s d.addr.toNat d.acc (flightCells s k (d.addr.toNat - r.base.toNat) d.acc) := by
  refine ⟨fun hp => by simp only [flightCells, hp], fun hp => ?prefixed⟩
  case prefixed =>
    obtain ⟨m, hstore, -, hcells⟩ := writeCells_located hd.located hw hlen
    simpa only [flightCells, hp, hstore, setHolding_holding] using hcells

/-- The engine's turn after the last value of a write is settled: the commit and the echo (R96, R135, R139). -/
theorem step_write_commits {e : Reply} (hst : d.stage = .access d.qty.toNat) (hlen : d.acc.length = d.qty.toNat)
    (he : echoReply d = some e) (hreset : resetAtOnce es = none) :
    ∃ m, step (writeInFlight s k r es d) = .next (((s.setHolding m).setAgenda es).setPhase (.replying e)) ∧
      Memory.wf s.cfg.holding m = true ∧ StoredFrom s d.addr.toNat d.qty.toNat d.acc m := by
  have hturn : turnOf (writeInFlight s k r es d) = .engine := turnOf_moves (engineTurn_access hst) hreset
  obtain ⟨m, hstore, hwf, hcells⟩ := writeCells_located hd.located hw hlen.le
  obtain ⟨m', hstore', hsettle⟩ := settle_write_last (s := s.setAgenda es) (n := d.qty.toNat + 1) hd.located hd.kind
    hst hlen hw he
  obtain rfl : m = m' := by simpa [hstore] using congrArg (Option.map State.holding) hstore'
  rw [flightCells_setAgenda] at hsettle
  refine ⟨m, ?_, hwf, hlen ▸ hcells⟩
  simp only [step, hturn]
  rw [engineMove_goesOn rfl (by simp [hst]) (by simp [hst])]
  exact hsettle

/-- T5 of a hooked write: the hook's value is settled (R134, R136). -/
theorem answerHook_writeInFlight (hst : d.stage = .hookWait d.acc.length) (hlt : d.acc.length < d.qty.toNat)
    (v : Word) : answerHook (.ok v) (writeInFlight s k r es d) =
      .next (writeInFlight s k r es { d with acc := d.acc ++ [v], stage := .access (d.acc.length + 1) }) := by
  have hinside := located_offset hd.located
  rw [answerHook_write (s := writeInFlight s k r es d) hd.located rfl hst hd.kind]
  have hsettle := settleValue_flight (s := s.setAgenda es) (d := d) (o := d.addr.toNat - r.base.toNat) (v := v)
    hd.located.range (by omega) hw (.dispatching d)
  rw [flightCells_setAgenda, flightCells_setAgenda] at hsettle
  exact hsettle

end

/-! ### The ends of the write path -/

/-- A run from `u` ends a write that began in `s` as the path's end says, `more` following the answers on the agenda:
the cells are those of `s` but for what that end stores, and all else but the agenda and the phase is as in `s` (R136,
R137, R142). -/
def WriteEnds (s : State) (fc : Byte) (addr qty : Word) (echo : Reply) (more : List Event) (u : State) :
    PathEnd → Prop
  | .done acc rest => ∃ n m, Host.Core.run core n u =
      .next (((s.setHolding m).setAgenda (rest.map (.answer s.restarts) ++ more)).setPhase (.replying echo)) ∧
      Memory.wf s.cfg.holding m = true ∧ StoredFrom s addr.toNat qty.toNat acc m
  | .failed acc rest => ∃ n m, Host.Core.run core n u =
      .next (((s.setHolding m).setAgenda (rest.map (.answer s.restarts) ++ more)).setPhase
        (.replying (.exception fc .serverDeviceFailure))) ∧ LeavesCells s addr.toNat acc m
  | .hangs acc => (∀ m, Event.reset m ∉ more) → (∀ a, Event.answer s.restarts a ∉ more) →
      ∃ m h d, d.stage = .hookWait acc.length ∧ d.acc = acc ∧ (∀ n, m ≤ n → ∃ es, Host.Core.run core n u =
        .next (((s.setHolding h).setAgenda es).setPhase (.dispatching d))) ∧ LeavesCells s addr.toNat acc h

theorem run_succ {s t : State} (h : step s = .next t) (n : Nat) :
    Host.Core.run core (n + 1) s = Host.Core.run core n t := by
  have hcore : core.step s = .next t := h
  simp only [Host.Core.run, hcore]

/-- One step before a write that ends as `x` says. -/
theorem WriteEnds.of_step {s u t : State} {fc : Byte} {addr qty : Word} {echo : Reply} {more : List Event}
    {x : PathEnd} (hstep : step u = .next t) (h : WriteEnds s fc addr qty echo more t x) :
    WriteEnds s fc addr qty echo more u x := by
  cases x with
  | done acc rest | failed acc rest =>
    obtain ⟨n, m, hrun, hcells⟩ := h
    exact ⟨n + 1, m, (run_succ hstep n).trans hrun, hcells⟩
  | hangs acc =>
    intro hr ha
    obtain ⟨m, cells, d, hst, hacc, hrun, hcells⟩ := h hr ha
    refine ⟨m + 1, cells, d, hst, hacc, fun n hle => ?_, hcells⟩
    obtain ⟨j, rfl⟩ := Nat.exists_eq_add_of_le' hle
    obtain ⟨es, hes⟩ := hrun (j + m) (Nat.le_add_left m j)
    exact ⟨es, (run_succ hstep (j + m)).trans hes⟩

/-! ### A hooked write from a call on -/

section
variable {s : State} {d : Dispatch} {k : Nat} {r : Range} {e : Reply} {more : List Event}
  (hw : Memory.wf s.cfg.holding s.holding = true)
include hw

/-- What the outstanding call of a hooked write leads to, where `hgo` says it of the run after an `Ok` (R134, R137). -/
theorem writeEnds_call {v : Word} {vs : List Word} {answers : List HookAnswer}
    (hd : Hooked s.cfg d .write .holding k r) (hst : d.stage = .hookWait d.acc.length)
    (hlt : d.acc.length < d.qty.toNat)
    (hgo : ∀ w rest, WriteEnds s d.fc d.addr d.qty e more (writeInFlight s k r (rest.map (.answer s.restarts) ++ more)
      { d with acc := d.acc ++ [w], stage := .access (d.acc.length + 1) }) (pathLoop true (d.acc ++ [w]) vs rest)) :
    WriteEnds s d.fc d.addr d.qty e more (writeInFlight s k r (answers.map (.answer s.restarts) ++ more) d)
      (pathLoop true d.acc (v :: vs) answers) := by
  have hcells := flightCells_leaves hd hw hlt.le
  obtain _ | ⟨_ | _, rest⟩ := answers
  case nil =>
    intro hr ha
    exact ⟨0, _, d, hst, rfl, fun n _ => run_unanswered (s := writeInFlight s k r more d) rfl hst hr ha n, hcells⟩
  case cons.ok w =>
    exact .of_step ((step_answer (s := writeInFlight s k r _ d) rfl hst rfl).2.trans
      (answerHook_writeInFlight hd hw hst hlt w)) (hgo w rest)
  case cons.fail =>
    exact .of_step ((step_answer (s := writeInFlight s k r _ d) rfl hst rfl).2.trans
      (answerHook_fail (s := writeInFlight s k r _ d) rfl hst)) ⟨0, _, rfl, hcells⟩

/-- A hooked write from `Access(i)` on ends as the loop over the values left says, by induction over these values. -/
theorem writeEnds_access {vs : List Word} {answers : List HookAnswer} (hd : Hooked s.cfg d .write .holding k r)
    (hst : d.stage = .access d.acc.length) (hleft : d.acc.length + vs.length = d.qty.toNat)
    (he : echoReply d = some e) (hreset : resetAtOnce more = none) :
    WriteEnds s d.fc d.addr d.qty e more (writeInFlight s k r (answers.map (.answer s.restarts) ++ more) d)
      (pathLoop true d.acc vs answers) := by
  have hengine := resetAtOnce_answers hreset s.restarts answers
  induction vs generalizing d answers with
  | nil =>
    have hlast : d.acc.length = d.qty.toNat := hleft
    obtain ⟨m, hstep, hwf, hcells⟩ := step_write_commits hd hw (hlast ▸ hst) hlast he hengine
    exact .of_step hstep ⟨0, m, rfl, hwf, hcells⟩
  | cons v vs ih =>
    rw [List.length_cons] at hleft
    have hlt : d.acc.length < d.qty.toNat := by omega
    refine .of_step (step_write_calls hd hst hlt hengine)
      (writeEnds_call (d := { d with stage := .hookWait d.acc.length }) hw (hd.of _ _) rfl hlt fun w rest => ?_)
    exact ih (d := { d with acc := d.acc ++ [w], stage := .access (d.acc.length + 1) }) (hd.of _ _) (by simp)
      (by simp only [List.length_append, List.length_singleton]; omega) he (resetAtOnce_answers hreset _ _)

end

/-! ### From the port on -/

/-- `s` with the request `q` just accepted and the agenda `es` left (T1, R93). -/
def justAccepted (s : State) (q : Instr) (es : List Event) : State :=
  (s.setAgenda es).setPhase (.dispatching (dispatchOf q))

section
variable {s : State} {q : Instr} {fc : Byte} {addr qty : Word} {values : List Word} {echo : Reply}

theorem WriteRequest.wellFormed {cfg : Configuration} (h : WriteRequest cfg q fc addr qty values echo) :
    q.WellFormed := by
  cases h with
  | single => rfl
  | multiple _ _ _ len => exact wellFormed_writeMultipleHolding.2 len

theorem step_justAccepted {es : List Event} (hq : q.WellFormed) (hreset : resetAtOnce es = none) :
    step (justAccepted s q es) = exec q (justAccepted s q es) :=
  (step_accepted (s := justAccepted s q es) rfl hreset (decode_encode hq)).2

variable {k : Nat} {r : Range} {answers : List HookAnswer} {more : List Event}
  (hw : Memory.wf s.cfg.holding s.holding = true) (hreq : WriteRequest s.cfg q fc addr qty values echo)
  (hspan : SpanInRange s.cfg .holding addr qty k r) (hreset : resetAtOnce more = none)
include hw hreq hspan hreset

/-- In a range without a write hook an accepted write draws no answer. -/
theorem writeEnds_plain (hh : r.hasWr = false) : WriteEnds s fc addr qty echo more
    (justAccepted s q (answers.map (.answer s.restarts) ++ more)) (pathLoop false [] values answers) := by
  obtain ⟨m, hexec, hwf, hcells⟩ := exec_write_plain
    (s := justAccepted s q (answers.map (.answer s.restarts) ++ more)) hreq rfl hw hspan hh
  rw [pathLoop_plain]
  exact .of_step ((step_justAccepted hreq.wellFormed (resetAtOnce_answers hreset _ _)).trans hexec)
    ⟨0, m, rfl, hwf, hcells⟩

/-- In a range with a write hook an accepted write goes through to its first call. -/
theorem writeEnds_hooked (hh : r.hasWr = true) : WriteEnds s fc addr qty echo more
    (justAccepted s q (answers.map (.answer s.restarts) ++ more)) (pathLoop true [] values answers) := by
  obtain ⟨hd, hexec⟩ := exec_write_hooked
    (s := justAccepted s q (answers.map (.answer s.restarts) ++ more)) hreq rfl hspan hh
  refine .of_step ((step_justAccepted hreq.wellFormed (resetAtOnce_answers hreset _ _)).trans hexec) ?_
  have hlen := hreq.length_eq
  obtain ⟨v, vs, rfl⟩ := List.exists_cons_of_length_pos (hreq.qty_pos.trans_eq hlen.symm)
  have hcall := writeEnds_call (d := { validatedWrite fc addr qty (v :: vs) k with stage := .hookWait 0 }) (e := echo)
    (more := more) (v := v) (vs := vs) (answers := answers) hw (hd.of _ _) rfl hreq.qty_pos fun w rest =>
      writeEnds_access (d := { validatedWrite fc addr qty (v :: vs) k with acc := [w], stage := .access 1 }) hw
        (hd.of _ _) rfl ((Nat.add_comm 1 _).trans hlen) hreq.echoReply_eq hreset
  rwa [writeInFlight_nil rfl] at hcall

end

/-- Settles O53: T1, and then the write of a plain range or the calls of a hooked one. -/
theorem writeRequestIsTheWritePathFunction : Obligations.WriteRequestIsTheWritePathFunction := by
  intro s q fc addr qty values echo k r answers more hidle hw hreq hspan ha hreset
  suffices WriteEnds s fc addr qty echo more s (pathLoop r.hasWr [] values answers) by
    revert this
    cases pathLoop r.hasWr [] values answers <;> exact id
  refine .of_step (step_submit hidle ha (portDecode_iff.2 ⟨hreq.wellFormed, rfl⟩)).2 ?_
  cases hh : r.hasWr with
  | false => exact writeEnds_plain hw hreq hspan hreset hh
  | true => exact writeEnds_hooked hw hreq hspan hreset hh

end Sys2Proof.Machine
end

section
/-!
The write-fail policy up to the reply or the first call (R136): what the engine does of a state with another policy, and
the ends of an accepted request, none of which depends on the policy.
-/
namespace Sys2Proof.Machine

/-! ### A state under another policy -/

section
variable (s : State) (p : FailPolicy)

@[simp] theorem withPolicy_ranges (sp : Space) : (withPolicy s p).cfg.ranges sp = s.cfg.ranges sp := by
  cases sp <;> rfl

@[simp] theorem withPolicy_file (sp : Space) : (withPolicy s p).file sp = s.file sp := by
  cases sp <;> rfl

@[simp] theorem quantityLegal_withPolicy (k : Kind) (q : Nat) :
    quantityLegal (withPolicy s p).cfg k q = quantityLegal s.cfg k q := rfl

@[simp] theorem validate_withPolicy (d : Dispatch) : validate (withPolicy s p).cfg d = validate s.cfg d := by
  simp [validate]

@[simp] theorem rawCells_withPolicy (sp : Space) (k o n : Nat) :
    rawCells (withPolicy s p) sp k o n = rawCells s sp k o n := by
  induction n generalizing o with
  | zero => rfl
  | succ n ih => simp [rawCells, readCell, ih]

theorem writeCell_withPolicy (k o : Nat) (v : Word) :
    writeCell (withPolicy s p) k o v = (writeCell s k o v).map (withPolicy · p) := by
  simp only [writeCell, show (withPolicy s p).cfg.holding = s.cfg.holding from rfl]
  repeat' split
  all_goals rfl

theorem writeCells_withPolicy (k o : Nat) (vs : List Word) :
    writeCells (withPolicy s p) k o vs = (writeCells s k o vs).map (withPolicy · p) := by
  induction vs generalizing s o with
  | nil => rfl
  | cons v vs ih =>
    simp only [writeCells, writeCell_withPolicy]
    cases writeCell s k o v with
    | none => rfl
    | some t => exact ih t (o + 1)

end

theorem ValidRequest.withPolicy {s : State} {q : Instr} {sp : Space} {k : Nat} {r : Range}
    (h : ValidRequest s.cfg q sp k r) (p : FailPolicy) : ValidRequest (withPolicy s p).cfg q sp k r := by
  obtain ⟨hlegal, hrange, hbase, hlimit⟩ := h.span
  exact ⟨h.wellFormed, h.space, h.positive, h.quantity,
    ⟨by rwa [withPolicy_ranges], by rwa [withPolicy_ranges], hbase, hlimit⟩⟩

/-! ### The ends of a validated request in a plain range -/

/-- A located span is not empty (R94). -/
theorem Located.qty_pos {cfg : Configuration} {d : Dispatch} {k : Nat} {r : Range} {sp : Space}
    (h : Located cfg d k r sp) : 1 ≤ d.qty.toNat := by
  have hspace := h.space
  have hquantity := h.quantity
  cases hkind : kindOf d.fc <;> simp [hkind, kindSpace, quantityLegal] at hspace hquantity <;> omega

section
variable {s : State} {q : Instr} {sp : Space} {k : Nat} {r : Range} (hacc : Accepted s q)
include hacc

/-- Validation passes only requests with a legal range that holds the span (R94). -/
theorem validRequest_of_validate (hs : Inv s) (hq : q.WellFormed)
    (hval : validate s.cfg (dispatchOf q) = .ok (sp, k)) : ∃ r, ValidRequest s.cfg q sp k r := by
  obtain ⟨r, hloc⟩ := validate_ok hval .commit
  have hpassed : PhaseOk s.cfg (.dispatching (dispatchOf q)) := hacc ▸ hs.phase
  have hlegal := (constructionError_none_legal hpassed.1).ranges sp
  exact ⟨r, hq, hloc.space, hloc.qty_pos, hloc.quantity, hlegal, hloc.range, hloc.base, hloc.limit⟩

/-- A read of a plain range replies with the raw cells (R114, R116). -/
theorem ValidRequest.exec_read {vs : List Word} (hq : ValidRequest s.cfg q sp k r)
    (hk : kindHook (kindOf (dispatchOf q).fc) = some .read) (hh : r.hasRd = false)
    (hvs : rawCells s sp k ((dispatchOf q).addr.toNat - r.base.toNat) (dispatchOf q).qty.toNat = some vs) :
    exec q s = .next (s.setPhase (.replying (.readOk (dispatchOf q).fc vs))) := by
  have hsettle := settle_read_plain (n := 0) (i := 0) hh hq.located hk rfl (Nat.zero_add _) hvs
  rw [Nat.zero_add] at hsettle
  exact (hq.exec_eq hacc).trans hsettle

/-- A write of a plain range stores its data words, under either policy (R133, R135, R136). -/
theorem ValidRequest.exec_write {e : Reply} (hq : ValidRequest s.cfg q .holding k r)
    (hk : kindHook (kindOf (dispatchOf q).fc) = some .write) (hh : r.hasWr = false)
    (hw : Memory.wf s.cfg.holding s.holding = true) (he : echoReply (dispatchOf q) = some e) :
    ∃ m, writeCells s k ((dispatchOf q).addr.toNat - r.base.toNat) (dispatchOf q).vals = some (s.setHolding m) ∧
      exec q s = .next ((s.setHolding m).setPhase (.replying e)) := by
  obtain ⟨m, hstore, hsettle⟩ := settle_write_plain (n := 0) (d := validatedRecord q .holding k) hh hw hq.located hk
    (dispatchOf_words hq.wellFormed) rfl (Nat.zero_add _) he
  have hnil : (validatedRecord q .holding k).acc = [] := rfl
  rw [hnil, flightCells_nil, setHolding_self, Nat.zero_add] at hsettle
  exact ⟨m, hstore, (hq.exec_eq hacc).trans hsettle⟩

end

/-! ### The ends of an accepted request under two policies -/

/-- Serving the request `q` answers the same under the policy of `s` and under `p`. -/
def SamePolicy (s : State) (q : Instr) (p : FailPolicy) : Prop :=
  ∃ t, exec q s = .next t ∧ exec q (withPolicy s p) = .next (withPolicy t p)

section
variable {s : State} {q : Instr} {sp : Space} {k : Nat} {r : Range} (hacc : Accepted s q) (p : FailPolicy)
include hacc

theorem samePolicy_rejected {c : ExceptionKind} (hval : validate s.cfg (dispatchOf q) = .error c) :
    SamePolicy s q p :=
  ⟨_, exec_rejected rfl hacc rfl hval,
    exec_rejected (s := withPolicy s p) rfl hacc rfl ((validate_withPolicy s p _).trans hval)⟩

variable (hq : ValidRequest s.cfg q sp k r)
include hq

/-- The call for the first address is made before anything is stored (R92). -/
theorem samePolicy_hooked {h : HookKind} (hk : kindHook (kindOf (dispatchOf q).fc) = some h)
    (hh : rangeHasHook r h = true) : SamePolicy s q p := by
  have hooked {u : State} (hu : ValidRequest u.cfg q sp k r) : HookedRequest u.cfg q h sp k r :=
    ⟨hu.wellFormed, hu.space, hk, hu.positive, hu.quantity, hu.span, hh⟩
  exact ⟨_, (hooked hq).exec_eq hacc, (hooked (hq.withPolicy p)).exec_eq hacc⟩

theorem samePolicy_read (hk : kindHook (kindOf (dispatchOf q).fc) = some .read) (hh : r.hasRd = false) :
    SamePolicy s q p := by
  obtain ⟨vs, hvs, -⟩ := rawCells_span (s := s) hq.span.range hq.span.inside
  exact ⟨_, hq.exec_read hacc hk hh hvs,
    (hq.withPolicy p).exec_read (s := withPolicy s p) hacc hk hh ((rawCells_withPolicy s p ..).trans hvs)⟩

/-- Both policies leave the file that `writeCells` makes of the data words. -/
theorem samePolicy_write (hw : Memory.wf s.cfg.holding s.holding = true)
    (hk : kindHook (kindOf (dispatchOf q).fc) = some .write) (hh : r.hasWr = false) : SamePolicy s q p := by
  obtain rfl := located_write_space hq.located hk
  obtain ⟨e, he⟩ := echoReply_some (dispatchOf_words hq.wellFormed) hk
  obtain ⟨m, hstore, hexec⟩ := hq.exec_write hacc hk hh hw he
  obtain ⟨m', hstore', hexec'⟩ := (hq.withPolicy p).exec_write (s := withPolicy s p) hacc hk hh hw he
  rw [writeCells_withPolicy, hstore] at hstore'
  obtain rfl : m = m' := congrArg State.holding (Option.some.inj hstore')
  exact ⟨_, hexec, hexec'⟩

end

/-- Settles O60: a request is rejected, or makes its first call, or goes through a plain range. Of these ends only the
plain write stores anything, and by its echo it has stored the same words under both policies. -/
theorem writeFailPolicyShowsOnlyAfterAHookCall : Obligations.WriteFailPolicyShowsOnlyAfterAHookCall := by
  intro q s t p hs hq hacc ht
  suffices SamePolicy s q p by
    obtain ⟨u, hu, hpolicy⟩ := this
    obtain rfl : u = t := by simpa [hu] using ht
    exact hpolicy
  cases hval : validate s.cfg (dispatchOf q) with
  | error c => exact samePolicy_rejected hacc p hval
  | ok x =>
    obtain ⟨sp, k⟩ := x
    obtain ⟨r, hvalid⟩ := validRequest_of_validate hacc hs hq hval
    obtain ⟨h, hk⟩ := kindHook_of_space hvalid.space
    cases hh : rangeHasHook r h with
    | true => exact samePolicy_hooked hacc p hvalid hk hh
    | false =>
      cases h with
      | read => exact samePolicy_read hacc p hvalid hk hh
      | write => exact samePolicy_write hacc p hvalid hs.holding hk hh

end Sys2Proof.Machine
end

section
/-!
The verdict of construction and its order (R171 to R173): one equation per outcome of the two checks of a descriptor,
and what the checks of a space make of a list after ranges that pass.
-/
namespace Sys2Proof.Machine

/-! ### The two checks of a descriptor -/

theorem rangeCheck_zeroCount {r : Range} (hzero : r.count.toNat = 0) : rangeCheck r = some .zeroCount :=
  if_pos (BitVec.eq_of_toNat_eq hzero)

theorem rangeCheck_addressOverflow {r : Range} (hcount : r.count.toNat ≠ 0)
    (hover : r.base.toNat + r.count.toNat > 65536) : rangeCheck r = some .addressOverflow := by
  have hne : r.count ≠ 0 := fun h => hcount (congrArg BitVec.toNat h)
  exact (if_neg hne).trans (if_pos hover)

/-- Settles O10: one lemma for each verdict; what is neither empty nor past the ceiling is a legal range. -/
theorem descriptorCheckVerdict : Obligations.DescriptorCheckVerdict := fun r =>
  ⟨rangeCheck_zeroCount, rangeCheck_addressOverflow,
    fun hcount hfits => (rangeCheck_none_iff r).2 ⟨Nat.pos_of_ne_zero hcount, hfits⟩⟩

/-- An address shared with a range registered earlier fails registration (R173). -/
theorem registerCheck_overlappingRange {earlier : List Range} {r : Range}
    (hshared : ∃ q ∈ earlier, ∃ a, q.covers a = true ∧ r.covers a = true) :
    registerCheck earlier r = some .overlappingRange := by
  obtain ⟨q, hq, a, hcovers⟩ := hshared
  have hfails : registerCheck earlier r ≠ none := fun h => (registerCheck_none_iff earlier r).1 h q hq a hcovers
  simpa [registerCheck] using hfails

/-! ### The order of the checks -/

theorem spaceError_cons (earlier rs : List Range) (r : Range) : spaceError earlier (r :: rs) =
    ((rangeCheck r).or (registerCheck earlier r)).or (spaceError (earlier ++ [r]) rs) := by
  cases hr : rangeCheck r <;> cases hg : registerCheck earlier r <;> simp [spaceError, hr, hg]

/-- Ranges that pass are registered, and the checks go on with the rest of the list (R171). -/
theorem spaceError_append {earlier pre : List Range} (rest : List Range) (hpass : spaceError earlier pre = none) :
    spaceError earlier (pre ++ rest) = spaceError (earlier ++ pre) rest := by
  induction pre generalizing earlier with
  | nil => simp
  | cons r pre ih =>
    rw [spaceError_cons, Option.or_eq_none_iff] at hpass
    obtain ⟨hr, hpre⟩ := hpass
    rw [List.cons_append, spaceError_cons, hr, Option.none_or, ih hpre, List.append_assoc, List.singleton_append]

/-- Settles O12: after ranges that pass, the next descriptor meets its own check and then its registration, and either
failure is the verdict; of the two spaces the holding space comes first. -/
theorem firstFailingDescriptorDecides : Obligations.FirstFailingDescriptorDecides := by
  refine ⟨fun pre post r hpre => ?descriptor, fun cfg e he => ?holding_fails, fun cfg hpass => ?holding_passes⟩
  case descriptor =>
    rw [spaceError_append (r :: post) hpre, List.nil_append, spaceError_cons]
    constructor
    · intro e he
      simp [he]
    · intro hr hshared
      simp [hr, registerCheck_overlappingRange hshared]
  case holding_fails => simp [constructionError, he]
  case holding_passes => simp [constructionError, hpass]

end Sys2Proof.Machine
end

section
/-!
Reset, late answers and the hook wait (R170, R179): what a reset forgets, what a late answer leaves, and what alone
ends a `HookWait`.
-/
namespace Sys2Proof.Machine

/-- The engine is constructed anew from its configuration; phase and cells have no part in it (R170). -/
theorem restart_congr {s t : State} (hcfg : s.cfg = t.cfg) (hagenda : s.agenda = t.agenda)
    (hrestarts : s.restarts = t.restarts) : restart s = restart t := by
  simp only [restart, hcfg, hagenda, hrestarts]

/-- A reset at once comes next in any phase, even where the engine has a step of its own to do (R170). -/
theorem step_resetAtOnce {s : State} {rest : List Event} (ha : s.agenda = .reset .atOnce :: rest) :
    step s = .next (restart (s.setAgenda rest)) := by
  simp only [step, turnOf_reset ha (.inl rfl)]

/-- Settles O14: in both states the step is the restart, which builds on what the two have in common. -/
theorem resetForgetsCellsAndPhase : Obligations.ResetForgetsCellsAndPhase := by
  intro s s' rest hcfg hrestarts ha ha'
  rw [step_resetAtOnce ha, step_resetAtOnce ha']
  exact congrArg _ (restart_congr hcfg rfl hrestarts)

/-- Settles O28: outside `Halted` an answer to an abandoned call is enabled in every phase, and its turn is to be
discarded, whether or not a newer call is outstanding. -/
theorem lateAnswerIsDiscarded : Obligations.LateAnswerIsDiscarded := by
  intro s n a rest ha hlate hrunning hwaits
  have henabled : eventEnabled s (.answer n a) = true := eventEnabled_answer.2 ⟨hrunning, .inl hlate⟩
  have hturn : turnOf s = .discard rest := (turnOf_cons hwaits ha henabled).trans (if_neg hlate.ne)
  simp only [step, hturn]
  rfl

/-- While a call is outstanding, only its answer and reset change the phase (R179). -/
theorem step_hookWait_phase {s t : State} {d : Dispatch} {i : Nat} (hph : s.phase = .dispatching d)
    (hst : d.stage = .hookWait i) (h : step s = .next t) :
    t.phase = s.phase ∨ (∃ a rest, turnOf s = .answer a rest) ∨ ∃ rest, turnOf s = .restart rest := by
  cases hturn : turnOf s with
  | answer a rest => exact .inr (.inl ⟨a, rest, rfl⟩)
  | restart rest => exact .inr (.inr ⟨rest, rfl⟩)
  | wait | discard _ =>
    simp only [step, hturn] at h
    cases h
    exact .inl rfl
  | engine =>
    obtain ⟨-, d', hph', hmoves⟩ := turnOf_engine hturn
    obtain rfl : d = d' := by simpa [hph] using hph'
    exact absurd hst (hmoves i)
  | accept q rest => cases hph.symm.trans (turnOf_accept hturn).1
  | take rest =>
    obtain ⟨r, hreplying⟩ := turnOf_take hturn
    cases hph.symm.trans hreplying

/-- Settles O24: the step lemma for the ways out; without them every step leaves all but the agenda, and a request in
flight keeps the port closed and offers no reply. -/
theorem unansweredHookHangsForEver : Obligations.UnansweredHookHangsForEver := by
  intro s d i hph hst
  refine ⟨fun t => step_hookWait_phase hph hst, fun hreset hanswer => ⟨?port_closed, ?no_reply, ?same_state⟩⟩
  case port_closed => simp [requestReady, hph]
  case no_reply => simp [replyOffered, hph]
  case same_state => exact run_unanswered hph hst hreset hanswer

end Sys2Proof.Machine
end

section
/-!
The numbers of the exception kinds (R151).
-/
namespace Sys2Proof.Machine

/-- Settles O39: the four numbers are the table's, and `exceptionOfCode` inverts it at every byte. -/
theorem exceptionCodesOfTheTable : Obligations.ExceptionCodesOfTheTable :=
  ⟨rfl, rfl, rfl, rfl, fun _ _ => exceptionOfCode_eq_some_iff⟩

end Sys2Proof.Machine
end
